-- ==== Sys2Proof/Word.lean ====
section
/-! DEFINITION. The bit-vector types of the TFE core. Registers are XLEN bits and addresses ADDR_BITS bits in
the spec (R17, R20); both are stored in 64 bits, and Machine/Operands.lean narrows every value to its width. -/

namespace Sys2Proof

/-- One byte of memory (R41). -/
abbrev Byte := BitVec 8

/-- The storage of an XLEN-bit value, XLEN being 32 or 64 (R6, R17). -/
abbrev Word := BitVec 64

/-- The storage of an ADDR_BITS-bit address, ADDR_BITS being at most XLEN (R6, R8, R20). -/
abbrev Addr := BitVec 64

/-- A register field of an instruction word: an unsigned 4-bit register number (R71). -/
abbrev Reg := BitVec 4

/-- The scheduler's and the Timer's 64-bit counters (R35, R156). -/
abbrev Counter := BitVec 64

end Sys2Proof
end

