-- ==== Sys2Proof/Config.lean ====
section
/-! DEFINITION. The platform profile (R6): what the machine is constructed from and what never changes while it runs;
REF-1, the spec's reference profile; and the opaque device handlers that a profile supplies (R58, R61). -/

namespace Sys2Proof

/-- XLEN, the general register width: 32 or 64 (R6). -/
inductive XLen where
  | x32
  | x64
deriving DecidableEq, Repr

/-- XLEN as a number of bits (R6). -/
def XLen.bits : XLen → Nat
  | .x32 => 32
  | .x64 => 64

/-- ALIGN, the policy for misaligned loads and stores (R48). -/
inductive Align where
  | strict
  | tolerant
deriving DecidableEq, Repr

/-- The three kinds of a range (R42). `device d` names device d of the profile. -/
inductive RangeKind where
  | ram
  | rom
  | device (d : Nat)
deriving DecidableEq, Repr

/-- One entry (start, length, handler) of the address space (R41, R42). -/
structure Range where
  start  : Nat
  length : Nat
  kind   : RangeKind
deriving DecidableEq, Repr

/-- The closed set of device kinds (R58, R60). -/
inductive DeviceKind where
  | timer
  | video
  | audio
  | controller
  | generic
deriving DecidableEq, Repr

/-- One device of the profile: (kind, range, irq_line, handler) (R6). `handler` names the opaque handler
`Config.handler handler`; a Timer does not use it. -/
structure DeviceDecl where
  kind    : DeviceKind
  start   : Nat
  length  : Nat
  irqLine : Nat
  handler : Nat
deriving DecidableEq, Repr

/-- A RAM sub-range exposed to the renderer or the mixer (R6, R174). -/
structure Region where
  start  : Nat
  length : Nat
deriving DecidableEq, Repr

/-- The instruction classes of R75's class column. -/
inductive InstrClass where
  | system
  | alu
  | muldiv
  | load
  | store
  | branch
  | jump
deriving DecidableEq, Repr

/-- The profile's table cost(class) (R6, R189). -/
structure Costs where
  system : Nat
  alu    : Nat
  muldiv : Nat
  load   : Nat
  store  : Nat
  branch : Nat
  jump   : Nat
deriving DecidableEq, Repr

/-- cost(class) (R6, R189). -/
def Costs.of (c : Costs) : InstrClass → Nat
  | .system => c.system
  | .alu    => c.alu
  | .muldiv => c.muldiv
  | .load   => c.load
  | .store  => c.store
  | .branch => c.branch
  | .jump   => c.jump

/-- The platform profile, every field of R6's table. -/
structure Profile where
  xlen            : XLen
  nregs           : Nat
  addrBits        : Nat
  ranges          : List Range
  align           : Align
  cpf             : Nat
  costs           : Costs
  faultCost       : Nat
  hasVector       : Bool
  evecReset       : Addr
  resetPc         : Addr
  romBase         : Nat
  romSizes        : List Nat
  devices         : List DeviceDecl
  fpCap           : Bool
  profileId       : BitVec 32
  fbRegion        : Option Region
  audioRegion     : Option Region
  snapshotVersion : BitVec 32
deriving DecidableEq, Repr

/-- REF-1 (R6's REF-1 column, R43's map). The ROM range's length stands for the image size of a constructed machine
(R8): 4 KiB, the smallest REF-1 allows and the one the spec's vectors use. DESIGN CHOICE (log 3), unsafe. -/
def Profile.ref1 : Profile where
  xlen            := .x64
  nregs           := 4
  addrBits        := 32
  ranges          := [⟨0x00000000, 0x10000, .ram⟩, ⟨0x10000000, 4096, .rom⟩, ⟨0x20000000, 0x20, .device 0⟩]
  align           := .strict
  cpf             := 1000
  costs           := ⟨1, 1, 1, 1, 1, 1, 1⟩
  faultCost       := 1
  hasVector       := true
  evecReset       := 0x10000100
  resetPc         := 0x10000000
  romBase         := 0x10000000
  romSizes        := [4096, 8192, 16384, 32768, 65536]
  devices         := [⟨.timer, 0x20000000, 0x20, 0, 0⟩]
  fpCap           := false
  profileId       := 0x00000001
  fbRegion        := none
  audioRegion     := none
  snapshotVersion := 1

/-- The interface of R58 for a device whose behaviour the spec leaves to the profile (R61). The device's state is held
as the bytes it serializes to (log 6); `deserialize` answers the state that a byte string stands for, or none for Err.
`read` and `write` answer none for Err, and the bus then keeps the state, as R58 asks. The last six fields are the laws
of R58: every function maps legal states to legal states, and deserialize (serialize s) = Ok s. The values written
after := only show that some handler meets the laws; `Config.handler` is opaque and no proof can see which one it is. -/
structure OpaqueHandler where
  legal       : List Byte → Bool := fun _ => true
  reset       : List Byte := []
  read        : List Byte → Nat → Nat → Option (Word × List Byte) := fun _ _ _ => none
  write       : List Byte → Nat → Nat → Word → Option (List Byte) := fun _ _ _ _ => none
  tick        : List Byte → Counter → List Byte := fun s _ => s
  irq         : List Byte → Bool := fun _ => false
  deserialize : List Byte → Option (List Byte) := some
  reset_legal : legal reset = true := by rfl
  read_legal  : ∀ s off n v s', legal s = true → read s off n = some (v, s') → legal s' = true := by intros; rfl
  write_legal : ∀ s off n v s', legal s = true → write s off n v = some s' → legal s' = true := by intros; rfl
  tick_legal  : ∀ s n, legal s = true → legal (tick s n) = true := by intros; rfl
  deserialize_legal : ∀ b s, deserialize b = some s → legal s = true := by intros; rfl
  deserialize_serialize : ∀ s, legal s = true → deserialize s = some s := by intros; rfl
deriving Inhabited

/-- The handler that the profile supplies under number `h` for a Video, Audio, Controller or Generic device
(D57, R61). Opaque: a claim about it holds for every handler that meets the laws of R58 (log 6), safe. -/
opaque Config.handler : Nat → OpaqueHandler

end Sys2Proof
end

