-- ==== Sys2Proof/Syntax.lean ====
section
/-! DEFINITION. The 53 instructions of REF-ISA v1 (R75, spec/opcode_table.json), one constructor each. -/

namespace Sys2Proof

/-- The control registers that MFC reads, numbers 0 to 6 (R25). -/
inductive ControlReg where
  | status
  | cause
  | epc
  | badaddr
  | cycle
  | scratch
  | evec
deriving DecidableEq, Repr

/-- The control registers that MTC writes, numbers 0, 2, 5 and 6; every other number is a reserved instruction (R25, R76). -/
inductive WritableReg where
  | status
  | epc
  | scratch
  | evec
deriving DecidableEq, Repr

/-- REF-ISA v1. Operands stand in the order of the word's fields from bit 23 down (R71), but for MTC (cr, rs1), which
stands as R79 writes it. -/
inductive Instr where
  -- SYSTEM (43_system.md)
  | nop
  | halt
  | syscall
  | brk
  | eret
  | mfc   (rd : Reg) (cr : ControlReg)
  | mtc   (cr : WritableReg) (rs1 : Reg)
  -- ALU and MULDIV, format R (40_integer.md)
  | add   (rd rs1 rs2 : Reg)
  | sub   (rd rs1 rs2 : Reg)
  | and   (rd rs1 rs2 : Reg)
  | or    (rd rs1 rs2 : Reg)
  | xor   (rd rs1 rs2 : Reg)
  | sll   (rd rs1 rs2 : Reg)
  | srl   (rd rs1 rs2 : Reg)
  | sra   (rd rs1 rs2 : Reg)
  | slt   (rd rs1 rs2 : Reg)
  | sltu  (rd rs1 rs2 : Reg)
  | mul   (rd rs1 rs2 : Reg)
  | div   (rd rs1 rs2 : Reg)
  | divu  (rd rs1 rs2 : Reg)
  | rem   (rd rs1 rs2 : Reg)
  | remu  (rd rs1 rs2 : Reg)
  -- ALU, format I (40_integer.md)
  | addi  (rd rs1 : Reg) (imm : BitVec 16)
  | andi  (rd rs1 : Reg) (imm : BitVec 16)
  | ori   (rd rs1 : Reg) (imm : BitVec 16)
  | xori  (rd rs1 : Reg) (imm : BitVec 16)
  | slli  (rd rs1 : Reg) (shamt : BitVec 6)
  | srli  (rd rs1 : Reg) (shamt : BitVec 6)
  | srai  (rd rs1 : Reg) (shamt : BitVec 6)
  | slti  (rd rs1 : Reg) (imm : BitVec 16)
  | sltiu (rd rs1 : Reg) (imm : BitVec 16)
  | lui   (rd : Reg) (imm : BitVec 16)
  -- LOAD and STORE (41_loadstore.md)
  | lb    (rd rs1 : Reg) (imm : BitVec 16)
  | lbu   (rd rs1 : Reg) (imm : BitVec 16)
  | lh    (rd rs1 : Reg) (imm : BitVec 16)
  | lhu   (rd rs1 : Reg) (imm : BitVec 16)
  | lw    (rd rs1 : Reg) (imm : BitVec 16)
  | lwu   (rd rs1 : Reg) (imm : BitVec 16)
  | ld    (rd rs1 : Reg) (imm : BitVec 16)
  | sb    (rs2 rs1 : Reg) (imm : BitVec 16)
  | sh    (rs2 rs1 : Reg) (imm : BitVec 16)
  | sw    (rs2 rs1 : Reg) (imm : BitVec 16)
  | sd    (rs2 rs1 : Reg) (imm : BitVec 16)
  -- BRANCH and JUMP (42_control.md)
  | beq   (rs1 rs2 : Reg) (imm : BitVec 16)
  | bne   (rs1 rs2 : Reg) (imm : BitVec 16)
  | blt   (rs1 rs2 : Reg) (imm : BitVec 16)
  | bge   (rs1 rs2 : Reg) (imm : BitVec 16)
  | bltu  (rs1 rs2 : Reg) (imm : BitVec 16)
  | bgeu  (rs1 rs2 : Reg) (imm : BitVec 16)
  | jal   (rd : Reg) (imm : BitVec 20)
  | jalr  (rd rs1 : Reg) (imm : BitVec 16)
  | j     (imm : BitVec 20)
  | jr    (rs1 : Reg) (imm : BitVec 16)
deriving DecidableEq, Repr

end Sys2Proof
end

