-- ==== Sys2Proof/WellFormed.lean ====
section
/-! DEFINITION. Which instructions a machine of a given profile has: the checks 3, 4 and 5 of R76 on the decoded fields.
Checks 1, 2 and 6 (opcode, zero fields, control register numbers) hold of every term of Instr by its type. -/

namespace Sys2Proof

/-- The register fields an instruction uses (R76 check 3: "Only the fields it uses count"). -/
def Instr.usedRegs : Instr → List Reg
  | .nop | .halt | .syscall | .brk | .eret | .j _ => []
  | .mfc r _ | .mtc _ r | .lui r _ | .jal r _ | .jr r _ => [r]
  | .add a b c | .sub a b c | .and a b c | .or a b c | .xor a b c | .sll a b c | .srl a b c | .sra a b c
  | .slt a b c | .sltu a b c | .mul a b c | .div a b c | .divu a b c | .rem a b c | .remu a b c => [a, b, c]
  | .slli a b _ | .srli a b _ | .srai a b _ => [a, b]
  | .addi a b _ | .andi a b _ | .ori a b _ | .xori a b _ | .slti a b _ | .sltiu a b _
  | .lb a b _ | .lbu a b _ | .lh a b _ | .lhu a b _ | .lw a b _ | .lwu a b _ | .ld a b _
  | .sb a b _ | .sh a b _ | .sw a b _ | .sd a b _
  | .beq a b _ | .bne a b _ | .blt a b _ | .bge a b _ | .bltu a b _ | .bgeu a b _ | .jalr a b _ => [a, b]

/-- LWU, LD and SD exist only at XLEN = 64 (R77, R76 check 4). -/
def Instr.needs64 : Instr → Bool
  | .lwu _ _ _ | .ld _ _ _ | .sd _ _ _ => true
  | _ => false

/-- The immediate shift amount, for the three instructions that have one (R73, R76 check 5). -/
def Instr.shamt? : Instr → Option (BitVec 6)
  | .slli _ _ n | .srli _ _ n | .srai _ _ n => some n
  | _ => none

/-- Every register field the instruction uses is below NREGS (R76 check 3). -/
def Instr.regsOk (p : Profile) (i : Instr) : Bool := i.usedRegs.all fun r => decide (r.toNat < p.nregs)

/-- The XLEN gate (R77). -/
def Instr.xlenOk (p : Profile) (i : Instr) : Bool := !i.needs64 || decide (p.xlen = .x64)

/-- An immediate shift amount is below XLEN (R76 check 5). -/
def Instr.shamtOk (p : Profile) (i : Instr) : Bool := i.shamt?.all fun n => decide (n.toNat < p.xlen.bits)

/-- The instruction exists on a machine of this profile (R76). -/
def Instr.wellFormed (p : Profile) (i : Instr) : Bool := i.regsOk p && i.xlenOk p && i.shamtOk p

end Sys2Proof
end

