-- ==== Sys2Proof/Decode.lean ====
section
/-! DEFINITION. Decoding (R70–R78): total on any word and any bytes, rejecting by name; and after it the encoder, written
from the same tables. -/

namespace Sys2Proof

/-- Why a word is reserved: the first of R76's checks that fails. Every one raises RESERVED_INSTRUCTION (R146). `truncated`
is for a byte string too short to hold a word, which no fetch gives. -/
inductive Reserved where
  | opcode
  | mustBeZero
  | register
  | xlenGate
  | shamt
  | controlReg
  | truncated
deriving DecidableEq, Repr

/-! ### The fields of a word (R71) -/

/-- op = w[31:24]. -/
def opField (w : BitVec 32) : BitVec 8 := w.extractLsb' 24 8

/-- w[23:20]: rd in R, I, J; rs2 in S; rs1 in B. -/
def fieldA (w : BitVec 32) : Reg := w.extractLsb' 20 4

/-- w[19:16]: rs1 in R, I, S; rs2 in B. -/
def fieldB (w : BitVec 32) : Reg := w.extractLsb' 16 4

/-- w[15:12]: rs2 in R. -/
def fieldC (w : BitVec 32) : Reg := w.extractLsb' 12 4

/-- w[11:0], zero in R. -/
def low12 (w : BitVec 32) : BitVec 12 := w.extractLsb' 0 12

/-- w[23:0], zero in N. -/
def low24 (w : BitVec 32) : BitVec 24 := w.extractLsb' 0 24

/-- imm16 = w[15:0]. -/
def imm16Field (w : BitVec 32) : BitVec 16 := w.extractLsb' 0 16

/-- imm20 = w[19:0]. -/
def imm20Field (w : BitVec 32) : BitVec 20 := w.extractLsb' 0 20

/-- shamt = imm16[5:0] (R73). -/
def shamtField (w : BitVec 32) : BitVec 6 := w.extractLsb' 0 6

/-- imm16[15:6], zero in the shift-immediates (R72). -/
def shamtHigh (w : BitVec 32) : BitVec 10 := w.extractLsb' 6 10

/-- A control register number that MFC may name (R25). -/
def controlRegOf (n : BitVec 16) : Option ControlReg :=
  match n with
  | 0#16 => some .status
  | 1#16 => some .cause
  | 2#16 => some .epc
  | 3#16 => some .badaddr
  | 4#16 => some .cycle
  | 5#16 => some .scratch
  | 6#16 => some .evec
  | _    => none

/-- A control register number that MTC may name (R25). -/
def writableRegOf (n : BitVec 16) : Option WritableReg :=
  match n with
  | 0#16 => some .status
  | 2#16 => some .epc
  | 5#16 => some .scratch
  | 6#16 => some .evec
  | _    => none

/-! ### The checks 2 to 6 of R76, one function per format -/

/-- Check 3 for one register field. -/
def regOk (p : Profile) (r : Reg) : Bool := decide (r.toNat < p.nregs)

/-- Format N: w[23:0] = 0. -/
def decodeN (w : BitVec 32) (i : Instr) : Except Reserved Instr :=
  if low24 w = 0#24 then .ok i else .error .mustBeZero

/-- Format R: w[11:0] = 0. -/
def decodeR (p : Profile) (w : BitVec 32) (mk : Reg → Reg → Reg → Instr) : Except Reserved Instr :=
  if low12 w = 0#12 then
    if regOk p (fieldA w) && regOk p (fieldB w) && regOk p (fieldC w) then
      .ok (mk (fieldA w) (fieldB w) (fieldC w))
    else .error .register
  else .error .mustBeZero

/-- Formats I, S and B: two register fields and imm16; `mk` gives them their roles. -/
def decodeI (p : Profile) (w : BitVec 32) (mk : Reg → Reg → BitVec 16 → Instr) : Except Reserved Instr :=
  if regOk p (fieldA w) && regOk p (fieldB w) then .ok (mk (fieldA w) (fieldB w) (imm16Field w))
  else .error .register

/-- Formats I and S behind the XLEN gate (R77): LWU, LD, SD. -/
def decodeI64 (p : Profile) (w : BitVec 32) (mk : Reg → Reg → BitVec 16 → Instr) : Except Reserved Instr :=
  if regOk p (fieldA w) && regOk p (fieldB w) then
    if p.xlen = .x64 then .ok (mk (fieldA w) (fieldB w) (imm16Field w)) else .error .xlenGate
  else .error .register

/-- Shift-immediate: imm16[15:6] = 0 and shamt < XLEN (R72, R76). -/
def decodeShift (p : Profile) (w : BitVec 32) (mk : Reg → Reg → BitVec 6 → Instr) : Except Reserved Instr :=
  if shamtHigh w = 0#10 then
    if regOk p (fieldA w) && regOk p (fieldB w) then
      if (shamtField w).toNat < p.xlen.bits then .ok (mk (fieldA w) (fieldB w) (shamtField w)) else .error .shamt
    else .error .register
  else .error .mustBeZero

/-- Variant I0: rs1 = 0 (LUI). -/
def decodeI0 (p : Profile) (w : BitVec 32) (mk : Reg → BitVec 16 → Instr) : Except Reserved Instr :=
  if fieldB w = 0#4 then
    if regOk p (fieldA w) then .ok (mk (fieldA w) (imm16Field w)) else .error .register
  else .error .mustBeZero

/-- Variant IJ: rd = 0 (JR). -/
def decodeIJ (p : Profile) (w : BitVec 32) (mk : Reg → BitVec 16 → Instr) : Except Reserved Instr :=
  if fieldA w = 0#4 then
    if regOk p (fieldB w) then .ok (mk (fieldB w) (imm16Field w)) else .error .register
  else .error .mustBeZero

/-- Format J (JAL). -/
def decodeJ (p : Profile) (w : BitVec 32) (mk : Reg → BitVec 20 → Instr) : Except Reserved Instr :=
  if regOk p (fieldA w) then .ok (mk (fieldA w) (imm20Field w)) else .error .register

/-- Variant J0: rd = 0 (J). -/
def decodeJ0 (w : BitVec 32) (mk : BitVec 20 → Instr) : Except Reserved Instr :=
  if fieldA w = 0#4 then .ok (mk (imm20Field w)) else .error .mustBeZero

/-- Format CR, MFC: rs1 = 0, cr in 0..6. -/
def decodeMfc (p : Profile) (w : BitVec 32) : Except Reserved Instr :=
  if fieldB w = 0#4 then
    if regOk p (fieldA w) then
      match controlRegOf (imm16Field w) with
      | some cr => .ok (.mfc (fieldA w) cr)
      | none    => .error .controlReg
    else .error .register
  else .error .mustBeZero

/-- Format CR, MTC: rd = 0, cr in 0, 2, 5, 6. -/
def decodeMtc (p : Profile) (w : BitVec 32) : Except Reserved Instr :=
  if fieldA w = 0#4 then
    if regOk p (fieldB w) then
      match writableRegOf (imm16Field w) with
      | some cr => .ok (.mtc cr (fieldB w))
      | none    => .error .controlReg
    else .error .register
  else .error .mustBeZero

/-- The opcode map of R75 on a word `w` whose opcode is `op`; every other opcode is reserved (R76 check 1, R78). -/
def decodeOp (p : Profile) (w : BitVec 32) (op : BitVec 8) : Except Reserved Instr :=
  match op with
  | 0x01#8 => decodeN w .nop
  | 0x02#8 => decodeN w .halt
  | 0x03#8 => decodeN w .syscall
  | 0x04#8 => decodeN w .brk
  | 0x05#8 => decodeN w .eret
  | 0x06#8 => decodeMfc p w
  | 0x07#8 => decodeMtc p w
  | 0x10#8 => decodeR p w .add
  | 0x11#8 => decodeR p w .sub
  | 0x12#8 => decodeR p w .and
  | 0x13#8 => decodeR p w .or
  | 0x14#8 => decodeR p w .xor
  | 0x15#8 => decodeR p w .sll
  | 0x16#8 => decodeR p w .srl
  | 0x17#8 => decodeR p w .sra
  | 0x18#8 => decodeR p w .slt
  | 0x19#8 => decodeR p w .sltu
  | 0x1A#8 => decodeR p w .mul
  | 0x1B#8 => decodeR p w .div
  | 0x1C#8 => decodeR p w .divu
  | 0x1D#8 => decodeR p w .rem
  | 0x1E#8 => decodeR p w .remu
  | 0x20#8 => decodeI p w .addi
  | 0x21#8 => decodeI p w .andi
  | 0x22#8 => decodeI p w .ori
  | 0x23#8 => decodeI p w .xori
  | 0x24#8 => decodeShift p w .slli
  | 0x25#8 => decodeShift p w .srli
  | 0x26#8 => decodeShift p w .srai
  | 0x27#8 => decodeI p w .slti
  | 0x28#8 => decodeI p w .sltiu
  | 0x29#8 => decodeI0 p w .lui
  | 0x30#8 => decodeI p w .lb
  | 0x31#8 => decodeI p w .lbu
  | 0x32#8 => decodeI p w .lh
  | 0x33#8 => decodeI p w .lhu
  | 0x34#8 => decodeI p w .lw
  | 0x35#8 => decodeI64 p w .lwu
  | 0x36#8 => decodeI64 p w .ld
  | 0x38#8 => decodeI p w .sb
  | 0x39#8 => decodeI p w .sh
  | 0x3A#8 => decodeI p w .sw
  | 0x3B#8 => decodeI64 p w .sd
  | 0x40#8 => decodeI p w .beq
  | 0x41#8 => decodeI p w .bne
  | 0x42#8 => decodeI p w .blt
  | 0x43#8 => decodeI p w .bge
  | 0x44#8 => decodeI p w .bltu
  | 0x45#8 => decodeI p w .bgeu
  | 0x48#8 => decodeJ p w .jal
  | 0x49#8 => decodeI p w .jalr
  | 0x4A#8 => decodeJ0 w .j
  | 0x4B#8 => decodeIJ p w .jr
  | _      => .error .opcode

/-- Decode(w) of R76 on a machine of profile `p`. -/
def decode (p : Profile) (w : BitVec 32) : Except Reserved Instr := decodeOp p w (opField w)

/-- The instruction word of four bytes, the first at the lowest address (R45, R56). -/
def wordOfBytes (b0 b1 b2 b3 : Byte) : BitVec 32 := b3 ++ b2 ++ b1 ++ b0

/-- Decode the instruction that starts a byte string, with the rest of the string. -/
def decodeBytes (p : Profile) : List Byte → Except Reserved (Instr × List Byte)
  | b0 :: b1 :: b2 :: b3 :: rest =>
    match decode p (wordOfBytes b0 b1 b2 b3) with
    | .ok i    => .ok (i, rest)
    | .error e => .error e
  | _ => .error .truncated

/-! ### The encoder (R71, R72, R75) -/

/-- Format N. -/
def encodeN (op : BitVec 8) : BitVec 32 := op ++ 0#24

/-- Format R. -/
def encodeR (op : BitVec 8) (rd rs1 rs2 : Reg) : BitVec 32 := op ++ rd ++ rs1 ++ rs2 ++ 0#12

/-- Formats I, S, B and CR, and the variants I0 and IJ: two 4-bit fields and 16 bits. -/
def encodeI (op : BitVec 8) (a b : Reg) (imm : BitVec 16) : BitVec 32 := op ++ a ++ b ++ imm

/-- Shift-immediate. -/
def encodeShift (op : BitVec 8) (rd rs1 : Reg) (shamt : BitVec 6) : BitVec 32 := op ++ rd ++ rs1 ++ 0#10 ++ shamt

/-- Formats J and J0. -/
def encodeJ (op : BitVec 8) (rd : Reg) (imm : BitVec 20) : BitVec 32 := op ++ rd ++ imm

/-- A control register's number (R25). -/
def ControlReg.number : ControlReg → BitVec 16
  | .status  => 0
  | .cause   => 1
  | .epc     => 2
  | .badaddr => 3
  | .cycle   => 4
  | .scratch => 5
  | .evec    => 6

/-- A writable control register's number (R25). -/
def WritableReg.number : WritableReg → BitVec 16
  | .status  => 0
  | .epc     => 2
  | .scratch => 5
  | .evec    => 6

/-- The word of an instruction (R71, R72, R75). -/
def encode : Instr → BitVec 32
  | .nop             => encodeN 0x01
  | .halt            => encodeN 0x02
  | .syscall         => encodeN 0x03
  | .brk             => encodeN 0x04
  | .eret            => encodeN 0x05
  | .mfc rd cr       => encodeI 0x06 rd 0 cr.number
  | .mtc cr rs1      => encodeI 0x07 0 rs1 cr.number
  | .add rd rs1 rs2  => encodeR 0x10 rd rs1 rs2
  | .sub rd rs1 rs2  => encodeR 0x11 rd rs1 rs2
  | .and rd rs1 rs2  => encodeR 0x12 rd rs1 rs2
  | .or rd rs1 rs2   => encodeR 0x13 rd rs1 rs2
  | .xor rd rs1 rs2  => encodeR 0x14 rd rs1 rs2
  | .sll rd rs1 rs2  => encodeR 0x15 rd rs1 rs2
  | .srl rd rs1 rs2  => encodeR 0x16 rd rs1 rs2
  | .sra rd rs1 rs2  => encodeR 0x17 rd rs1 rs2
  | .slt rd rs1 rs2  => encodeR 0x18 rd rs1 rs2
  | .sltu rd rs1 rs2 => encodeR 0x19 rd rs1 rs2
  | .mul rd rs1 rs2  => encodeR 0x1A rd rs1 rs2
  | .div rd rs1 rs2  => encodeR 0x1B rd rs1 rs2
  | .divu rd rs1 rs2 => encodeR 0x1C rd rs1 rs2
  | .rem rd rs1 rs2  => encodeR 0x1D rd rs1 rs2
  | .remu rd rs1 rs2 => encodeR 0x1E rd rs1 rs2
  | .addi rd rs1 imm => encodeI 0x20 rd rs1 imm
  | .andi rd rs1 imm => encodeI 0x21 rd rs1 imm
  | .ori rd rs1 imm  => encodeI 0x22 rd rs1 imm
  | .xori rd rs1 imm => encodeI 0x23 rd rs1 imm
  | .slli rd rs1 n   => encodeShift 0x24 rd rs1 n
  | .srli rd rs1 n   => encodeShift 0x25 rd rs1 n
  | .srai rd rs1 n   => encodeShift 0x26 rd rs1 n
  | .slti rd rs1 imm => encodeI 0x27 rd rs1 imm
  | .sltiu rd rs1 imm => encodeI 0x28 rd rs1 imm
  | .lui rd imm      => encodeI 0x29 rd 0 imm
  | .lb rd rs1 imm   => encodeI 0x30 rd rs1 imm
  | .lbu rd rs1 imm  => encodeI 0x31 rd rs1 imm
  | .lh rd rs1 imm   => encodeI 0x32 rd rs1 imm
  | .lhu rd rs1 imm  => encodeI 0x33 rd rs1 imm
  | .lw rd rs1 imm   => encodeI 0x34 rd rs1 imm
  | .lwu rd rs1 imm  => encodeI 0x35 rd rs1 imm
  | .ld rd rs1 imm   => encodeI 0x36 rd rs1 imm
  | .sb rs2 rs1 imm  => encodeI 0x38 rs2 rs1 imm
  | .sh rs2 rs1 imm  => encodeI 0x39 rs2 rs1 imm
  | .sw rs2 rs1 imm  => encodeI 0x3A rs2 rs1 imm
  | .sd rs2 rs1 imm  => encodeI 0x3B rs2 rs1 imm
  | .beq rs1 rs2 imm => encodeI 0x40 rs1 rs2 imm
  | .bne rs1 rs2 imm => encodeI 0x41 rs1 rs2 imm
  | .blt rs1 rs2 imm => encodeI 0x42 rs1 rs2 imm
  | .bge rs1 rs2 imm => encodeI 0x43 rs1 rs2 imm
  | .bltu rs1 rs2 imm => encodeI 0x44 rs1 rs2 imm
  | .bgeu rs1 rs2 imm => encodeI 0x45 rs1 rs2 imm
  | .jal rd imm      => encodeJ 0x48 rd imm
  | .jalr rd rs1 imm => encodeI 0x49 rd rs1 imm
  | .j imm           => encodeJ 0x4A 0 imm
  | .jr rs1 imm      => encodeI 0x4B 0 rs1 imm

/-- The four bytes of a word as they lie in memory, the first at the lowest address (R45). -/
def wordBytes (w : BitVec 32) : List Byte :=
  [w.extractLsb' 0 8, w.extractLsb' 8 8, w.extractLsb' 16 8, w.extractLsb' 24 8]

/-- The bytes of an instruction as they lie in memory. -/
def encodeBytes (i : Instr) : List Byte := wordBytes (encode i)

/-- The word that `nbits` bits `w` of the opcode table stand for; bits above nbits are 0. -/
def tableWord (nbits w : Nat) : BitVec 32 := BitVec.ofNat 32 (w % 2 ^ nbits)

/-- The instruction REF-1's decoder reads from an opcode-table word laid out in memory. -/
def decodeTableWord (nbits w : Nat) : Option Instr :=
  match decodeBytes Profile.ref1 (wordBytes (tableWord nbits w)) with
  | .ok (i, _) => some i
  | .error _   => none

end Sys2Proof
end

