-- ==== Sys2Proof/Machine/State.lean ====
section
/-! DEFINITION. The machine's state as plain data: all that 10_state.md, 20_memory.md and 60_exceptions.md give the machine
(R16, R40), with the state after reset. -/

namespace Sys2Proof.Machine

/-- The cause codes 0 to 9 of R146. Codes 10 to 31 are never written (R146, U3), so they have no constructor. -/
inductive Cause where
  | interrupt
  | fetchMisaligned
  | fetchBus
  | reservedInstruction
  | loadMisaligned
  | loadBus
  | storeMisaligned
  | storeBus
  | syscall
  | brk
deriving DecidableEq, Repr

/-- STATUS (R26). The reserved bits 7:3 and XLEN-1:16 read 0 and ignore writes, so only the four fields are kept. -/
structure Status where
  ie  : Bool
  exl : Bool
  pie : Bool
  im  : BitVec 8
deriving DecidableEq, Repr

/-- Why the CPU is halted (R21): the HALT instruction, or a trap that could not be delivered (R150). -/
inductive HaltReason where
  | haltInstr
  | fatal (code : Cause) (epc : Addr) (info : Word)
deriving DecidableEq, Repr

/-- The run state (R21). -/
inductive RunState where
  | running
  | halted (reason : HaltReason)
deriving DecidableEq, Repr

/-- The scheduler phase (R36). -/
inductive Phase where
  | boundary
  | inBurst
deriving DecidableEq, Repr

/-- The reference Timer's state (R156): CTRL is EN (bit 0), CMP_IE (bit 1), VBL_IE (bit 2); STAT is CMP (bit 0),
VBL (bit 1). -/
structure Timer where
  count   : Counter
  compare : BitVec 32
  ctrl    : BitVec 3
  stat    : BitVec 2
  frames  : Counter
deriving DecidableEq, Repr

/-- The state of one device (R58): the Timer's, or an opaque device's as the bytes it serializes to, with the number
of its handler (R61, log 6). -/
inductive DevState where
  | timer (t : Timer)
  | foreign (handler : Nat) (bytes : List Byte)
deriving DecidableEq, Repr

/-- Memory: the bytes of all RAM and ROM ranges by address, in one canonical form (Machine/Memory.lean). -/
abbrev Memory := List Host.Cell

/-- What a patch overrides (R183): a register by index, 64 standing for pc, or a byte of memory by address. -/
inductive PatchTarget where
  | register (index : Nat)
  | memory (address : Nat)
deriving DecidableEq, Repr

/-- A PatchRequest (R183). -/
structure PatchRequest where
  target       : PatchTarget
  value        : Nat
  applyAtCycle : Counter
deriving DecidableEq, Repr

/-- A snapshot: the deep copy of R176, with the two header fields of R177. `image` holds, for each RAM or ROM range in
ascending start order, its start and all its bytes. -/
structure Snapshot where
  version   : BitVec 32
  profileId : BitVec 32
  cycles    : Counter
  frame     : Counter
  regs      : List Word
  pc        : Addr
  status    : Status
  causeCode : Cause
  epc       : Addr
  badaddr   : Word
  scratch   : Word
  evec      : Addr
  run       : RunState
  devs      : List DevState
  image     : List (Nat × List Byte)
deriving DecidableEq, Repr

/-- What RunFrame returned and handed to the host (R162): whether it returned Stopped (else FrameDone), the run status,
the requests rejected with PatchError.InvalidTarget in order, and the snapshot that capture_req asked for. -/
structure FrameReport where
  stopped  : Bool
  status   : RunState
  rejected : List PatchRequest
  captured : Option Snapshot
deriving DecidableEq, Repr

/-- The machine (R16): CPU state, memory, device states, scheduler state. `profile` is the configuration the machine
was constructed from, which nothing changes. `regs` has a place for each of the 16 register numbers a word can hold;
the profile's NREGS of them exist. `cStart` is RunFrame's local variable c_start (R162) and `report` the last frame's
report: these two are the model's own (log 1, log 4). -/
structure State where
  profile    : Profile
  regs       : Vector Word 16
  pc         : Addr
  run        : RunState
  status     : Status
  causeCode  : Cause
  epc        : Addr
  badaddr    : Word
  scratch    : Word
  evec       : Addr
  mem        : Memory
  devs       : List DevState
  cycles     : Counter
  frame      : Counter
  phase      : Phase
  queue      : List PatchRequest
  stopReq    : Bool
  captureReq : Bool
  cStart     : Counter
  report     : Option FrameReport
deriving DecidableEq, Repr

/-- Why a step stops with a fault: never. The spec gives every case an effect (93: "Every read of every state has one
defined result"; a trap that cannot be delivered is the state Halted(Fatal), R150), so no constructor is needed. Safe. -/
inductive Fault where
deriving DecidableEq, Repr

/-- Why the machine has no move. -/
inductive Refusal where
  /-- An instruction without a meaning: raised by no arm of exec in this model. Safe. -/
  | notModelled (mnemonic : String)
  /-- Raised by the start of a frame whose end target (frame + 1)·CPF is 2^64 or more: "refused as a run the model gives
  no meaning to" (R155, U6). Safe. -/
  | counterOverflow
  /-- Raised by RunFrame, RunUntilStop and the output views called while phase is not Boundary (R162, R172, U18). Safe. -/
  | outOfPhase
deriving DecidableEq, Repr

/-- The Timer at reset: all fields 0 (R156). -/
def Timer.reset : Timer := ⟨0, 0, 0, 0, 0⟩

/-- The machine right after reset (R40, R170): REF-1 with a 4 KiB ROM of zero bytes (log 2, log 3). -/
def State.reset : State where
  profile    := Profile.ref1
  regs       := Vector.replicate 16 0
  pc         := 0x10000000
  run        := .running
  status     := ⟨false, false, false, 0⟩
  causeCode  := .interrupt
  epc        := 0
  badaddr    := 0
  scratch    := 0
  evec       := 0x10000100
  mem        := []
  devs       := [.timer Timer.reset]
  cycles     := 0
  frame      := 0
  phase      := .boundary
  queue      := []
  stopReq    := false
  captureReq := false
  cStart     := 0
  report     := none

end Sys2Proof.Machine
end

