-- ==== Sys2Proof/Machine/Memory.lean ====
section
/-! DEFINITION. Bytes in little-endian order (R45) and memory as a list of cells in one canonical form. -/

namespace Sys2Proof.Machine

/-! ### Little-endian bytes -/

/-- The low 8n bits of a number as n bytes, the least significant first (R45). -/
def leBytes : Nat → Nat → List Byte
  | 0, _     => []
  | n + 1, v => BitVec.ofNat 8 v :: leBytes n (v / 256)

/-- The number that bytes stand for, the first being the least significant (R45). -/
def leNat : List Byte → Nat
  | []      => 0
  | b :: bs => b.toNat + 256 * leNat bs

/-! ### Memory -/

/-- What an address that memory does not list reads as: RAM bytes are 0 at reset (R54), and a ROM image is listed byte
by byte but for its zero bytes (R55). -/
def Memory.unlisted : Byte := 0

/-- The canonical form: addresses strictly rising, no cell equal to what an unlisted address reads as. -/
abbrev Memory.wf (m : Memory) : Prop :=
  m.Pairwise (fun c d => c.1 < d.1) ∧ ∀ c ∈ m, c.2 ≠ Memory.unlisted

/-- The byte at an address. -/
def Memory.read : Memory → Nat → Byte
  | [], _          => Memory.unlisted
  | (k, b) :: m, a => if a = k then b else Memory.read m a

/-- Put a byte at an address, keeping the canonical form. -/
def Memory.write : Memory → Nat → Byte → Memory
  | [], a, v => if v = Memory.unlisted then [] else [(a, v)]
  | (k, b) :: m, a, v =>
    if a < k then (if v = Memory.unlisted then (k, b) :: m else (a, v) :: (k, b) :: m)
    else if a = k then (if v = Memory.unlisted then m else (a, v) :: m)
    else (k, b) :: Memory.write m a v

/-- n bytes from an address upward. -/
def Memory.readBytes (m : Memory) (a : Nat) : Nat → List Byte
  | 0     => []
  | n + 1 => m.read a :: Memory.readBytes m (a + 1) n

/-- Put bytes from an address upward. -/
def Memory.writeBytes (m : Memory) (a : Nat) : List Byte → Memory
  | []      => m
  | b :: bs => Memory.writeBytes (m.write a b) (a + 1) bs

/-- An n-byte little-endian read as a number (R45, R52). -/
def Memory.readLE (m : Memory) (a n : Nat) : Nat := leNat (m.readBytes a n)

/-- An n-byte little-endian write of the low 8n bits of a number (R45, R53). -/
def Memory.writeLE (m : Memory) (a n v : Nat) : Memory := m.writeBytes a (leBytes n v)

end Sys2Proof.Machine
end

