-- ==== Sys2Proof/Machine/Operands.lean ====
section
/-! DEFINITION. The value primitives of R10 and R14, the immediates of R73 and the addressing modes of R74, for every
XLEN and ADDR_BITS. Every result is computed as an exact integer and narrowed at the end, as R10 and R83 say. -/

namespace Sys2Proof.Machine

/-! ### XLEN-bit values -/

/-- trunc_XLEN(i) = i mod 2^XLEN (R10). -/
def truncX (p : Profile) (i : Int) : Word :=
  match p.xlen with
  | .x64 => BitVec.ofInt 64 i
  | .x32 => (BitVec.ofInt 32 i).setWidth 64

/-- The XLEN-bit value held in a word of storage: its low XLEN bits. -/
def fitX (p : Profile) (v : Word) : Word :=
  match p.xlen with
  | .x64 => v
  | .x32 => (v.setWidth 32).setWidth 64

/-- unsigned(v) (R10). -/
def unsignedX (p : Profile) (v : Word) : Nat := (fitX p v).toNat

/-- signed(v), two's complement of an XLEN-bit v (R10). -/
def signedX (p : Profile) (v : Word) : Int :=
  match p.xlen with
  | .x64 => v.toInt
  | .x32 => (v.setWidth 32).toInt

/-- sext_XLEN of a value of n bits (R10). -/
def sextX {n : Nat} (p : Profile) (v : BitVec n) : Word := truncX p v.toInt

/-- zext_XLEN of a value of n bits (R10). -/
def zextX {n : Nat} (p : Profile) (v : BitVec n) : Word := fitX p (v.setWidth 64)

/-- MASK_X = 2^XLEN - 1 (R7). -/
def maskX (p : Profile) : Word := truncX p (-1)

/-- MIN as an integer, -2^(XLEN-1) (R83). -/
def minX (p : Profile) : Int := -(2 ^ (p.xlen.bits - 1))

/-- quot_t(a, b), rounded toward zero (R14). -/
def quotT (a b : Int) : Int := a.tdiv b

/-- rem_t(a, b) = a - b·quot_t(a, b) (R14). -/
def remT (a b : Int) : Int := a - b * quotT a b

/-! ### Addresses -/

/-- trunc_ADDR_BITS (R10, R20, D27). -/
def truncAddr (p : Profile) (n : Nat) : Addr := BitVec.ofNat 64 (n % 2 ^ p.addrBits)

/-- pc + 4, wrapped (R20). -/
def nextPc (p : Profile) (pc : Addr) : Addr := truncAddr p (pc.toNat + 4)

/-! ### Immediates (R73) -/

/-- simm = sext_XLEN(imm16). -/
def simm (p : Profile) (imm : BitVec 16) : Word := sextX p imm

/-- uimm = zext_XLEN(imm16). -/
def uimm (p : Profile) (imm : BitVec 16) : Word := zextX p imm

/-- upper = sext_XLEN(imm16 ++ 0^16). -/
def upper (p : Profile) (imm : BitVec 16) : Word := sextX p (imm ++ 0#16)

/-- boff = sext_ADDR_BITS(imm16 ++ 00). -/
def boff (p : Profile) (imm : BitVec 16) : Addr := truncAddr p ((imm ++ 0#2).signExtend 64).toNat

/-- joff = sext_ADDR_BITS(imm20 ++ 00). -/
def joff (p : Profile) (imm : BitVec 20) : Addr := truncAddr p ((imm ++ 0#2).signExtend 64).toNat

/-- The shift amount of a register operand: its low SH = log2(XLEN) bits (R7, R89). -/
def shiftAmount (p : Profile) (v : Word) : Nat := v.toNat % p.xlen.bits

/-! ### Addressing modes (R74) -/

/-- Base plus displacement: EA = trunc_ADDR_BITS(unsigned(x[rs1]) + unsigned(simm)) (R109). -/
def effAddr (p : Profile) (base : Word) (imm : BitVec 16) : Addr :=
  truncAddr p (unsignedX p base + unsignedX p (simm p imm))

/-- pc-relative: target = trunc_ADDR_BITS(pc + offset). -/
def pcRelative (p : Profile) (pc off : Addr) : Addr := truncAddr p (pc.toNat + off.toNat)

/-! ### Access widths (R46) -/

/-- The four widths of a bus access. -/
inductive Width where
  | b1
  | b2
  | b4
  | b8
deriving DecidableEq, Repr

/-- A width in bytes. -/
def widthBytes : Width → Nat
  | .b1 => 1
  | .b2 => 2
  | .b4 => 4
  | .b8 => 8

/-- The low 8n bits of a word. -/
def lowBytes (w : Width) (v : Word) : Word := BitVec.ofNat 64 (v.toNat % 256 ^ widthBytes w)

/-- sext_XLEN of an 8n-bit loaded value (R112, R114, R116). -/
def sextLoaded (p : Profile) (w : Width) (v : Word) : Word :=
  match w with
  | .b1 => sextX p (v.setWidth 8)
  | .b2 => sextX p (v.setWidth 16)
  | .b4 => sextX p (v.setWidth 32)
  | .b8 => fitX p v

/-- zext_XLEN of an 8n-bit loaded value (R113, R115, R117, R118). -/
def zextLoaded (p : Profile) (w : Width) (v : Word) : Word := fitX p (lowBytes w v)

end Sys2Proof.Machine
end

