-- ==== Sys2Proof/Machine/Device.lean ====
section
/-! DEFINITION. The device interface of R58, the reference Timer (R156–R160), the opaque devices (R61) and the
interrupt lines (R34). -/

namespace Sys2Proof.Machine

/-! ### The Timer -/

/-- The Timer's read by register (R157): 4 bytes wide at a multiple of 4 inside the map, else Err (log 7). -/
def Timer.read (t : Timer) (off : Nat) (w : Width) : Option (BitVec 32) :=
  if w = .b4 then
    match off with
    | 0x00 => some (t.count.extractLsb' 0 32)
    | 0x04 => some (t.count.extractLsb' 32 32)
    | 0x08 => some t.compare
    | 0x0C => some (t.ctrl.setWidth 32)
    | 0x10 => some (t.stat.setWidth 32)
    | 0x14 => some (t.frames.extractLsb' 0 32)
    | 0x18 => some (t.frames.extractLsb' 32 32)
    | 0x1C => some 0
    | _    => none
  else none

/-- The Timer's write by register (R157): STAT is write-1-to-clear; COUNT, FRAMES and 0x1C ignore writes. -/
def Timer.write (t : Timer) (off : Nat) (w : Width) (v : BitVec 32) : Option Timer :=
  if w = .b4 then
    match off with
    | 0x08 => some { t with compare := v }
    | 0x0C => some { t with ctrl := v.setWidth 3 }
    | 0x10 => some { t with stat := t.stat &&& ~~~ v.setWidth 2 }
    | 0x00 | 0x04 | 0x14 | 0x18 | 0x1C => some t
    | _    => none
  else none

/-- CTRL.EN. -/
def Timer.en (t : Timer) : Bool := t.ctrl.getLsbD 0

/-- CTRL.CMP_IE. -/
def Timer.cmpIe (t : Timer) : Bool := t.ctrl.getLsbD 1

/-- CTRL.VBL_IE. -/
def Timer.vblIe (t : Timer) : Bool := t.ctrl.getLsbD 2

/-- STAT.CMP. -/
def Timer.cmp (t : Timer) : Bool := t.stat.getLsbD 0

/-- STAT.VBL. -/
def Timer.vbl (t : Timer) : Bool := t.stat.getLsbD 1

/-- The compare condition of a tick of n cycles (R158). -/
def Timer.compareHit (t : Timer) (n : Nat) : Bool :=
  t.en && decide (n > 0) &&
    (decide (n ≥ 2 ^ 32) || decide ((t.compare - t.count.setWidth 32 - 1).toNat < n))

/-- tick(n) (R158). -/
def Timer.tick (t : Timer) (n : Counter) : Timer where
  count   := t.count + n
  compare := t.compare
  ctrl    := t.ctrl
  stat    := t.stat ||| (if t.compareHit n.toNat then 3 else 2)
  frames  := t.frames + 1

/-- The Timer's interrupt level (R159). -/
def Timer.irq (t : Timer) : Bool := (t.cmp && t.cmpIe) || (t.vbl && t.vblIe)

/-- The Timer's 28 bytes (R160). -/
def Timer.serialize (t : Timer) : List Byte :=
  leBytes 8 t.count.toNat ++ leBytes 4 t.compare.toNat ++ leBytes 4 t.ctrl.toNat ++ leBytes 4 t.stat.toNat
    ++ leBytes 8 t.frames.toNat

/-- The number in n bytes of a string from an offset. -/
def leNatAt (bs : List Byte) (off n : Nat) : Nat := leNat ((bs.drop off).take n)

/-- The Timer state of 28 bytes, Err unless the length is 28, CTRL < 8 and STAT < 4 (R160). -/
def Timer.deserialize (bs : List Byte) : Option Timer :=
  if bs.length = 28 ∧ leNatAt bs 12 4 < 8 ∧ leNatAt bs 16 4 < 4 then
    some { count   := BitVec.ofNat 64 (leNatAt bs 0 8)
           compare := BitVec.ofNat 32 (leNatAt bs 8 4)
           ctrl    := BitVec.ofNat 3 (leNatAt bs 12 4)
           stat    := BitVec.ofNat 2 (leNatAt bs 16 4)
           frames  := BitVec.ofNat 64 (leNatAt bs 20 8) }
  else none

/-! ### The uniform interface (R58) -/

/-- A device read at an offset: the n-byte value and the new state, or Err. -/
def DevState.read (d : DevState) (off : Nat) (w : Width) : Option (Word × DevState) :=
  match d with
  | .timer t     => (t.read off w).map fun v => (v.setWidth 64, .timer t)
  | .foreign h b => ((Config.handler h).read b off (widthBytes w)).map fun r => (lowBytes w r.1, .foreign h r.2)

/-- A device write at an offset: the new state, or Err. -/
def DevState.write (d : DevState) (off : Nat) (w : Width) (v : Word) : Option DevState :=
  match d with
  | .timer t     => (t.write off w (v.setWidth 32)).map .timer
  | .foreign h b => ((Config.handler h).write b off (widthBytes w) (lowBytes w v)).map (.foreign h)

/-- A device's tick with the cycles elapsed. -/
def DevState.tick (d : DevState) (n : Counter) : DevState :=
  match d with
  | .timer t     => .timer (t.tick n)
  | .foreign h b => .foreign h ((Config.handler h).tick b n)

/-- The level of a device's interrupt output. -/
def DevState.irq : DevState → Bool
  | .timer t     => t.irq
  | .foreign h b => (Config.handler h).irq b

/-- A device's bytes in a snapshot. -/
def DevState.serialize : DevState → List Byte
  | .timer t     => t.serialize
  | .foreign _ b => b

/-- The state of a declared device that bytes stand for, or Err. -/
def DevState.deserialize (d : DeviceDecl) (bs : List Byte) : Option DevState :=
  match d.kind with
  | .timer => (Timer.deserialize bs).map .timer
  | .video | .audio | .controller | .generic =>
    ((Config.handler d.handler).deserialize bs).map (.foreign d.handler)

/-- A declared device's reset state (R156, R61). -/
def DevState.reset (d : DeviceDecl) : DevState :=
  match d.kind with
  | .timer => .timer Timer.reset
  | .video | .audio | .controller | .generic => .foreign d.handler (Config.handler d.handler).reset

/-- The state is one that the declared device can be in: the kind fits, and an opaque state is legal (R58). -/
def DevState.fits (d : DeviceDecl) (st : DevState) : Bool :=
  match d.kind, st with
  | .timer, .timer _ => true
  | .timer, .foreign _ _ => false
  | _, .timer _ => false
  | _, .foreign h b => decide (h = d.handler) && (Config.handler h).legal b

/-! ### Interrupt lines (R34, R148) -/

/-- The lines: bit k is the OR of the levels of the devices wired to k. -/
def lineLevels : List DeviceDecl → List DevState → BitVec 8
  | d :: ds, s :: ss => (if s.irq then 1#8 <<< d.irqLine else 0#8) ||| lineLevels ds ss
  | _, _ => 0#8

/-- CAUSE.IP: the live levels, a function of the device states (R27). -/
def State.ip (s : State) : BitVec 8 := lineLevels s.profile.devices s.devs

end Sys2Proof.Machine
end

