-- ==== Sys2Proof/Machine/Bus.lean ====
section
/-! DEFINITION. The memory bus dispatcher: range lookup, the checks in their order, and the primitives MemRead, MemWrite
and FetchRead (R44, R48–R53, R56). -/

namespace Sys2Proof.Machine

/-- The kinds of BusError (R50). -/
inductive BusError where
  | misaligned
  | unmapped
  | readOnly
  | device
deriving DecidableEq, Repr

/-- A range holds an address. -/
def rangeHas (r : Range) (a : Nat) : Bool := decide (r.start ≤ a) && decide (a < r.start + r.length)

/-- The range that holds an address (R52). -/
def findRange (p : Profile) (a : Nat) : Option Range := p.ranges.find? fun r => rangeHas r a

/-- The checks that come before dispatch, in R51's order: Misaligned (under Strict), then Unmapped (R44); else the range
of the access. -/
def busCheck (p : Profile) (a : Addr) (w : Width) : Except BusError Range :=
  if p.align = .strict ∧ a.toNat % widthBytes w ≠ 0 then .error .misaligned
  else
    match findRange p a.toNat with
    | none   => .error .unmapped
    | some r => if r.start + r.length < a.toNat + widthBytes w then .error .unmapped else .ok r

/-- MemRead(a, n) (R52): the value and the machine, which a device read may have changed. -/
def State.memRead (s : State) (a : Addr) (w : Width) : Except BusError (Word × State) :=
  match busCheck s.profile a w with
  | .error e => .error e
  | .ok r =>
    match r.kind with
    | .ram | .rom => .ok (BitVec.ofNat 64 (s.mem.readLE a.toNat (widthBytes w)), s)
    | .device d =>
      match s.devs[d]?.bind fun st => st.read (a.toNat - r.start) w with
      | some (v, st) => .ok (v, { s with devs := s.devs.set d st })
      | none         => .error .device

/-- MemWrite(a, n, v) (R53): the machine after the low 8n bits of v are written. -/
def State.memWrite (s : State) (a : Addr) (w : Width) (v : Word) : Except BusError State :=
  match busCheck s.profile a w with
  | .error e => .error e
  | .ok r =>
    match r.kind with
    | .rom => .error .readOnly
    | .ram => .ok { s with mem := s.mem.writeLE a.toNat (widthBytes w) v.toNat }
    | .device d =>
      match s.devs[d]?.bind fun st => st.write (a.toNat - r.start) w v with
      | some st => .ok { s with devs := s.devs.set d st }
      | none    => .error .device

/-- FetchRead(pc) (R56, R49): the instruction word, or the cause its failure raises (R146). A device is never called. -/
def State.fetch (s : State) : Except Cause (BitVec 32) :=
  if s.pc.toNat % 4 ≠ 0 then .error .fetchMisaligned
  else
    match findRange s.profile s.pc.toNat with
    | none => .error .fetchBus
    | some r =>
      if r.start + r.length < s.pc.toNat + 4 then .error .fetchBus
      else
        match r.kind with
        | .ram | .rom => .ok (BitVec.ofNat 32 (s.mem.readLE s.pc.toNat 4))
        | .device _   => .error .fetchBus

end Sys2Proof.Machine
end

