-- ==== Sys2Proof/Machine/Flags.lean ====
section
/-! DEFINITION. The status flags. REF-ISA has no condition codes (R24): a comparison writes 0 or 1 to a register, and
the flags are the fields of STATUS (R26), with CAUSE beside them (R27). -/

namespace Sys2Proof.Machine

/-- The 0 or 1 that a comparison writes (R24). -/
def boolWord (b : Bool) : Word := if b then 1 else 0

/-- signed(a) < signed(b) (R92). -/
def ltSigned (p : Profile) (a b : Word) : Bool := decide (signedX p a < signedX p b)

/-- unsigned(a) < unsigned(b) (R93). -/
def ltUnsigned (p : Profile) (a b : Word) : Bool := decide (unsignedX p a < unsignedX p b)

/-- Equality of XLEN-bit values (R126). -/
def eqX (p : Profile) (a b : Word) : Bool := decide (fitX p a = fitX p b)

/-- STATUS as MFC reads it: zext_XLEN(IM ++ 00000 ++ PIE ++ EXL ++ IE) (R142). -/
def statusWord (st : Status) : Word :=
  0#48 ++ st.im ++ 0#5 ++ BitVec.ofBool st.pie ++ BitVec.ofBool st.exl ++ BitVec.ofBool st.ie

/-- The fields MTC STATUS takes from bits 0, 1, 2 and 15:8; other bits are ignored (R26, R143). -/
def statusOfWord (v : Word) : Status where
  ie  := v.getLsbD 0
  exl := v.getLsbD 1
  pie := v.getLsbD 2
  im  := v.extractLsb' 8 8

/-- STATUS after trap entry: PIE := IE, IE := 0, EXL := 1 (R150). -/
def statusOnTrap (st : Status) : Status := { st with pie := st.ie, ie := false, exl := true }

/-- STATUS after ERET: IE := PIE, EXL := 0; PIE and IM stay (R141, R152). -/
def statusOnReturn (st : Status) : Status := { st with ie := st.pie, exl := false }

/-- A cause's code (R146). -/
def causeNumber : Cause → BitVec 5
  | .interrupt           => 0
  | .fetchMisaligned     => 1
  | .fetchBus            => 2
  | .reservedInstruction => 3
  | .loadMisaligned      => 4
  | .loadBus             => 5
  | .storeMisaligned     => 6
  | .storeBus            => 7
  | .syscall             => 8
  | .brk                 => 9

/-- The cause of a code; codes above 9 are reserved (R146). -/
def causeOfNumber (n : Nat) : Option Cause :=
  match n with
  | 0 => some .interrupt
  | 1 => some .fetchMisaligned
  | 2 => some .fetchBus
  | 3 => some .reservedInstruction
  | 4 => some .loadMisaligned
  | 5 => some .loadBus
  | 6 => some .storeMisaligned
  | 7 => some .storeBus
  | 8 => some .syscall
  | 9 => some .brk
  | _ => none

/-- CAUSE as MFC reads it: zext_XLEN(IP ++ 000 ++ CODE) (R27, R142). -/
def causeWord (ip : BitVec 8) (c : Cause) : Word := 0#48 ++ ip ++ 0#3 ++ causeNumber c

/-- The condition of the interrupt check (R149). -/
def interruptEnabled (hasVector : Bool) (st : Status) (ip : BitVec 8) : Bool :=
  hasVector && st.ie && !st.exl && decide (ip &&& st.im ≠ 0)

end Sys2Proof.Machine
end

