-- ==== Sys2Proof/Machine/Ops.lean ====
section
/-! DEFINITION. The named operations of an instruction over the machine: registers, pc, control registers, taking an
exception and returning from one, the interrupt check, and the shapes that instructions share. -/

namespace Sys2Proof.Machine

/-! ### Registers and pc (R11, R17, R20) -/

/-- x[i]: the XLEN-bit value of a register (R11). -/
def State.readReg (s : State) (r : Reg) : Word := fitX s.profile (s.regs[r.toNat]'r.isLt)

/-- x[i] <- v: no register is hardwired (R17). -/
def State.writeReg (s : State) (r : Reg) (v : Word) : State :=
  { s with regs := s.regs.set r.toNat (fitX s.profile v) r.isLt }

/-- pc <- t. -/
def State.jumpTo (s : State) (t : Addr) : State := { s with pc := t }

/-- pc <- trunc_ADDR_BITS(pc + 4) (R13, R20). -/
def State.advance (s : State) : State := s.jumpTo (nextPc s.profile s.pc)

/-! ### Taking an exception and returning from one -/

/-- halt(reason) (R13). -/
def State.halt (s : State) (r : HaltReason) : State := { s with run := .halted r }

/-- TakeTrap does not deliver: there is no vector, or a synchronous exception comes at EXL = 1 (R150). -/
def State.trapIsFatal (s : State) (c : Cause) : Bool :=
  !s.profile.hasVector || (decide (c ≠ .interrupt) && s.status.exl)

/-- TakeTrap(code, epc, info), for synchronous exceptions and interrupts alike (R150). -/
def State.takeTrap (s : State) (c : Cause) (epc : Addr) (info : Word) : State :=
  if s.trapIsFatal c then s.halt (.fatal c epc info)
  else
    { s with epc := epc, causeCode := c, badaddr := info, status := statusOnTrap s.status, pc := s.evec }

/-- raise E(info): the instruction's own exception, with EPC = the instruction's address (R13, R146). -/
def State.raise (s : State) (c : Cause) (info : Word) : State := s.takeTrap c s.pc info

/-- ERET: pc <- EPC, IE <- PIE, EXL <- 0 (R141, R152). -/
def State.returnFromTrap (s : State) : State := { s with pc := s.epc, status := statusOnReturn s.status }

/-- The interrupt check that ends a step in which the CPU is still Running (R149). -/
def State.interruptCheck (s : State) : State :=
  if interruptEnabled s.profile.hasVector s.status s.ip then s.takeTrap .interrupt s.pc 0 else s

/-- cycles <- cycles + cost, 64-bit (R145, R155). -/
def State.addCycles (s : State) (cost : Nat) : State := { s with cycles := s.cycles + BitVec.ofNat 64 cost }

/-- The end of a CPU step: the cost, then the interrupt check if the CPU is Running (R145, D51). -/
def State.retire (s : State) (cost : Nat) : State :=
  match s.run with
  | .running  => (s.addCycles cost).interruptCheck
  | .halted _ => s.addCycles cost

/-! ### Control registers (R25–R32) -/

/-- CRread(cr) (R142). CYCLE is the counter before this step's cost is added (R30). -/
def State.readControl (s : State) : ControlReg → Word
  | .status  => statusWord s.status
  | .cause   => causeWord s.ip s.causeCode
  | .epc     => s.epc
  | .badaddr => s.badaddr
  | .cycle   => fitX s.profile s.cycles
  | .scratch => s.scratch
  | .evec    => s.evec

/-- The effect of MTC (R143): STATUS takes its four fields, EPC is truncated to ADDR_BITS, EVEC also loses bits 1:0. -/
def State.writeControl (s : State) (cr : WritableReg) (v : Word) : State :=
  match cr with
  | .status  => { s with status := statusOfWord v }
  | .epc     => { s with epc := truncAddr s.profile v.toNat }
  | .scratch => { s with scratch := fitX s.profile v }
  | .evec    => { s with evec := truncAddr s.profile v.toNat &&& ~~~ 3#64 }

/-! ### Shapes that instructions share -/

/-- The next state of an instruction that runs. -/
abbrev Result := Host.Outcome State Fault Refusal

/-- Write rd and advance (R82). -/
def writeBack (rd : Reg) (v : Word) (s : State) : Result := .next (s.writeReg rd v).advance

/-- The cause a failed load raises (R110). -/
def loadCause : BusError → Cause
  | .misaligned => .loadMisaligned
  | .unmapped | .readOnly | .device => .loadBus

/-- The cause a failed store raises (R110). -/
def storeCause : BusError → Cause
  | .misaligned => .storeMisaligned
  | .unmapped | .readOnly | .device => .storeBus

/-- A load: MemRead at EA, then x[rd] <- the extended value and pc + 4; a failure raises with info EA and writes nothing
(R109–R111). -/
def load (w : Width) (extend : Word → Word) (rd rs1 : Reg) (imm : BitVec 16) (s : State) : Result :=
  let ea := effAddr s.profile (s.readReg rs1) imm
  match s.memRead ea w with
  | .error e     => .next (s.raise (loadCause e) ea)
  | .ok (v, s')  => writeBack rd (extend v) s'

/-- A store: MemWrite at EA of the low bytes of x[rs2], then pc + 4; a failure raises with info EA and writes nothing
(R109–R111). -/
def store (w : Width) (rs2 rs1 : Reg) (imm : BitVec 16) (s : State) : Result :=
  let ea := effAddr s.profile (s.readReg rs1) imm
  match s.memWrite ea w (s.readReg rs2) with
  | .error e => .next (s.raise (storeCause e) ea)
  | .ok s'   => .next s'.advance

/-- A conditional branch to pc + boff, else pc + 4 (R126). -/
def branch (taken : Bool) (imm : BitVec 16) (s : State) : Result :=
  .next (if taken then s.jumpTo (pcRelative s.profile s.pc (boff s.profile imm)) else s.advance)

/-- Write the link value pc + 4 to rd and jump (R123, R132). -/
def link (rd : Reg) (t : Addr) (s : State) : Result := .next ((s.writeReg rd (nextPc s.profile s.pc)).jumpTo t)

end Sys2Proof.Machine
end

