-- ==== Sys2Proof/Machine/Alu.lean ====
section
/-! DEFINITION. The register-register instructions (R84–R98): each reads x[rs1] and x[rs2], writes x[rd] and advances,
raising nothing (R82). -/

namespace Sys2Proof.Machine

/-! ### Shifts and division -/

/-- trunc_XLEN(unsigned(a)·2^s) (R89, R103). -/
def shiftLeftBy (p : Profile) (a : Word) (n : Nat) : Word := truncX p (unsignedX p a * 2 ^ n : Int)

/-- floor(unsigned(a)/2^s) (R90, R104). -/
def shiftRightBy (p : Profile) (a : Word) (n : Nat) : Word := truncX p (unsignedX p a / 2 ^ n : Nat)

/-- trunc_XLEN(floor(signed(a)/2^s)) (R91, R105); Int division by a positive number rounds down. -/
def shiftArithBy (p : Profile) (a : Word) (n : Nat) : Word := truncX p (signedX p a / 2 ^ n)

/-- DIV's three cases (R95). -/
def divSigned (p : Profile) (a b : Word) : Word :=
  if signedX p b = 0 then maskX p
  else if signedX p a = minX p ∧ signedX p b = -1 then a
  else truncX p (quotT (signedX p a) (signedX p b))

/-- DIVU (R96). -/
def divUnsigned (p : Profile) (a b : Word) : Word :=
  if unsignedX p b = 0 then maskX p else truncX p (unsignedX p a / unsignedX p b : Nat)

/-- REM's three cases (R97). -/
def remSigned (p : Profile) (a b : Word) : Word :=
  if signedX p b = 0 then a
  else if signedX p a = minX p ∧ signedX p b = -1 then 0
  else truncX p (remT (signedX p a) (signedX p b))

/-- REMU (R98). -/
def remUnsigned (p : Profile) (a b : Word) : Word :=
  if unsignedX p b = 0 then a else truncX p (unsignedX p a % unsignedX p b : Nat)

/-- A register-register instruction over its value function (R82). -/
def aluReg (f : Profile → Word → Word → Word) (rd rs1 rs2 : Reg) (s : State) : Result :=
  writeBack rd (f s.profile (s.readReg rs1) (s.readReg rs2)) s

/-! ### The instructions -/

/-- ADD: x[rd] <- trunc_XLEN(unsigned(a) + unsigned(b)) (R84). -/
def execAdd (rd rs1 rs2 : Reg) (s : State) : Result := aluReg (fun p a b => truncX p (unsignedX p a + unsignedX p b : Int)) rd rs1 rs2 s

/-- SUB: x[rd] <- trunc_XLEN(unsigned(a) - unsigned(b)) (R85). -/
def execSub (rd rs1 rs2 : Reg) (s : State) : Result := aluReg (fun p a b => truncX p ((unsignedX p a : Int) - unsignedX p b)) rd rs1 rs2 s

/-- AND: x[rd] <- a AND b (R86). -/
def execAnd (rd rs1 rs2 : Reg) (s : State) : Result := aluReg (fun _ a b => a &&& b) rd rs1 rs2 s

/-- OR: x[rd] <- a OR b (R87). -/
def execOr (rd rs1 rs2 : Reg) (s : State) : Result := aluReg (fun _ a b => a ||| b) rd rs1 rs2 s

/-- XOR: x[rd] <- a XOR b (R88). -/
def execXor (rd rs1 rs2 : Reg) (s : State) : Result := aluReg (fun _ a b => a ^^^ b) rd rs1 rs2 s

/-- SLL: x[rd] <- trunc_XLEN(unsigned(a)·2^s), s the low SH bits of b (R89). -/
def execSll (rd rs1 rs2 : Reg) (s : State) : Result := aluReg (fun p a b => shiftLeftBy p a (shiftAmount p b)) rd rs1 rs2 s

/-- SRL: x[rd] <- floor(unsigned(a)/2^s), s the low SH bits of b (R90). -/
def execSrl (rd rs1 rs2 : Reg) (s : State) : Result := aluReg (fun p a b => shiftRightBy p a (shiftAmount p b)) rd rs1 rs2 s

/-- SRA: x[rd] <- trunc_XLEN(floor(signed(a)/2^s)), s the low SH bits of b (R91). -/
def execSra (rd rs1 rs2 : Reg) (s : State) : Result := aluReg (fun p a b => shiftArithBy p a (shiftAmount p b)) rd rs1 rs2 s

/-- SLT: x[rd] <- signed(a) < signed(b) ? 1 : 0 (R92). -/
def execSlt (rd rs1 rs2 : Reg) (s : State) : Result := aluReg (fun p a b => boolWord (ltSigned p a b)) rd rs1 rs2 s

/-- SLTU: x[rd] <- unsigned(a) < unsigned(b) ? 1 : 0 (R93). -/
def execSltu (rd rs1 rs2 : Reg) (s : State) : Result := aluReg (fun p a b => boolWord (ltUnsigned p a b)) rd rs1 rs2 s

/-- MUL: x[rd] <- trunc_XLEN(unsigned(a)·unsigned(b)), the low half (R94). -/
def execMul (rd rs1 rs2 : Reg) (s : State) : Result := aluReg (fun p a b => truncX p (unsignedX p a * unsignedX p b : Int)) rd rs1 rs2 s

/-- DIV: x[rd] <- the signed quotient toward zero; a / 0 = MASK_X; MIN / -1 = MIN (R95). -/
def execDiv (rd rs1 rs2 : Reg) (s : State) : Result := aluReg (fun p a b => divSigned p a b) rd rs1 rs2 s

/-- DIVU: x[rd] <- the unsigned quotient; a / 0 = MASK_X (R96). -/
def execDivu (rd rs1 rs2 : Reg) (s : State) : Result := aluReg (fun p a b => divUnsigned p a b) rd rs1 rs2 s

/-- REM: x[rd] <- the signed remainder; a % 0 = a; MIN % -1 = 0 (R97). -/
def execRem (rd rs1 rs2 : Reg) (s : State) : Result := aluReg (fun p a b => remSigned p a b) rd rs1 rs2 s

/-- REMU: x[rd] <- the unsigned remainder; a % 0 = a (R98). -/
def execRemu (rd rs1 rs2 : Reg) (s : State) : Result := aluReg (fun p a b => remUnsigned p a b) rd rs1 rs2 s

end Sys2Proof.Machine
end

