-- ==== Sys2Proof/Machine/AluImm.lean ====
section
/-! DEFINITION. The register-immediate instructions (R99–R108): each writes x[rd] and advances, raising nothing (R82). -/

namespace Sys2Proof.Machine

/-- A register-immediate instruction over its value function (R82). -/
def aluImm (f : Profile → Word → BitVec 16 → Word) (rd rs1 : Reg) (imm : BitVec 16) (s : State) : Result :=
  writeBack rd (f s.profile (s.readReg rs1) imm) s

/-- A shift-immediate instruction over its value function (R82). -/
def aluShift (f : Profile → Word → Nat → Word) (rd rs1 : Reg) (shamt : BitVec 6) (s : State) : Result :=
  writeBack rd (f s.profile (s.readReg rs1) shamt.toNat) s

/-- ADDI: x[rd] <- trunc_XLEN(unsigned(a) + unsigned(simm)) (R99). -/
def execAddi (rd rs1 : Reg) (imm : BitVec 16) (s : State) : Result :=
  aluImm (fun p a imm => truncX p (unsignedX p a + unsignedX p (simm p imm) : Int)) rd rs1 imm s

/-- ANDI: x[rd] <- a AND uimm (R100). -/
def execAndi (rd rs1 : Reg) (imm : BitVec 16) (s : State) : Result :=
  aluImm (fun p a imm => a &&& uimm p imm) rd rs1 imm s

/-- ORI: x[rd] <- a OR uimm (R101). -/
def execOri (rd rs1 : Reg) (imm : BitVec 16) (s : State) : Result :=
  aluImm (fun p a imm => a ||| uimm p imm) rd rs1 imm s

/-- XORI: x[rd] <- a XOR uimm (R102). -/
def execXori (rd rs1 : Reg) (imm : BitVec 16) (s : State) : Result :=
  aluImm (fun p a imm => a ^^^ uimm p imm) rd rs1 imm s

/-- SLTI: x[rd] <- signed(a) < signed(simm) ? 1 : 0 (R106). -/
def execSlti (rd rs1 : Reg) (imm : BitVec 16) (s : State) : Result :=
  aluImm (fun p a imm => boolWord (ltSigned p a (simm p imm))) rd rs1 imm s

/-- SLTIU: x[rd] <- unsigned(a) < unsigned(simm) ? 1 : 0 (R107). -/
def execSltiu (rd rs1 : Reg) (imm : BitVec 16) (s : State) : Result :=
  aluImm (fun p a imm => boolWord (ltUnsigned p a (simm p imm))) rd rs1 imm s

/-- SLLI: x[rd] <- trunc_XLEN(unsigned(a)·2^shamt) (R103). -/
def execSlli (rd rs1 : Reg) (shamt : BitVec 6) (s : State) : Result := aluShift shiftLeftBy rd rs1 shamt s

/-- SRLI: x[rd] <- floor(unsigned(a)/2^shamt) (R104). -/
def execSrli (rd rs1 : Reg) (shamt : BitVec 6) (s : State) : Result := aluShift shiftRightBy rd rs1 shamt s

/-- SRAI: x[rd] <- trunc_XLEN(floor(signed(a)/2^shamt)) (R105). -/
def execSrai (rd rs1 : Reg) (shamt : BitVec 6) (s : State) : Result := aluShift shiftArithBy rd rs1 shamt s

/-- LUI: x[rd] <- sext_XLEN(imm16 ++ 0^16); no source register is read (R108). -/
def execLui (rd : Reg) (imm : BitVec 16) (s : State) : Result := writeBack rd (upper s.profile imm) s

end Sys2Proof.Machine
end

