-- ==== Sys2Proof/Machine/Control.lean ====
section
/-! DEFINITION. Branches and jumps (R123–R135): targets from the instruction's own address, no delay slot, nothing
raised at execute; a misaligned or unmapped target faults at the next fetch. -/

namespace Sys2Proof.Machine

/-- BEQ: if x[rs1] = x[rs2], pc <- pc + boff, else pc + 4 (R126). -/
def execBeq (rs1 rs2 : Reg) (imm : BitVec 16) (s : State) : Result :=
  branch (eqX s.profile (s.readReg rs1) (s.readReg rs2)) imm s

/-- BNE: if x[rs1] != x[rs2], pc <- pc + boff, else pc + 4 (R127). -/
def execBne (rs1 rs2 : Reg) (imm : BitVec 16) (s : State) : Result :=
  branch (!eqX s.profile (s.readReg rs1) (s.readReg rs2)) imm s

/-- BLT: if signed(x[rs1]) < signed(x[rs2]), pc <- pc + boff, else pc + 4 (R128). -/
def execBlt (rs1 rs2 : Reg) (imm : BitVec 16) (s : State) : Result :=
  branch (ltSigned s.profile (s.readReg rs1) (s.readReg rs2)) imm s

/-- BGE: if signed(x[rs1]) >= signed(x[rs2]), pc <- pc + boff, else pc + 4 (R129). -/
def execBge (rs1 rs2 : Reg) (imm : BitVec 16) (s : State) : Result :=
  branch (!ltSigned s.profile (s.readReg rs1) (s.readReg rs2)) imm s

/-- BLTU: if unsigned(x[rs1]) < unsigned(x[rs2]), pc <- pc + boff, else pc + 4 (R130). -/
def execBltu (rs1 rs2 : Reg) (imm : BitVec 16) (s : State) : Result :=
  branch (ltUnsigned s.profile (s.readReg rs1) (s.readReg rs2)) imm s

/-- BGEU: if unsigned(x[rs1]) >= unsigned(x[rs2]), pc <- pc + boff, else pc + 4 (R131). -/
def execBgeu (rs1 rs2 : Reg) (imm : BitVec 16) (s : State) : Result :=
  branch (!ltUnsigned s.profile (s.readReg rs1) (s.readReg rs2)) imm s

/-- JAL: x[rd] <- pc + 4; pc <- pc + joff (R132). -/
def execJal (rd : Reg) (imm : BitVec 20) (s : State) : Result :=
  link rd (pcRelative s.profile s.pc (joff s.profile imm)) s

/-- JALR: t <- x[rs1] + simm; x[rd] <- pc + 4; pc <- t (R133). -/
def execJalr (rd rs1 : Reg) (imm : BitVec 16) (s : State) : Result :=
  link rd (effAddr s.profile (s.readReg rs1) imm) s

/-- J: pc <- pc + joff (R134). -/
def execJ (imm : BitVec 20) (s : State) : Result :=
  .next (s.jumpTo (pcRelative s.profile s.pc (joff s.profile imm)))

/-- JR: pc <- x[rs1] + simm (R135). -/
def execJr (rs1 : Reg) (imm : BitVec 16) (s : State) : Result :=
  .next (s.jumpTo (effAddr s.profile (s.readReg rs1) imm))

end Sys2Proof.Machine
end

