-- ==== Sys2Proof/Machine/LoadStore.lean ====
section
/-! DEFINITION. Loads and stores (R109–R122): one bus access at EA; LOAD_MISALIGNED, LOAD_BUS, STORE_MISALIGNED or
STORE_BUS when it fails. -/

namespace Sys2Proof.Machine

/-- LB: load a byte, sign-extended (R112). -/
def execLb (rd rs1 : Reg) (imm : BitVec 16) (s : State) : Result :=
  load .b1 (sextLoaded s.profile .b1) rd rs1 imm s

/-- LBU: load a byte, zero-extended (R113). -/
def execLbu (rd rs1 : Reg) (imm : BitVec 16) (s : State) : Result :=
  load .b1 (zextLoaded s.profile .b1) rd rs1 imm s

/-- LH: load a halfword, sign-extended (R114). -/
def execLh (rd rs1 : Reg) (imm : BitVec 16) (s : State) : Result :=
  load .b2 (sextLoaded s.profile .b2) rd rs1 imm s

/-- LHU: load a halfword, zero-extended (R115). -/
def execLhu (rd rs1 : Reg) (imm : BitVec 16) (s : State) : Result :=
  load .b2 (zextLoaded s.profile .b2) rd rs1 imm s

/-- LW: load a word, sign-extended (R116). -/
def execLw (rd rs1 : Reg) (imm : BitVec 16) (s : State) : Result :=
  load .b4 (sextLoaded s.profile .b4) rd rs1 imm s

/-- LWU: load a word, zero-extended (R117). -/
def execLwu (rd rs1 : Reg) (imm : BitVec 16) (s : State) : Result :=
  load .b4 (zextLoaded s.profile .b4) rd rs1 imm s

/-- LD: load a doubleword (R118). -/
def execLd (rd rs1 : Reg) (imm : BitVec 16) (s : State) : Result :=
  load .b8 (zextLoaded s.profile .b8) rd rs1 imm s

/-- SB: store the low byte of x[rs2] (R119). -/
def execSb (rs2 rs1 : Reg) (imm : BitVec 16) (s : State) : Result := store .b1 rs2 rs1 imm s

/-- SH: store the low halfword of x[rs2] (R120). -/
def execSh (rs2 rs1 : Reg) (imm : BitVec 16) (s : State) : Result := store .b2 rs2 rs1 imm s

/-- SW: store the low word of x[rs2] (R121). -/
def execSw (rs2 rs1 : Reg) (imm : BitVec 16) (s : State) : Result := store .b4 rs2 rs1 imm s

/-- SD: store the doubleword of x[rs2] (R122). -/
def execSd (rs2 rs1 : Reg) (imm : BitVec 16) (s : State) : Result := store .b8 rs2 rs1 imm s

end Sys2Proof.Machine
end

