-- ==== Sys2Proof/Machine/System.lean ====
section
/-! DEFINITION. The system instructions (R136–R143). There is one privilege mode, so each runs in it (R144). -/

namespace Sys2Proof.Machine

/-- NOP: pc <- pc + 4 (R137). -/
def execNop (s : State) : Result := .next s.advance

/-- HALT: halt(HaltInstr); pc keeps the HALT's address (R138). -/
def execHalt (s : State) : Result := .next (s.halt .haltInstr)

/-- SYSCALL: raise SYSCALL(0) (R139). -/
def execSyscall (s : State) : Result := .next (s.raise .syscall 0)

/-- BREAK: raise BREAK(0) (R140). -/
def execBreak (s : State) : Result := .next (s.raise .brk 0)

/-- ERET: return from trap, whatever EXL is (R141). -/
def execEret (s : State) : Result := .next s.returnFromTrap

/-- MFC: x[rd] <- CRread(cr) (R142). -/
def execMfc (rd : Reg) (cr : ControlReg) (s : State) : Result := writeBack rd (s.readControl cr) s

/-- MTC: the control register takes x[rs1], then pc + 4 (R143). -/
def execMtc (cr : WritableReg) (rs1 : Reg) (s : State) : Result := .next (s.writeControl cr (s.readReg rs1)).advance

end Sys2Proof.Machine
end

