-- ==== Sys2Proof/Machine/Cpu.lean ====
section
/-! DEFINITION. The CPU step (R145): fetch, decode, execute, the cost, and the interrupt check. -/

namespace Sys2Proof.Machine

/-- The class of an instruction (R75's class column). -/
def classOf : Instr → InstrClass
  | .nop | .halt | .syscall | .brk | .eret | .mfc _ _ | .mtc _ _ => .system
  | .add _ _ _ | .sub _ _ _ | .and _ _ _ | .or _ _ _ | .xor _ _ _ | .sll _ _ _ | .srl _ _ _ | .sra _ _ _
  | .slt _ _ _ | .sltu _ _ _ => .alu
  | .mul _ _ _ | .div _ _ _ | .divu _ _ _ | .rem _ _ _ | .remu _ _ _ => .muldiv
  | .addi _ _ _ | .andi _ _ _ | .ori _ _ _ | .xori _ _ _ | .slli _ _ _ | .srli _ _ _ | .srai _ _ _
  | .slti _ _ _ | .sltiu _ _ _ | .lui _ _ => .alu
  | .lb _ _ _ | .lbu _ _ _ | .lh _ _ _ | .lhu _ _ _ | .lw _ _ _ | .lwu _ _ _ | .ld _ _ _ => .load
  | .sb _ _ _ | .sh _ _ _ | .sw _ _ _ | .sd _ _ _ => .store
  | .beq _ _ _ | .bne _ _ _ | .blt _ _ _ | .bge _ _ _ | .bltu _ _ _ | .bgeu _ _ _ => .branch
  | .jal _ _ | .jalr _ _ _ | .j _ | .jr _ _ => .jump

/-- cost(class(i)) (R189). -/
def costOf (p : Profile) (i : Instr) : Nat := p.costs.of (classOf i)

/-- A step that traps at fetch or decode: TakeTrap with EPC = pc, at FAULT_COST (R145). -/
def State.faultStep (s : State) (c : Cause) (info : Word) : State := (s.raise c info).retire s.profile.faultCost

/-- CpuStep() (R145). It runs only when the run state is Running; the scheduler sees to that. -/
def State.cpuStep (s : State) : Result :=
  match s.fetch with
  | .error c => .next (s.faultStep c s.pc)
  | .ok w =>
    match decode s.profile w with
    | .error _ => .next (s.faultStep .reservedInstruction (w.setWidth 64))
    | .ok i =>
      match exec i s with
      | .next t    => .next (t.retire (costOf s.profile i))
      | .fault f   => .fault f
      | .refused r => .refused r

/-- The machine with the instruction word of an opcode-table row placed where the next step fetches, and with all that
the very next step needs to run it: the CPU Running, a burst in progress with its target ahead (R161), and, where pc is
not a place a word can be fetched from, pc at RESET_PC (log 5). -/
def State.placeWord (s : State) (nbits w : Nat) : State :=
  let at_ : Addr := match s.fetch with
    | .ok _    => s.pc
    | .error _ => s.profile.resetPc
  { s with
    pc     := at_
    run    := .running
    phase  := .inBurst
    cycles := if s.cycles.toNat < (s.frame.toNat + 1) * s.profile.cpf then s.cycles
              else BitVec.ofNat 64 (s.frame.toNat * s.profile.cpf)
    cStart := match s.phase with
      | .inBurst  => s.cStart
      | .boundary => s.cycles
    mem    := s.mem.writeBytes at_.toNat (wordBytes (tableWord nbits w)) }

end Sys2Proof.Machine
end

