-- ==== Sys2Proof/Machine/Snapshot.lean ====
section
/-! DEFINITION. The snapshot units (R175–R181): Capture, the blob of R177, and Restore with its checks. -/

namespace Sys2Proof.Machine

/-! ### Capture (R176, R177) -/

/-- Put a range into a list in ascending start order. -/
def insertRange (r : Range) : List Range → List Range
  | []      => [r]
  | q :: qs => if r.start ≤ q.start then r :: q :: qs else q :: insertRange r qs

/-- The profile's RAM and ROM ranges in ascending start order (R177). -/
def memRanges (p : Profile) : List Range :=
  (p.ranges.filter fun r => decide (r.kind = .ram) || decide (r.kind = .rom)).foldr insertRange []

/-- All bytes of a range. -/
def rangeImage (m : Memory) (r : Range) : Nat × List Byte := (r.start, m.readBytes r.start r.length)

/-- Capture: the deep copy of R176. It holds no queue, no request flag and no phase. -/
def State.capture (s : State) : Snapshot where
  version   := s.profile.snapshotVersion
  profileId := s.profile.profileId
  cycles    := s.cycles
  frame     := s.frame
  regs      := s.regs.toList.take s.profile.nregs
  pc        := s.pc
  status    := s.status
  causeCode := s.causeCode
  epc       := s.epc
  badaddr   := s.badaddr
  scratch   := s.scratch
  evec      := s.evec
  run       := s.run
  devs      := s.devs
  image     := (memRanges s.profile).map (rangeImage s.mem)

/-- The last four CPU fields of R177: run kind, fatal code, fatal epc, fatal info. -/
def runFields : RunState → List Nat
  | .running                         => [0, 0, 0, 0]
  | .halted .haltInstr               => [1, 0, 0, 0]
  | .halted (.fatal code epc info)   => [2, (causeNumber code).toNat, epc.toNat, info.toNat]

/-- The eleven CPU fields of R177, as numbers. -/
def cpuFields (n : Snapshot) : List Nat :=
  [n.pc.toNat, (statusWord n.status).toNat, (causeNumber n.causeCode).toNat, n.epc.toNat, n.badaddr.toNat,
   n.scratch.toNat, n.evec.toNat] ++ runFields n.run

/-- A device record of R177: u32 length, then the bytes. R177 does not say what is written for an opaque device of 2^32
bytes or more; the model writes the length modulo 2^32, so such a blob need not restore. DESIGN CHOICE (log 12). -/
def deviceRecord (d : DevState) : List Byte := leBytes 4 d.serialize.length ++ d.serialize

/-- A memory record of R177: u64 start, u64 length, then the bytes. R177 does not say what is written for a range of 2^64
bytes, the whole of a 64-bit address space; the model writes the length modulo 2^64, so such a blob does not restore.
DESIGN CHOICE (log 12). -/
def memoryRecord (r : Nat × List Byte) : List Byte := leBytes 8 r.1 ++ leBytes 8 r.2.length ++ r.2

/-- Numbers as u64 fields. -/
def u64s (ns : List Nat) : List Byte := ns.flatMap (leBytes 8)

/-- The snapshot blob (R177). -/
def Snapshot.toBlob (n : Snapshot) : List Byte :=
  leBytes 4 n.version.toNat ++ leBytes 4 n.profileId.toNat ++ leBytes 8 n.cycles.toNat ++ leBytes 8 n.frame.toNat
    ++ u64s (n.regs.map BitVec.toNat) ++ u64s (cpuFields n) ++ n.devs.flatMap deviceRecord
    ++ n.image.flatMap memoryRecord

/-! ### Reading a blob (R179) -/

/-- The errors of R178. -/
inductive SnapshotError where
  | unsafePoint
  | versionMismatch
  | malformed
deriving DecidableEq, Repr

/-- Take n bytes from a blob. -/
def takeBytes (n : Nat) (b : List Byte) : Option (List Byte × List Byte) :=
  if n ≤ b.length then some (b.take n, b.drop n) else none

/-- Take an n-byte number from a blob. -/
def takeNat (n : Nat) (b : List Byte) : Option (Nat × List Byte) :=
  (takeBytes n b).map fun r => (leNat r.1, r.2)

/-- Take k u64 fields from a blob. -/
def takeU64s : Nat → List Byte → Option (List Nat × List Byte)
  | 0, b     => some ([], b)
  | k + 1, b =>
    match takeNat 8 b with
    | none         => none
    | some (v, b') =>
      match takeU64s k b' with
      | none           => none
      | some (vs, b'') => some (v :: vs, b'')

/-- Take the device records of the profile's devices, in order; each must deserialize (R179 check 4). -/
def takeDevices : List DeviceDecl → List Byte → Option (List DevState × List Byte)
  | [], b      => some ([], b)
  | d :: ds, b =>
    match takeNat 4 b with
    | none         => none
    | some (n, b1) =>
      match takeBytes n b1 with
      | none             => none
      | some (bytes, b2) =>
        match DevState.deserialize d bytes with
        | none    => none
        | some st =>
          match takeDevices ds b2 with
          | none           => none
          | some (sts, b3) => some (st :: sts, b3)

/-- Take the memory records of the profile's RAM and ROM ranges, in ascending order, with matching start and length
(R179 check 5). -/
def takeImage : List Range → List Byte → Option (List (Nat × List Byte) × List Byte)
  | [], b      => some ([], b)
  | r :: rs, b =>
    match takeNat 8 b with
    | none             => none
    | some (start, b1) =>
      match takeNat 8 b1 with
      | none           => none
      | some (len, b2) =>
        if start = r.start ∧ len = r.length then
          match takeBytes r.length b2 with
          | none             => none
          | some (bytes, b3) =>
            match takeImage rs b3 with
            | none           => none
            | some (rest, b4) => some ((start, bytes) :: rest, b4)
        else none

/-- The run state of the fields run kind, fatal code, epc and info (R177, R179 check 3). -/
def runOfFields : List Nat → Option RunState
  | [0, 0, 0, 0]          => some .running
  | [1, 0, 0, 0]          => some (.halted .haltInstr)
  | [2, code, epc, info]  =>
    (causeOfNumber code).map fun c => .halted (.fatal c (BitVec.ofNat 64 epc) (BitVec.ofNat 64 info))
  | _ => none

/-- STATUS has no bits outside 0, 1, 2 and 15:8 (R179 check 3). -/
def statusFieldOk (v : Nat) : Bool := decide (v < 2 ^ 16) && decide (v / 8 % 32 = 0)

/-- The CPU state of R177's fields, put into a snapshot whose header, devices and image are given; none when check 3 of
R179 fails. -/
def snapshotOfFields (p : Profile) (cycles frame : Nat) (regs cpu : List Nat) (devs : List DevState)
    (image : List (Nat × List Byte)) : Option Snapshot :=
  match cpu with
  | pc :: st :: code :: epc :: bad :: scr :: evec :: run =>
    if regs.all (fun v => decide (v < 2 ^ p.xlen.bits)) ∧ pc < 2 ^ p.addrBits ∧ epc < 2 ^ p.addrBits
        ∧ evec < 2 ^ p.addrBits ∧ evec % 4 = 0 ∧ bad < 2 ^ p.xlen.bits ∧ scr < 2 ^ p.xlen.bits
        ∧ statusFieldOk st then
      match causeOfNumber code, runOfFields run with
      | some c, some r =>
        some { version := p.snapshotVersion, profileId := p.profileId
               cycles := BitVec.ofNat 64 cycles, frame := BitVec.ofNat 64 frame
               regs := regs.map (BitVec.ofNat 64), pc := BitVec.ofNat 64 pc
               status := statusOfWord (BitVec.ofNat 64 st), causeCode := c, epc := BitVec.ofNat 64 epc
               badaddr := BitVec.ofNat 64 bad, scratch := BitVec.ofNat 64 scr, evec := BitVec.ofNat 64 evec
               run := r, devs := devs, image := image }
      | _, _ => none
    else none
  | _ => none

/-- The blob after its first 8 bytes: counters, registers, CPU fields, devices, memory, and nothing more (R177, R179). -/
def parseBody (p : Profile) (b : List Byte) : Option Snapshot :=
  match takeU64s 2 b with
  | some ([cycles, frame], b1) =>
    match takeU64s p.nregs b1 with
    | none            => none
    | some (regs, b2) =>
      match takeU64s 11 b2 with
      | none           => none
      | some (cpu, b3) =>
        match takeDevices p.devices b3 with
        | none            => none
        | some (devs, b4) =>
          match takeImage (memRanges p) b4 with
          | some (image, []) => snapshotOfFields p cycles frame regs cpu devs image
          | _                => none
  | _ => none

/-- The checks of R179 on a blob, in order. -/
def parseBlob (p : Profile) (b : List Byte) : Except SnapshotError Snapshot :=
  if b.length < 24 then .error .malformed
  else if leNat (b.take 4) ≠ p.snapshotVersion.toNat ∨ leNat ((b.drop 4).take 4) ≠ p.profileId.toNat then
    .error .versionMismatch
  else
    match parseBody p (b.drop 8) with
    | some n => .ok n
    | none   => .error .malformed

/-! ### Restore (R180) -/

/-- The 16 register places from a snapshot's NREGS values; places the profile does not have hold 0. -/
def regsOfList (rs : List Word) : Vector Word 16 := Vector.ofFn fun i => rs.getD i.val 0

/-- The memory of an image. -/
def memOfImage (image : List (Nat × List Byte)) : Memory :=
  image.foldl (fun m r => m.writeBytes r.1 r.2) []

/-- Replace all CPU, device and memory state from a snapshot; empty the queue, clear the request flags, phase Boundary
(R180). -/
def State.install (s : State) (n : Snapshot) : State :=
  { s with
    cycles := n.cycles, frame := n.frame, regs := regsOfList n.regs, pc := n.pc, status := n.status
    causeCode := n.causeCode, epc := n.epc, badaddr := n.badaddr, scratch := n.scratch, evec := n.evec, run := n.run
    devs := n.devs, mem := memOfImage n.image
    queue := [], stopReq := false, captureReq := false, phase := .boundary, cStart := 0 }

/-- The host's Capture: legal only at a boundary (R175). -/
def State.hostCapture (s : State) : Except SnapshotError (List Byte) :=
  match s.phase with
  | .inBurst  => .error .unsafePoint
  | .boundary => .ok s.capture.toBlob

/-- The host's Restore: legal only at a boundary, and only a blob that passes every check changes state (R175, R179,
R180). -/
def State.restore (s : State) (b : List Byte) : Except SnapshotError State :=
  match s.phase with
  | .inBurst  => .error .unsafePoint
  | .boundary =>
    match parseBlob s.profile b with
    | .ok n    => .ok (s.install n)
    | .error e => .error e

end Sys2Proof.Machine
end

