-- ==== Sys2Proof/Machine/Patch.lean ====
section
/-! DEFINITION. The patch unit (R183–R186) and the host's policy (R173). -/

namespace Sys2Proof

/-- observe: the host's policy, a pure function from the view to a list of requests (R173, D58). Opaque: a claim holds
for every policy. Safe. -/
opaque Config.observe : Machine.Snapshot → List Machine.PatchRequest

end Sys2Proof

namespace Sys2Proof.Machine

/-- The index that stands for pc in a register patch (R184). -/
def pcIndex : Nat := 64

/-- Validate(p) (R184). -/
def patchValid (p : Profile) (r : PatchRequest) : Bool :=
  match r.target with
  | .memory a =>
    decide (a < 2 ^ p.addrBits) && decide ((findRange p a).map Range.kind = some .ram) && decide (r.value ≤ 255)
  | .register i =>
    (decide (i < p.nregs) && decide (r.value < 2 ^ p.xlen.bits))
      || (decide (i = pcIndex) && decide (r.value < 2 ^ p.addrBits))

/-- Apply one patch (R185). It changes one register, pc, or one byte, and nothing else. -/
def State.applyPatch (s : State) (r : PatchRequest) : State :=
  match r.target with
  | .memory a   => { s with mem := s.mem.write a (BitVec.ofNat 8 r.value) }
  | .register i =>
    if i = pcIndex then s.jumpTo (BitVec.ofNat 64 r.value)
    else s.writeReg (BitVec.ofNat 4 i) (BitVec.ofNat 64 r.value)

/-- A queued request is eligible at this boundary (R185). -/
def patchEligible (cycles : Counter) (r : PatchRequest) : Bool := decide (r.applyAtCycle.toNat ≤ cycles.toNat)

/-- ApplyEligible(): the eligible requests in queue order; the others stay queued in order (R185). -/
def State.applyEligible (s : State) : State :=
  { (s.queue.filter (patchEligible s.cycles)).foldl State.applyPatch s with
    queue := s.queue.filter fun r => !patchEligible s.cycles r }

/-- Queue the valid requests of an observe call, in order (R162, R184). -/
def State.accept (s : State) (rs : List PatchRequest) : State :=
  { s with queue := s.queue ++ rs.filter (patchValid s.profile) }

/-- The requests rejected with PatchError.InvalidTarget, in order (R184). -/
def rejectedOf (p : Profile) (rs : List PatchRequest) : List PatchRequest := rs.filter fun r => !patchValid p r

end Sys2Proof.Machine
end

