-- ==== Sys2Proof/Machine/Scheduler.lean ====
section
/-! DEFINITION. The frame scheduler (R161–R165): Burst and RunFrame as the spec writes them, and the same frame cut into
single steps. -/

namespace Sys2Proof.Machine

/-- T = (frame + 1)·CPF (R161). -/
def State.frameTarget (s : State) : Nat := (s.frame.toNat + 1) * s.profile.cpf

/-- RunFrame's prologue: phase <- InBurst; c_start <- cycles (R162). -/
def State.beginFrame (s : State) : State := { s with phase := .inBurst, cStart := s.cycles }

/-- A halted CPU idles to the target: cycles <- T (R161). -/
def State.idle (s : State) : State := { s with cycles := BitVec.ofNat 64 s.frameTarget }

/-- Tick every device in profile order with n = cycles - c_start, then frame <- frame + 1 (R162, R163). -/
def State.tickFrame (s : State) : State :=
  { s with devs := s.devs.map fun d => d.tick (s.cycles - s.cStart), frame := s.frame + 1 }

/-- The rest of the boundary sequence, given what observe returned: validate and queue, apply, phase <- Boundary, the
requested capture, the stop request and the return value (R162). -/
def State.boundaryWith (s : State) (rs : List PatchRequest) : State :=
  let t := (s.accept rs).applyEligible
  let u := { t with phase := .boundary }
  { u with
    captureReq := false, stopReq := false, cStart := 0
    report := some
      { stopped  := u.stopReq
        status   := u.run
        rejected := rejectedOf s.profile rs
        captured := if u.captureReq then some u.capture else none } }

/-- The end of a frame after its burst (R162), observe being called once with the view Capture() (R164, R173). -/
def State.endFrame (s : State) : State :=
  let t := s.tickFrame
  t.boundaryWith (Config.observe t.capture)

/-- One iteration of Burst's loop (R161). -/
def State.burstStep (s : State) : Result :=
  match s.run with
  | .running  => s.cpuStep
  | .halted _ => .next s.idle

/-- One step of the machine. At a boundary it is the host's call of RunFrame (its prologue), refused when the target is
2^64 or more (R155, U6). In a burst below the target it is one iteration of Burst; at or past the target it is the end of
the frame (R161, R162; log 1). -/
def State.machineStep (s : State) : Result :=
  match s.phase with
  | .boundary => if s.frameTarget < 2 ^ 64 then .next s.beginFrame else .refused .counterOverflow
  | .inBurst  => if s.cycles.toNat < s.frameTarget then s.burstStep else .next s.endFrame

/-! ### The frame as one operation of the host -/

/-- The first k iterations of Burst's loop (R161): it ends as soon as cycles reaches T. The rule bounds no number of
iterations, since a cost can wrap the 64-bit counter (R155), so k is the caller's (log 1). -/
def State.burst : Nat → State → Result
  | 0, s     => .next s
  | k + 1, s =>
    if s.cycles.toNat < s.frameTarget then
      match s.burstStep with
      | .next t    => State.burst k t
      | .fault f   => .fault f
      | .refused r => .refused r
    else .next s

/-- What follows Burst's first iterations: the rest of RunFrame once cycles has reached T; else the burst goes on, and the
machine stays in it (R161, R162). -/
def State.afterBurst (s : State) : State := if s.cycles.toNat < s.frameTarget then s else s.endFrame

/-- RunFrame() (R162), watched for k iterations of its burst: refused out of phase (U18) and when the target is 2^64 or
more (U6). At phase Boundary it has returned, and its return value and what it hands to the host stand in `report`; at
phase InBurst it has not, and the machine's steps go on with it (log 1). -/
def State.runFrame (k : Nat) (s : State) : Result :=
  match s.phase with
  | .inBurst  => .refused .outOfPhase
  | .boundary =>
    if s.frameTarget < 2 ^ 64 then
      match State.burst k s.beginFrame with
      | .next t    => .next t.afterBurst
      | .fault f   => .fault f
      | .refused r => .refused r
    else .refused .counterOverflow

/-- The last RunFrame returned Stopped, or the status Halted (R165). -/
def State.stopsRun (s : State) : Bool :=
  match s.report with
  | some r => r.stopped || decide (r.status ≠ .running)
  | none   => false

end Sys2Proof.Machine
end

