-- ==== Sys2Proof/Machine/Step.lean ====
section
/-! DEFINITION. The step of the machine, and where the host places an instruction for the next step. -/

namespace Sys2Proof.Machine

/-- One step (R145, R161, R162; log 1). -/
def step (s : State) : Host.Outcome State Fault Refusal := s.machineStep

/-- The machine with an opcode-table word placed so that the very next step runs it (log 5). -/
def State.withFetchWord (s : State) (nbits w : Nat) : State := s.placeWord nbits w

end Sys2Proof.Machine
end

