-- ==== Sys2Proof/Assembler.lean ====
section
/-! DEFINITION. Assembler text (R79) and the pseudo-instructions with their expansions (R80). Nothing in the machine uses
them. -/

namespace Sys2Proof

/-! ### Labels (R79) -/

/-- The field of n bits that the assembler encodes for a label: (label - pc) / 4, a whole number in range. -/
def labelField (n : Nat) (label pc : Int) : Option (BitVec n) :=
  let d := label - pc
  if d % 4 = 0 ∧ -(2 ^ (n - 1)) ≤ d / 4 ∧ d / 4 < 2 ^ (n - 1) then some (BitVec.ofInt n (d / 4)) else none

/-! ### Text (R79) -/

/-- r0 to r15. -/
def regText (r : Reg) : String := "r" ++ toString r.toNat

/-- A signed immediate in decimal. -/
def signedText {n : Nat} (v : BitVec n) : String := toString v.toInt

/-- An unsigned immediate in decimal. -/
def unsignedText {n : Nat} (v : BitVec n) : String := toString v.toNat

/-- A control register's name. -/
def ControlReg.text : ControlReg → String
  | .status  => "STATUS"
  | .cause   => "CAUSE"
  | .epc     => "EPC"
  | .badaddr => "BADADDR"
  | .cycle   => "CYCLE"
  | .scratch => "SCRATCH"
  | .evec    => "EVEC"

/-- A writable control register's name. -/
def WritableReg.text : WritableReg → String
  | .status  => "STATUS"
  | .epc     => "EPC"
  | .scratch => "SCRATCH"
  | .evec    => "EVEC"

/-- `OP a, b, c`. -/
def text3 (op a b c : String) : String := op ++ " " ++ a ++ ", " ++ b ++ ", " ++ c

/-- `OP a, b`. -/
def text2 (op a b : String) : String := op ++ " " ++ a ++ ", " ++ b

/-- `imm(rs1)`. -/
def baseText (rs1 : Reg) (imm : BitVec 16) : String := signedText imm ++ "(" ++ regText rs1 ++ ")"

/-- The form R, `OP rd, rs1, rs2`. -/
def textR (op : String) (rd rs1 rs2 : Reg) : String := text3 op (regText rd) (regText rs1) (regText rs2)

/-- The form I with a signed immediate. -/
def textI (op : String) (rd rs1 : Reg) (imm : BitVec 16) : String := text3 op (regText rd) (regText rs1) (signedText imm)

/-- The form I with an unsigned immediate of n bits. -/
def textU {n : Nat} (op : String) (rd rs1 : Reg) (imm : BitVec n) : String :=
  text3 op (regText rd) (regText rs1) (unsignedText imm)

/-- The forms load and store, `OP r, imm(rs1)`. -/
def textM (op : String) (r rs1 : Reg) (imm : BitVec 16) : String := text2 op (regText r) (baseText rs1 imm)

/-- The text of an instruction (R79); a branch or jump operand stands as its distance in instructions, as in R81. -/
def Instr.text : Instr → String
  | .nop => "NOP"
  | .halt => "HALT"
  | .syscall => "SYSCALL"
  | .brk => "BREAK"
  | .eret => "ERET"
  | .mfc rd cr => text2 "MFC" (regText rd) cr.text
  | .mtc cr rs1 => text2 "MTC" cr.text (regText rs1)
  | .add rd rs1 rs2 => textR "ADD" rd rs1 rs2
  | .sub rd rs1 rs2 => textR "SUB" rd rs1 rs2
  | .and rd rs1 rs2 => textR "AND" rd rs1 rs2
  | .or rd rs1 rs2 => textR "OR" rd rs1 rs2
  | .xor rd rs1 rs2 => textR "XOR" rd rs1 rs2
  | .sll rd rs1 rs2 => textR "SLL" rd rs1 rs2
  | .srl rd rs1 rs2 => textR "SRL" rd rs1 rs2
  | .sra rd rs1 rs2 => textR "SRA" rd rs1 rs2
  | .slt rd rs1 rs2 => textR "SLT" rd rs1 rs2
  | .sltu rd rs1 rs2 => textR "SLTU" rd rs1 rs2
  | .mul rd rs1 rs2 => textR "MUL" rd rs1 rs2
  | .div rd rs1 rs2 => textR "DIV" rd rs1 rs2
  | .divu rd rs1 rs2 => textR "DIVU" rd rs1 rs2
  | .rem rd rs1 rs2 => textR "REM" rd rs1 rs2
  | .remu rd rs1 rs2 => textR "REMU" rd rs1 rs2
  | .addi rd rs1 imm => textI "ADDI" rd rs1 imm
  | .andi rd rs1 imm => textU "ANDI" rd rs1 imm
  | .ori rd rs1 imm => textU "ORI" rd rs1 imm
  | .xori rd rs1 imm => textU "XORI" rd rs1 imm
  | .slli rd rs1 n => textU "SLLI" rd rs1 n
  | .srli rd rs1 n => textU "SRLI" rd rs1 n
  | .srai rd rs1 n => textU "SRAI" rd rs1 n
  | .slti rd rs1 imm => textI "SLTI" rd rs1 imm
  | .sltiu rd rs1 imm => textI "SLTIU" rd rs1 imm
  | .lui rd imm => text2 "LUI" (regText rd) (unsignedText imm)
  | .lb rd rs1 imm => textM "LB" rd rs1 imm
  | .lbu rd rs1 imm => textM "LBU" rd rs1 imm
  | .lh rd rs1 imm => textM "LH" rd rs1 imm
  | .lhu rd rs1 imm => textM "LHU" rd rs1 imm
  | .lw rd rs1 imm => textM "LW" rd rs1 imm
  | .lwu rd rs1 imm => textM "LWU" rd rs1 imm
  | .ld rd rs1 imm => textM "LD" rd rs1 imm
  | .sb rs2 rs1 imm => textM "SB" rs2 rs1 imm
  | .sh rs2 rs1 imm => textM "SH" rs2 rs1 imm
  | .sw rs2 rs1 imm => textM "SW" rs2 rs1 imm
  | .sd rs2 rs1 imm => textM "SD" rs2 rs1 imm
  | .beq rs1 rs2 imm => textI "BEQ" rs1 rs2 imm
  | .bne rs1 rs2 imm => textI "BNE" rs1 rs2 imm
  | .blt rs1 rs2 imm => textI "BLT" rs1 rs2 imm
  | .bge rs1 rs2 imm => textI "BGE" rs1 rs2 imm
  | .bltu rs1 rs2 imm => textI "BLTU" rs1 rs2 imm
  | .bgeu rs1 rs2 imm => textI "BGEU" rs1 rs2 imm
  | .jal rd imm => text2 "JAL" (regText rd) (signedText imm)
  | .jalr rd rs1 imm => textM "JALR" rd rs1 imm
  | .j imm => "J " ++ signedText imm
  | .jr rs1 imm => "JR " ++ baseText rs1 imm

/-! ### Pseudo-instructions (R80) -/

/-- The pseudo-instructions of R80, a label standing as its encoded field. NOT is not provided. -/
inductive Pseudo where
  | mov  (rd rs : Reg)
  | clr  (rd : Reg)
  | li   (rd : Reg) (imm : BitVec 32)
  | bgt  (rs1 rs2 : Reg) (imm : BitVec 16)
  | ble  (rs1 rs2 : Reg) (imm : BitVec 16)
  | bgtu (rs1 rs2 : Reg) (imm : BitVec 16)
  | bleu (rs1 rs2 : Reg) (imm : BitVec 16)
  | call (rd : Reg) (imm : BitVec 20)
  | ret  (rs : Reg)
deriving DecidableEq, Repr

/-- The exact expansion of a pseudo-instruction (R80). -/
def Pseudo.expand : Pseudo → List Instr
  | .mov rd rs => [.addi rd rs 0]
  | .clr rd => [.xor rd rd rd]
  | .li rd imm => [.lui rd (imm.extractLsb' 16 16), .ori rd rd (imm.extractLsb' 0 16)]
  | .bgt rs1 rs2 imm => [.blt rs2 rs1 imm]
  | .ble rs1 rs2 imm => [.bge rs2 rs1 imm]
  | .bgtu rs1 rs2 imm => [.bltu rs2 rs1 imm]
  | .bleu rs1 rs2 imm => [.bgeu rs2 rs1 imm]
  | .call rd imm => [.jal rd imm]
  | .ret rs => [.jr rs 0]

end Sys2Proof
end

