-- ==== Sys2Proof/Machine/Construct.lean ====
section
/-! DEFINITION. Construction, the only reset (R169, R170): validating the profile and the ROM image (R8), and the machine
in its reset state. -/

namespace Sys2Proof.Machine

/-- Why construction fails with ProfileError (R8). `illegalValue` is a field outside its legal values in R6's table that
R8 does not list again (log 8). -/
inductive ProfileError where
  | overlap
  | outsideAddressSpace
  | romRange
  | romSize
  | deviceRange
  | irqLine
  | region
  | addrBits
  | nregs
  | fpCap
  | illegalValue
deriving DecidableEq, Repr

/-- Two ranges share no address. -/
def rangesApart (a b : Range) : Bool :=
  decide (a.start + a.length ≤ b.start) || decide (b.start + b.length ≤ a.start)

/-- No two ranges overlap (R8, R41). -/
def noOverlap : List Range → Bool
  | []      => true
  | r :: rs => rs.all (rangesApart r) && noOverlap rs

/-- The profile with its ROM range's length set to the image size (R8, R170). -/
def withRomLength (p : Profile) (n : Nat) : Profile :=
  { p with ranges := p.ranges.map fun r => if r.kind = .rom then { r with length := n } else r }

/-- Device d's range is one of the profile's ranges of kind Device d (R8). -/
def deviceRangeOk (p : Profile) (d : DeviceDecl) (k : Nat) : Bool :=
  p.ranges.contains { start := d.start, length := d.length, kind := .device k }

/-- Every device has its range, counted from device k. -/
def deviceRangesOk (p : Profile) : List DeviceDecl → Nat → Bool
  | [], _      => true
  | d :: ds, k => deviceRangeOk p d k && deviceRangesOk p ds (k + 1)

/-- A range of kind Device names a device of the profile, and is that device's range (R42; log 8). -/
def rangeNamesDevice (p : Profile) (r : Range) : Bool :=
  match r.kind with
  | .device k =>
    match p.devices[k]? with
    | some d => decide (d.start = r.start) && decide (d.length = r.length)
    | none   => false
  | .ram | .rom => true

/-- A region, if there is one, lies inside one RAM range (R8). -/
def regionOk (p : Profile) : Option Region → Bool
  | none   => true
  | some g => p.ranges.any fun r =>
      decide (r.kind = .ram) && decide (r.start ≤ g.start) && decide (g.start + g.length ≤ r.start + r.length)

/-- The legal values of R6's table that R8's list does not repeat (log 8). -/
def legalValues (p : Profile) : Bool :=
  decide (16 ≤ p.addrBits) && p.ranges.all (fun r => decide (1 ≤ r.length)) && decide (1 ≤ p.cpf)
    && decide (1 ≤ p.costs.system) && decide (1 ≤ p.costs.alu) && decide (1 ≤ p.costs.muldiv)
    && decide (1 ≤ p.costs.load) && decide (1 ≤ p.costs.store) && decide (1 ≤ p.costs.branch)
    && decide (1 ≤ p.costs.jump) && decide (1 ≤ p.faultCost)
    && decide (p.evecReset.toNat % 4 = 0) && decide (p.resetPc.toNat % 4 = 0) && decide (p.romBase % 4 = 0)
    && decide (p.evecReset.toNat < 2 ^ p.addrBits) && decide (p.resetPc.toNat < 2 ^ p.addrBits)

/-- The first ProfileError of a profile whose ROM range has the image's length, in R8's order; none if it is valid. -/
def profileError (p : Profile) : Option ProfileError :=
  if !noOverlap p.ranges then some .overlap
  else if !p.ranges.all (fun r => decide (r.start + r.length ≤ 2 ^ p.addrBits)) then some .outsideAddressSpace
  else if p.ranges.countP (fun r => decide (r.kind = .rom)) ≠ 1
      ∨ !p.ranges.all (fun r => decide (r.kind = .rom → r.start = p.romBase)) then some .romRange
  else if !p.ranges.all (fun r => decide (r.kind = .rom → p.romSizes.contains r.length)) then some .romSize
  else if !deviceRangesOk p p.devices 0 ∨ !p.ranges.all (rangeNamesDevice p) then some .deviceRange
  else if !p.devices.all (fun d => decide (d.irqLine ≤ 7)) then some .irqLine
  else if !regionOk p p.fbRegion ∨ !regionOk p p.audioRegion then some .region
  else if p.xlen.bits < p.addrBits then some .addrBits
  else if p.nregs < 1 ∨ 16 < p.nregs then some .nregs
  else if p.fpCap then some .fpCap
  else if !legalValues p then some .illegalValue
  else none

/-- The reset state of a machine of a valid profile over a ROM image (R40, R170). -/
def resetState (p : Profile) (rom : List Byte) : State :=
  { State.reset with
    profile := p
    pc      := p.resetPc
    evec    := p.evecReset
    mem     := Memory.writeBytes [] p.romBase rom
    devs    := p.devices.map DevState.reset }

/-- Construct(profile, rom) (R169, R170). -/
def State.construct (p : Profile) (rom : List Byte) : Except ProfileError State :=
  match profileError (withRomLength p rom.length) with
  | some e => .error e
  | none   => .ok (resetState (withRomLength p rom.length) rom)

end Sys2Proof.Machine
end

