-- ==== Sys2Proof/Machine/HostInterface.lean ====
section
/-! DEFINITION. The host's interactions with a machine (R172): the calls, when each is allowed, and what it returns. -/

namespace Sys2Proof.Machine

/-- The requests that arrive while one RunFrame runs, from inside observe included (R165, R172): whether a RequestStop does,
and whether a RequestCapture does. -/
structure Requests where
  stop    : Bool
  capture : Bool
deriving DecidableEq, Repr

/-- The host's calls on a machine (R172). Construct makes a machine (State.construct) and observe is the core's call of
the host (Config.observe), so neither stands here. RunFrame and RunUntilStop may never return, so they carry how long they
are watched: `iterations` of each burst's loop, and for RunUntilStop as many frames as `during` has entries. `during` holds
the requests that arrive while the call runs, frame by frame (log 9). -/
inductive HostCall where
  | runFrame (during : Requests) (iterations : Nat)
  | runUntilStop (during : List Requests) (iterations : Nat)
  | requestStop
  | requestCapture
  | capture
  | restore (blob : List Byte)
  | outputViews
deriving DecidableEq, Repr

/-- What a call returns to the host, or hands to it while it runs (R162, R172). `reports` are those of the frames that the
call has completed, oldest first: each has the return value of its RunFrame, the requests rejected with
PatchError.InvalidTarget and the snapshot handed over at boundary step (3). `returned` is the return of RunFrame and
RunUntilStop, whose return value is the last report's; `running` says that the call has not returned yet. -/
inductive HostReply where
  | unit
  | returned (reports : List FrameReport)
  | running (reports : List FrameReport)
  | refused (r : Refusal) (reports : List FrameReport)
  | blob (bytes : List Byte)
  | snapshotError (e : SnapshotError)
  | views (fb audio : Option (List Byte))
deriving DecidableEq, Repr

/-- The bytes of an output region (R174). -/
def regionBytes (m : Memory) (g : Option Region) : Option (List Byte) := g.map fun g => m.readBytes g.start g.length

/-- The host asks for a stop after the current frame (R38, R165). -/
def State.requestStop (s : State) : State := { s with stopReq := true }

/-- The host asks for a capture at boundary step (3) (R38, R162). -/
def State.requestCapture (s : State) : State := { s with captureReq := true }

/-- The requests of one frame arrive. The flags are read only after observe returns (R162), so it makes no difference at
which moment of the frame until then (log 9). -/
def State.arrive (s : State) (q : Requests) : State :=
  { s with stopReq := s.stopReq || q.stop, captureReq := s.captureReq || q.capture }

/-- A reply of a call, with the reports of the frames that came before what it replies to. -/
def HostReply.withEarlier (reports : List FrameReport) : HostReply → HostReply
  | .returned rs    => .returned (reports ++ rs)
  | .running rs     => .running (reports ++ rs)
  | .refused r rs   => .refused r (reports ++ rs)
  | .unit           => .unit
  | .blob b         => .blob b
  | .snapshotError e => .snapshotError e
  | .views fb audio => .views fb audio

/-- One RunFrame() with the requests that arrive while it runs: its reply and the machine after it (R162, R172). -/
def State.runFrameCall (k : Nat) (s : State) (during : Requests) : HostReply × State :=
  match (s.arrive during).runFrame k with
  | .refused r => (.refused r [], s)
  | .fault f   => nomatch f
  | .next t    =>
    match t.phase with
    | .inBurst  => (.running [], t)
    | .boundary => (.returned t.report.toList, t)

/-- RunUntilStop() (R165) from a boundary, watched for one frame per entry of the list: it calls RunFrame until one
returns Stopped or the status Halted, and goes on after any other that returned. -/
def State.runUntilStop (k : Nat) (s : State) : List Requests → HostReply × State
  | []      => (.running [], s)
  | q :: qs =>
    match s.runFrameCall k q with
    | (.returned reports, t) =>
      if t.stopsRun then (.returned reports, t)
      else
        let rest := State.runUntilStop k t qs
        (rest.1.withEarlier reports, rest.2)
    | (reply, t) => (reply, t)

/-- One host call: its reply and the machine after it. A refused call leaves the machine as it was. -/
def State.hostCall (s : State) : HostCall → HostReply × State
  | .runFrame during k => s.runFrameCall k during
  | .runUntilStop during k =>
    match s.phase with
    | .inBurst  => (.refused .outOfPhase [], s)
    | .boundary => s.runUntilStop k during
  | .requestStop    => (.unit, s.requestStop)
  | .requestCapture => (.unit, s.requestCapture)
  | .capture =>
    match s.hostCapture with
    | .ok b    => (.blob b, s)
    | .error e => (.snapshotError e, s)
  | .restore b =>
    match s.restore b with
    | .ok t    => (.unit, t)
    | .error e => (.snapshotError e, s)
  | .outputViews =>
    match s.phase with
    | .inBurst  => (.refused .outOfPhase [], s)
    | .boundary => (.views (regionBytes s.mem s.profile.fbRegion) (regionBytes s.mem s.profile.audioRegion), s)

end Sys2Proof.Machine
end

