-- ==== Sys2Proof/Safety.lean ====
section
/-! DEFINITION. What a legal state of the machine is, in the terms claims use, and what it means that an operation leaves
the rest of the machine alone. -/

namespace Sys2Proof.Machine

/-! ### The invariant of a constructed machine -/

/-- Every register value fits XLEN bits, and the places of registers the profile does not have hold 0 (R17). -/
def State.registersFit (s : State) : Prop :=
  ∀ i : Fin 16, s.regs[i].toNat < 2 ^ s.profile.xlen.bits ∧ (s.profile.nregs ≤ i.val → s.regs[i] = 0)

/-- pc, EPC and EVEC fit ADDR_BITS bits, BADADDR and SCRATCH fit XLEN bits (R20, R28, R29, R31, R32). -/
def State.controlFits (s : State) : Prop :=
  s.pc.toNat < 2 ^ s.profile.addrBits ∧ s.epc.toNat < 2 ^ s.profile.addrBits
    ∧ s.evec.toNat < 2 ^ s.profile.addrBits
    ∧ s.badaddr.toNat < 2 ^ s.profile.xlen.bits ∧ s.scratch.toNat < 2 ^ s.profile.xlen.bits

/-- EVEC[1:0] are hardwired 0 (R32). -/
def State.vectorAligned (s : State) : Prop := s.evec.toNat % 4 = 0

/-- Memory is in canonical form. -/
def State.memoryCanonical (s : State) : Prop := s.mem.wf

/-- An address lies in a RAM or ROM range. -/
def inMemory (p : Profile) (a : Nat) : Prop :=
  ∃ r ∈ p.ranges, (r.kind = .ram ∨ r.kind = .rom) ∧ r.start ≤ a ∧ a < r.start + r.length

/-- Memory lists only bytes of RAM and ROM ranges (R16, R42). -/
def State.memoryMapped (s : State) : Prop := ∀ c ∈ s.mem, inMemory s.profile c.1

/-- There is one device state per device of the profile, in order, each one its device can be in (R16, R58). -/
def State.devicesFit (s : State) : Prop :=
  List.Forall₂ (fun d st => DevState.fits d st = true) s.profile.devices s.devs

/-- Every queued request is one that was accepted (R37, R184). -/
def State.queueValid (s : State) : Prop := ∀ r ∈ s.queue, patchValid s.profile r = true

/-- A frame in progress has a target below 2^64 (R155). -/
def State.frameBounded (s : State) : Prop := s.phase = .inBurst → s.frameTarget < 2 ^ 64

/-- The machine is one that construction, steps and host calls can lead to, as far as the spec bounds its state. -/
structure State.Inv (s : State) : Prop where
  profileLegal    : profileError s.profile = none
  registersFit    : s.registersFit
  controlFits     : s.controlFits
  vectorAligned   : s.vectorAligned
  memoryCanonical : s.memoryCanonical
  memoryMapped    : s.memoryMapped
  devicesFit      : s.devicesFit
  queueValid      : s.queueValid
  frameBounded    : s.frameBounded

/-! ### Profiles that construct (R6, R8) -/

/-- A profile and a ROM image that meet R8, and the legal values of R6 that R8 does not list (log 8): what construction
needs. -/
structure LegalProfile (p : Profile) (rom : List Byte) : Prop where
  apart        : ∀ (j k : Nat) (r1 r2 : Range) (a : Nat), j ≠ k →
                   (withRomLength p rom.length).ranges[j]? = some r1 → (withRomLength p rom.length).ranges[k]? = some r2 →
                   ¬ (rangeHas r1 a = true ∧ rangeHas r2 a = true)
  inside       : ∀ r ∈ (withRomLength p rom.length).ranges, 1 ≤ r.length ∧ r.start + r.length ≤ 2 ^ p.addrBits
  oneRom       : p.ranges.countP (fun r => decide (r.kind = .rom)) = 1
  romStart     : ∀ r ∈ p.ranges, r.kind = .rom → r.start = p.romBase
  romSize      : rom.length ∈ p.romSizes
  deviceRanges : ∀ (n : Nat) (d : DeviceDecl), p.devices[n]? = some d → ⟨d.start, d.length, .device n⟩ ∈ p.ranges
  rangeDevices : ∀ r ∈ p.ranges, ∀ n, r.kind = .device n →
                   ∃ d, p.devices[n]? = some d ∧ d.start = r.start ∧ d.length = r.length
  irqLines     : ∀ d ∈ p.devices, d.irqLine ≤ 7
  regions      : ∀ g, p.fbRegion = some g ∨ p.audioRegion = some g →
                   ∃ r ∈ p.ranges, r.kind = .ram ∧ r.start ≤ g.start ∧ g.start + g.length ≤ r.start + r.length
  addrBits     : 16 ≤ p.addrBits ∧ p.addrBits ≤ p.xlen.bits
  nregs        : 1 ≤ p.nregs ∧ p.nregs ≤ 16
  noFp         : p.fpCap = false
  cycles       : 1 ≤ p.cpf ∧ 1 ≤ p.faultCost ∧ ∀ c, 1 ≤ p.costs.of c
  aligned      : p.evecReset.toNat % 4 = 0 ∧ p.resetPc.toNat % 4 = 0 ∧ p.romBase % 4 = 0
  addresses    : p.evecReset.toNat < 2 ^ p.addrBits ∧ p.resetPc.toNat < 2 ^ p.addrBits

/-! ### Blobs that Restore accepts (R177, R179) -/

/-- The u64 at field k of a blob's registers and CPU fields, which start at offset 24 (R177). -/
def blobField (b : List Byte) (k : Nat) : Nat := leNatAt b (24 + 8 * k) 8

/-- Check 3 of R179, on the registers (fields 0 to NREGS - 1) and the eleven CPU fields after them: pc, STATUS, CAUSE.CODE,
EPC, BADADDR, SCRATCH, EVEC, run kind, fatal code, fatal epc, fatal info. -/
structure CpuFieldsPass (p : Profile) (b : List Byte) : Prop where
  registers : ∀ k < p.nregs, blobField b k < 2 ^ p.xlen.bits
  pc        : blobField b p.nregs < 2 ^ p.addrBits
  status    : blobField b (p.nregs + 1) < 2 ^ 16 ∧ blobField b (p.nregs + 1) / 8 % 32 = 0
  code      : blobField b (p.nregs + 2) ≤ 9
  epc       : blobField b (p.nregs + 3) < 2 ^ p.addrBits
  badaddr   : blobField b (p.nregs + 4) < 2 ^ p.xlen.bits
  scratch   : blobField b (p.nregs + 5) < 2 ^ p.xlen.bits
  evec      : blobField b (p.nregs + 6) < 2 ^ p.addrBits ∧ blobField b (p.nregs + 6) % 4 = 0
  runKind   : blobField b (p.nregs + 7) ≤ 2
  noFatal   : blobField b (p.nregs + 7) ≠ 2 →
                blobField b (p.nregs + 8) = 0 ∧ blobField b (p.nregs + 9) = 0 ∧ blobField b (p.nregs + 10) = 0
  fatalCode : blobField b (p.nregs + 7) = 2 → blobField b (p.nregs + 8) ≤ 9

/-- Check 4 of R179 on one device record: a u32 length, as many bytes, and these deserialize. -/
def deviceRecordPasses (d : DeviceDecl) (rec : List Byte) : Prop :=
  rec.length = 4 + leNatAt rec 0 4 ∧ ∃ st, DevState.deserialize d (rec.drop 4) = some st

/-- Check 5 of R179 on one memory record: the range's start and length as u64, and as many bytes. -/
def memoryRecordPasses (r : Range) (rec : List Byte) : Prop :=
  rec.length = 16 + r.length ∧ leNatAt rec 0 8 = r.start ∧ leNatAt rec 8 8 = r.length

/-- Checks 3 to 6 of R179: the header, the registers and the CPU fields, then one record per device in profile order, then
one record per RAM or ROM range in ascending order, and no byte after the last record. -/
def passesChecks (p : Profile) (b : List Byte) : Prop :=
  ∃ (head : List Byte) (devs mems : List (List Byte)), b = head ++ devs.flatten ++ mems.flatten ∧
    head.length = 24 + 8 * (p.nregs + 11) ∧ CpuFieldsPass p b ∧
    List.Forall₂ deviceRecordPasses p.devices devs ∧ List.Forall₂ memoryRecordPasses (memRanges p) mems

/-! ### What stays -/

/-- Only the registers and pc may differ. -/
def sameButRegsPc (s t : State) : Prop := { t with regs := s.regs, pc := s.pc } = s

/-- Only register rd and pc may differ: all other registers, every control register, the status, memory, devices and
scheduler state are equal (R82). -/
def onlyRegPc (rd : Reg) (s t : State) : Prop :=
  sameButRegsPc s t ∧ ∀ i : Fin 16, i.val ≠ rd.toNat → t.regs[i] = s.regs[i]

/-- Only pc may differ. -/
def onlyPc (s t : State) : Prop := { t with pc := s.pc } = s

/-- Only memory and pc may differ. -/
def onlyMemPc (s t : State) : Prop := { t with mem := s.mem, pc := s.pc } = s

/-- Only device states, register rd and pc may differ. -/
def onlyDevsRegPc (rd : Reg) (s t : State) : Prop :=
  { t with devs := s.devs, regs := s.regs, pc := s.pc } = s ∧ ∀ i : Fin 16, i.val ≠ rd.toNat → t.regs[i] = s.regs[i]

/-- Only device states and pc may differ. -/
def onlyDevsPc (s t : State) : Prop := { t with devs := s.devs, pc := s.pc } = s

/-- A trap with cause c, return address epc and info was delivered (R150): the saved context, the status and pc are the
ones trap entry writes, and nothing else differs. -/
def trapDelivered (c : Cause) (epc : Addr) (info : Word) (s t : State) : Prop :=
  t.epc = epc ∧ t.causeCode = c ∧ t.badaddr = info ∧ t.pc = s.evec
    ∧ t.status = ⟨false, true, s.status.ie, s.status.im⟩
    ∧ { t with epc := s.epc, causeCode := s.causeCode, badaddr := s.badaddr, pc := s.pc, status := s.status } = s

/-- A trap could not be delivered (R150): the machine is halted with Fatal and nothing else differs. -/
def trapFatal (c : Cause) (epc : Addr) (info : Word) (s t : State) : Prop :=
  t.run = .halted (.fatal c epc info) ∧ { t with run := s.run } = s

/-- A synchronous exception with cause c was taken at the instruction's own address: delivered when the platform has a
vector and no handler runs, else fatal (R150, R151). -/
def exceptionTaken (c : Cause) (info : Word) (s t : State) : Prop :=
  (s.profile.hasVector = true ∧ s.status.exl = false → trapDelivered c s.pc info s t)
    ∧ (s.profile.hasVector = false ∨ s.status.exl = true → trapFatal c s.pc info s t)

/-! ### Numbers that claims compare with -/

/-- The two's-complement reading of an n-bit number (R10). -/
def signedValue (n v : Nat) : Int := if v < 2 ^ (n - 1) then v else v - 2 ^ n

/-- An integer as an n-bit number (R10's trunc). -/
def wrapped (n : Nat) (i : Int) : Nat := (i % 2 ^ n).toNat

/-- XLEN of a machine. -/
def State.width (s : State) : Nat := s.profile.xlen.bits

/-- The unsigned value of a register (R10). -/
def State.uval (s : State) (r : Reg) : Nat := (s.readReg r).toNat

/-- The signed value of a register (R10). -/
def State.sval (s : State) (r : Reg) : Int := signedValue s.width (s.uval r)

/-- The number that n bytes of memory stand for, the byte at a being the least significant (R45). -/
def littleEndian (m : Memory) (a n : Nat) : Nat := ∑ k ∈ Finset.range n, (m.read (a + k)).toNat * 256 ^ k

/-! ### Where instructions complete -/

/-- ADDR_BITS is at most XLEN (R6, R8). -/
def addressesFit (p : Profile) : Prop := p.addrBits ≤ p.xlen.bits

/-- An n-byte access at a is aligned, or the platform tolerates it (R47, R48). -/
def alignedFor (p : Profile) (a n : Nat) : Prop := p.align = .strict → a % n = 0

/-- An n-byte access at a lies inside a range of one of the given kinds (R44). -/
def insideRange (p : Profile) (kinds : RangeKind → Prop) (a n : Nat) : Prop :=
  ∃ r, findRange p a = some r ∧ kinds r.kind ∧ a + n ≤ r.start + r.length

/-- An n-byte read at a reaches RAM or ROM (R52). -/
def memoryAccess (p : Profile) (a : Addr) (n : Nat) : Prop :=
  alignedFor p a.toNat n ∧ insideRange p (fun k => k = .ram ∨ k = .rom) a.toNat n

/-- An n-byte write at a reaches RAM (R53). -/
def ramAccess (p : Profile) (a : Addr) (n : Nat) : Prop :=
  alignedFor p a.toNat n ∧ insideRange p (fun k => k = .ram) a.toNat n

/-- An n-byte access at a reaches device d, whose range starts at `start` (R52, R53, R59). -/
def deviceAccess (p : Profile) (a : Addr) (n d start : Nat) : Prop :=
  alignedFor p a.toNat n ∧ ∃ r, findRange p a.toNat = some r ∧ r.kind = .device d ∧ r.start = start ∧
    a.toNat + n ≤ r.start + r.length

/-- The instruction completes: x[rd] is the value v, pc moves on by 4, and nothing else changes (R82). -/
def completesWith (i : Instr) (rd : Reg) (v : Nat) (s : State) : Prop :=
  ∃ t, exec i s = .next t ∧ t.uval rd = v ∧ t.pc = nextPc s.profile s.pc ∧ onlyRegPc rd s t

/-- The instruction has the word w and completes with the value v in rd. -/
def wordCompletesWith (w : BitVec 32) (i : Instr) (rd : Reg) (v : Nat) (s : State) : Prop :=
  encode i = w ∧ completesWith i rd v s

/-- An instruction that raises a synchronous exception answers the machine with that exception taken. -/
def raises (i : Instr) (c : Cause) (info : Word) (s : State) : Prop :=
  ∃ t, exec i s = .next t ∧ exceptionTaken c info s t

/-- The outcome of a load of width w at address ea whose loaded number v is extended to `value v`: LOAD_MISALIGNED,
LOAD_BUS, a value from RAM or ROM, or what the device answers (R52, R110–R112). -/
def loadOutcome (i : Instr) (w : Width) (value : Nat → Nat) (rd : Reg) (ea : Addr) (s : State) : Prop :=
  (¬ alignedFor s.profile ea.toNat (widthBytes w) → raises i .loadMisaligned ea s) ∧
  (alignedFor s.profile ea.toNat (widthBytes w) →
    ¬ insideRange s.profile (fun _ => True) ea.toNat (widthBytes w) → raises i .loadBus ea s) ∧
  (memoryAccess s.profile ea (widthBytes w) →
    completesWith i rd (value (littleEndian s.mem ea.toNat (widthBytes w))) s) ∧
  (∀ d start, deviceAccess s.profile ea (widthBytes w) d start → ∀ dev, s.devs[d]? = some dev →
    (∀ v dev', dev.read (ea.toNat - start) w = some (v, dev') →
      ∃ t, exec i s = .next t ∧ t.uval rd = value v.toNat ∧ t.pc = nextPc s.profile s.pc ∧
        t.devs = s.devs.set d dev' ∧ onlyDevsRegPc rd s t) ∧
    (dev.read (ea.toNat - start) w = none → raises i .loadBus ea s))

/-- The outcome of a store of the low bytes of v at address ea: STORE_MISALIGNED, STORE_BUS, the bytes written to RAM and
no other byte changed, or what the device answers (R53, R110, R119). -/
def storeOutcome (i : Instr) (w : Width) (v : Word) (ea : Addr) (s : State) : Prop :=
  (¬ alignedFor s.profile ea.toNat (widthBytes w) → raises i .storeMisaligned ea s) ∧
  (alignedFor s.profile ea.toNat (widthBytes w) →
    ¬ insideRange s.profile (fun k => k ≠ .rom) ea.toNat (widthBytes w) → raises i .storeBus ea s) ∧
  (ramAccess s.profile ea (widthBytes w) →
    ∃ t, exec i s = .next t ∧ t.pc = nextPc s.profile s.pc ∧ onlyMemPc s t ∧ t.memoryCanonical ∧
      (∀ k < widthBytes w, (t.mem.read (ea.toNat + k)).toNat = v.toNat / 256 ^ k % 256) ∧
      (∀ a, a < ea.toNat ∨ ea.toNat + widthBytes w ≤ a → t.mem.read a = s.mem.read a)) ∧
  (∀ d start, deviceAccess s.profile ea (widthBytes w) d start → ∀ dev, s.devs[d]? = some dev →
    (∀ dev', dev.write (ea.toNat - start) w v = some dev' →
      ∃ t, exec i s = .next t ∧ t.pc = nextPc s.profile s.pc ∧ t.devs = s.devs.set d dev' ∧ onlyDevsPc s t) ∧
    (dev.write (ea.toNat - start) w v = none → raises i .storeBus ea s))

/-- The instruction only sets pc, to the address t. -/
def jumpsTo (i : Instr) (t : Nat) (s : State) : Prop :=
  ∃ u, exec i s = .next u ∧ u.pc.toNat = t ∧ onlyPc s u

/-- The instruction sets pc to the address t and rd to the link value, the address of the next instruction (R123). -/
def linksTo (i : Instr) (rd : Reg) (t : Nat) (s : State) : Prop :=
  ∃ u, exec i s = .next u ∧ u.pc.toNat = t ∧ u.uval rd = (s.pc.toNat + 4) % 2 ^ s.profile.addrBits ∧ onlyRegPc rd s u

/-- pc plus k instructions, wrapped to ADDR_BITS (R20, R74). -/
def State.pcPlus (s : State) (k : Int) : Nat := wrapped s.profile.addrBits (s.pc.toNat + 4 * k)

/-- x[rs1] + simm, wrapped to ADDR_BITS, as a number (R74, R109). -/
def State.baseDisp (s : State) (rs1 : Reg) (imm : BitVec 16) : Nat :=
  wrapped s.profile.addrBits (s.uval rs1 + imm.toInt)

/-! ### Division as the spec words it (R14, R95, R97) -/

/-- DIV's value on signed a and b, n bits: MASK_X, MIN, or the quotient rounded toward zero. -/
def divValue (n : Nat) (a b : Int) : Nat :=
  if b = 0 then 2 ^ n - 1
  else if a = -2 ^ (n - 1) ∧ b = -1 then 2 ^ (n - 1)
  else wrapped n (a.sign * b.sign * (a.natAbs / b.natAbs : Nat))

/-- REM's value on signed a and b, n bits: the dividend, 0, or the remainder with the sign of the dividend. -/
def remValue (n : Nat) (a b : Int) : Nat :=
  if b = 0 then wrapped n a
  else if a = -2 ^ (n - 1) ∧ b = -1 then 0
  else wrapped n (a.sign * (a.natAbs % b.natAbs : Nat))

/-! ### Control registers as numbers (R142) -/

/-- What MFC reads, with the fields of STATUS and CAUSE at their places (R26, R27, R142). -/
def State.controlValue (s : State) : ControlReg → Nat
  | .status  => s.status.ie.toNat + 2 * s.status.exl.toNat + 4 * s.status.pie.toNat + 256 * s.status.im.toNat
  | .cause   => (causeNumber s.causeCode).toNat + 256 * s.ip.toNat
  | .epc     => s.epc.toNat
  | .badaddr => s.badaddr.toNat
  | .cycle   => s.cycles.toNat % 2 ^ s.width
  | .scratch => s.scratch.toNat
  | .evec    => s.evec.toNat

/-! ### Encodings as the spec lists them -/

/-- The reserved opcodes (R78). -/
def reservedOpcode (op : BitVec 8) : Prop :=
  op.toNat = 0x00 ∨ (0x08 ≤ op.toNat ∧ op.toNat ≤ 0x0F) ∨ op.toNat = 0x1F ∨ (0x2A ≤ op.toNat ∧ op.toNat ≤ 0x2F)
    ∨ op.toNat = 0x37 ∨ (0x3C ≤ op.toNat ∧ op.toNat ≤ 0x3F) ∨ op.toNat = 0x46 ∨ op.toNat = 0x47 ∨ 0x4C ≤ op.toNat

/-- Every field that the word's format requires to be zero is zero (R76 check 2). -/
def zeroFieldsOk (w : BitVec 32) : Prop :=
  let op := (opField w).toNat
  (0x01 ≤ op ∧ op ≤ 0x05 → w.extractLsb' 0 24 = 0) ∧
  (0x10 ≤ op ∧ op ≤ 0x1E → w.extractLsb' 0 12 = 0) ∧
  (op = 0x06 ∨ op = 0x29 → w.extractLsb' 16 4 = 0) ∧
  (op = 0x07 ∨ op = 0x4A ∨ op = 0x4B → w.extractLsb' 20 4 = 0) ∧
  (0x24 ≤ op ∧ op ≤ 0x26 → w.extractLsb' 6 10 = 0)

/-- The cost of an opcode, by R75's class column (R189). -/
def opcodeCost (c : Costs) (op : BitVec 8) : Nat :=
  if op.toNat ≤ 0x07 then c.system
  else if op.toNat ≤ 0x19 then c.alu
  else if op.toNat ≤ 0x1E then c.muldiv
  else if op.toNat ≤ 0x29 then c.alu
  else if op.toNat ≤ 0x36 then c.load
  else if op.toNat ≤ 0x3B then c.store
  else if op.toNat ≤ 0x45 then c.branch
  else c.jump

/-! ### What instructions may write -/

/-- The register an instruction writes, if it writes one (R18). -/
def destOf : Instr → Option Reg
  | .mfc rd _ | .lui rd _ | .jal rd _ => some rd
  | .add rd _ _ | .sub rd _ _ | .and rd _ _ | .or rd _ _ | .xor rd _ _ | .sll rd _ _ | .srl rd _ _ | .sra rd _ _
  | .slt rd _ _ | .sltu rd _ _ | .mul rd _ _ | .div rd _ _ | .divu rd _ _ | .rem rd _ _ | .remu rd _ _ => some rd
  | .addi rd _ _ | .andi rd _ _ | .ori rd _ _ | .xori rd _ _ | .slti rd _ _ | .sltiu rd _ _ | .jalr rd _ _ => some rd
  | .slli rd _ _ | .srli rd _ _ | .srai rd _ _ => some rd
  | .lb rd _ _ | .lbu rd _ _ | .lh rd _ _ | .lhu rd _ _ | .lw rd _ _ | .lwu rd _ _ | .ld rd _ _ => some rd
  | .nop | .halt | .syscall | .brk | .eret | .mtc _ _ | .j _ | .jr _ _ => none
  | .sb _ _ _ | .sh _ _ _ | .sw _ _ _ | .sd _ _ _ => none
  | .beq _ _ _ | .bne _ _ _ | .blt _ _ _ | .bge _ _ _ | .bltu _ _ _ | .bgeu _ _ _ => none

/-- The instruction can raise an exception when it executes (R110, R139, R140). -/
def mayRaise (i : Instr) : Prop := classOf i = .load ∨ classOf i = .store ∨ i = .syscall ∨ i = .brk

/-- The width, base register and immediate of the one access that a load or a store makes (R109). -/
def accessOf : Instr → Option (Width × Reg × BitVec 16)
  | .lb _ rs1 imm | .lbu _ rs1 imm | .sb _ rs1 imm => some (.b1, rs1, imm)
  | .lh _ rs1 imm | .lhu _ rs1 imm | .sh _ rs1 imm => some (.b2, rs1, imm)
  | .lw _ rs1 imm | .lwu _ rs1 imm | .sw _ rs1 imm => some (.b4, rs1, imm)
  | .ld _ rs1 imm | .sd _ rs1 imm => some (.b8, rs1, imm)
  | .nop | .halt | .syscall | .brk | .eret | .mfc _ _ | .mtc _ _ | .lui _ _ => none
  | .add _ _ _ | .sub _ _ _ | .and _ _ _ | .or _ _ _ | .xor _ _ _ | .sll _ _ _ | .srl _ _ _ | .sra _ _ _
  | .slt _ _ _ | .sltu _ _ _ | .mul _ _ _ | .div _ _ _ | .divu _ _ _ | .rem _ _ _ | .remu _ _ _ => none
  | .addi _ _ _ | .andi _ _ _ | .ori _ _ _ | .xori _ _ _ | .slli _ _ _ | .srli _ _ _ | .srai _ _ _ | .slti _ _ _
  | .sltiu _ _ _ => none
  | .beq _ _ _ | .bne _ _ _ | .blt _ _ _ | .bge _ _ _ | .bltu _ _ _ | .bgeu _ _ _ => none
  | .jal _ _ | .jalr _ _ _ | .j _ | .jr _ _ => none

/-- The instruction is MTC of the register cr (R143). -/
def writesControl (cr : WritableReg) (i : Instr) : Prop := ∃ rs1, i = .mtc cr rs1

/-- The scheduler's state and the configuration are the same. -/
def sameScheduler (s t : State) : Prop :=
  t.profile = s.profile ∧ t.cycles = s.cycles ∧ t.frame = s.frame ∧ t.phase = s.phase ∧ t.queue = s.queue
    ∧ t.stopReq = s.stopReq ∧ t.captureReq = s.captureReq ∧ t.cStart = s.cStart ∧ t.report = s.report

/-! ### The step and the frame -/

/-- The instruction word that memory holds at an address (R45, R56). -/
def State.wordAt (s : State) (a : Nat) : BitVec 32 :=
  wordOfBytes (s.mem.read a) (s.mem.read (a + 1)) (s.mem.read (a + 2)) (s.mem.read (a + 3))

/-- The four bytes at an address lie in a RAM or ROM range, as a fetch needs (R56). -/
def fetchable (p : Profile) (a : Nat) : Prop := insideRange p (fun k => k = .ram ∨ k = .rom) a 4

/-- n steps in a row. -/
def runSteps : Nat → State → Result
  | 0, s     => .next s
  | n + 1, s =>
    match step s with
    | .next t    => runSteps n t
    | .fault f   => .fault f
    | .refused r => .refused r

/-- n frames in a row, each watched for k iterations of its burst; the run ends early in a frame that has not returned by
then (R162). -/
def runFrames (k : Nat) : Nat → State → Result
  | 0, s     => .next s
  | n + 1, s =>
    match s.runFrame k with
    | .next t    =>
      match t.phase with
      | .boundary => runFrames k n t
      | .inBurst  => .next t
    | .fault f   => .fault f
    | .refused r => .refused r

/-- Two runs end alike: both in machines of one phase with the same state of R176, or both stopped for the same reason. -/
def sameEnd : Result → Result → Prop
  | .next a, .next b       => a.phase = b.phase ∧ a.capture = b.capture
  | .fault f, .fault g     => f = g
  | .refused r, .refused q => r = q
  | _, _ => False

/-- The report of a frame after which RunUntilStop returns: Stopped, or the status Halted (R165). -/
def endsRun (rep : FrameReport) : Prop := rep.stopped = true ∨ rep.status ≠ .running

/-- What the view of an output region holds: its bytes in ascending order, if the profile defines it (R174). -/
def regionView (m : Memory) (g : Option Region) : Option (List Byte) :=
  g.map fun g => (List.range g.length).map fun j => m.read (g.start + j)

/-- A CPU step is what the machine does next: a burst is in progress below its target and the CPU is Running (R161). -/
def State.cpuIsNext (s : State) : Prop :=
  s.phase = .inBurst ∧ s.run = .running ∧ s.cycles.toNat < s.frameTarget

/-- The largest cost of a step (R161, R189). -/
def maxCost (p : Profile) : Nat :=
  max p.faultCost (max p.costs.system (max p.costs.alu (max p.costs.muldiv (max p.costs.load (max p.costs.store
    (max p.costs.branch p.costs.jump))))))

/-- Every cost is at least 1 (R6). -/
def costsLegal (p : Profile) : Prop :=
  1 ≤ p.faultCost ∧ ∀ c, 1 ≤ p.costs.of c

/-- Every Timer has counted the cycles and frames of the machine: at a boundary up to `cycles`, in a burst up to the
burst's start (R156, R163). -/
def State.timersInStep (s : State) : Prop :=
  ∀ d ∈ s.devs, ∀ t, d = .timer t →
    t.frames = s.frame ∧ t.count = match s.phase with
      | .boundary => s.cycles
      | .inBurst  => s.cStart

end Sys2Proof.Machine
end

