-- ==== Sys2Proof/Certificates/Slice0/Obligations.lean ====
section
/-! DEFINITION. The statements for the provers, each from numbered rules of spec/ (OBLIGATIONS.json lists them). -/

open Sys2Proof Sys2Proof.Machine

/-! ### Encoding -/

/-- Decoding the word of a well-formed instruction gives that instruction back, for every profile (R71, R72, R75, R76,
R77). -/
def Obligations.DecodeOfEncode : Prop :=
  ∀ (p : Profile) (i : Instr), i.wellFormed p = true → decode p (encode i) = .ok i

/-- A word that decodes is the word of a well-formed instruction, so each instruction has one word (R71, R72, R75,
R76, R77). -/
def Obligations.EncodeOfDecode : Prop :=
  ∀ (p : Profile) (w : BitVec 32) (i : Instr), decode p w = .ok i → i.wellFormed p = true ∧ encode i = w

/-- The thirteen example words of the spec decode to the instructions they stand for (R81). -/
def Obligations.ExampleWords : Prop :=
  decode Profile.ref1 0x10123000 = .ok (.add 1 2 3) ∧
  decode Profile.ref1 0x20000001 = .ok (.addi 0 0 1) ∧
  decode Profile.ref1 0x2011FFFF = .ok (.addi 1 1 (-1)) ∧
  decode Profile.ref1 0x29202000 = .ok (.lui 2 0x2000) ∧
  decode Profile.ref1 0x3A120008 = .ok (.sw 1 2 8) ∧
  decode Profile.ref1 0x3432FFFC = .ok (.lw 3 2 (-4)) ∧
  decode Profile.ref1 0x4110FFFF = .ok (.bne 1 0 (-1)) ∧
  decode Profile.ref1 0x48300004 = .ok (.jal 3 4) ∧
  decode Profile.ref1 0x4A0FFFFE = .ok (.j (-2)) ∧
  decode Profile.ref1 0x4B030000 = .ok (.jr 3 0) ∧
  decode Profile.ref1 0x06100001 = .ok (.mfc 1 .cause) ∧
  decode Profile.ref1 0x07020006 = .ok (.mtc .evec 2) ∧
  decode Profile.ref1 0x02000000 = .ok .halt

/-- A word is reserved for its opcode exactly when its opcode is one of the spec's list (R76, R78). -/
def Obligations.ReservedOpcodes : Prop :=
  ∀ p : Profile,
    (∀ w : BitVec 32, decode p w = .error .opcode ↔ reservedOpcode (opField w)) ∧
    decode p 0x00000000 = .error .opcode ∧ decode p 0xFFFFFFFF = .error .opcode

/-- LWU, LD and SD are reserved at XLEN = 32, and at XLEN = 64 all 53 opcodes are defined (R77). -/
def Obligations.XlenGate : Prop :=
  ∀ p : Profile,
    (p.xlen = .x32 → ∀ w : BitVec 32, opField w = 0x35 ∨ opField w = 0x36 ∨ opField w = 0x3B →
      ∃ e, decode p w = .error e) ∧
    (p.xlen = .x64 → 1 ≤ p.nregs → ∀ op : BitVec 8, ¬ reservedOpcode op →
      ∃ w i, opField w = op ∧ decode p w = .ok i)

/-- A defined opcode is refused by check 2 exactly when a field its format requires to be zero is not (R76, R72). -/
def Obligations.ZeroFieldCheck : Prop :=
  ∀ (p : Profile) (w : BitVec 32),
    decode p w = .error .mustBeZero ↔ ¬ reservedOpcode (opField w) ∧ ¬ zeroFieldsOk w

/-! ### Integer instructions -/

/-- ADD, SUB and MUL complete with the exact result wrapped to XLEN bits (R84, R85, R94). -/
def Obligations.AddSubMulResults : Prop :=
  ∀ (rd rs1 rs2 : Reg) (s : State),
    wordCompletesWith (0x10#8 ++ rd ++ rs1 ++ rs2 ++ 0#12) (.add rd rs1 rs2) rd
      (wrapped s.width ((s.uval rs1 : Int) + s.uval rs2)) s ∧
    wordCompletesWith (0x11#8 ++ rd ++ rs1 ++ rs2 ++ 0#12) (.sub rd rs1 rs2) rd
      (wrapped s.width ((s.uval rs1 : Int) - s.uval rs2)) s ∧
    wordCompletesWith (0x1A#8 ++ rd ++ rs1 ++ rs2 ++ 0#12) (.mul rd rs1 rs2) rd
      (wrapped s.width ((s.uval rs1 : Int) * s.uval rs2)) s

/-- AND, OR, XOR and ANDI, ORI, XORI complete with the bitwise result; immediates are zero-extended (R86, R87, R88,
R100, R101, R102). -/
def Obligations.BitwiseResults : Prop :=
  ∀ (rd rs1 rs2 : Reg) (imm : BitVec 16) (s : State),
    wordCompletesWith (0x12#8 ++ rd ++ rs1 ++ rs2 ++ 0#12) (.and rd rs1 rs2) rd (s.uval rs1 &&& s.uval rs2) s ∧
    wordCompletesWith (0x13#8 ++ rd ++ rs1 ++ rs2 ++ 0#12) (.or rd rs1 rs2) rd (s.uval rs1 ||| s.uval rs2) s ∧
    wordCompletesWith (0x14#8 ++ rd ++ rs1 ++ rs2 ++ 0#12) (.xor rd rs1 rs2) rd (s.uval rs1 ^^^ s.uval rs2) s ∧
    wordCompletesWith (0x21#8 ++ rd ++ rs1 ++ imm) (.andi rd rs1 imm) rd (s.uval rs1 &&& imm.toNat) s ∧
    wordCompletesWith (0x22#8 ++ rd ++ rs1 ++ imm) (.ori rd rs1 imm) rd (s.uval rs1 ||| imm.toNat) s ∧
    wordCompletesWith (0x23#8 ++ rd ++ rs1 ++ imm) (.xori rd rs1 imm) rd (s.uval rs1 ^^^ imm.toNat) s

/-- SLL, SRL and SRA shift by the low log2(XLEN) bits of the second operand (R89, R90, R91). -/
def Obligations.ShiftResults : Prop :=
  ∀ (rd rs1 rs2 : Reg) (s : State),
    wordCompletesWith (0x15#8 ++ rd ++ rs1 ++ rs2 ++ 0#12) (.sll rd rs1 rs2) rd
      (wrapped s.width ((s.uval rs1 * 2 ^ (s.uval rs2 % s.width) : Nat) : Int)) s ∧
    wordCompletesWith (0x16#8 ++ rd ++ rs1 ++ rs2 ++ 0#12) (.srl rd rs1 rs2) rd
      (s.uval rs1 / 2 ^ (s.uval rs2 % s.width)) s ∧
    wordCompletesWith (0x17#8 ++ rd ++ rs1 ++ rs2 ++ 0#12) (.sra rd rs1 rs2) rd
      (wrapped s.width (s.sval rs1 / 2 ^ (s.uval rs2 % s.width))) s

/-- SLLI, SRLI and SRAI shift by shamt; a shamt of XLEN or more, or a high immediate bit, is reserved (R103, R104,
R105). -/
def Obligations.ShiftImmediateResults : Prop :=
  (∀ (rd rs1 : Reg) (shamt : BitVec 6) (s : State),
    wordCompletesWith (0x24#8 ++ rd ++ rs1 ++ 0#10 ++ shamt) (.slli rd rs1 shamt) rd
      (wrapped s.width ((s.uval rs1 * 2 ^ shamt.toNat : Nat) : Int)) s ∧
    wordCompletesWith (0x25#8 ++ rd ++ rs1 ++ 0#10 ++ shamt) (.srli rd rs1 shamt) rd
      (s.uval rs1 / 2 ^ shamt.toNat) s ∧
    wordCompletesWith (0x26#8 ++ rd ++ rs1 ++ 0#10 ++ shamt) (.srai rd rs1 shamt) rd
      (wrapped s.width (s.sval rs1 / 2 ^ shamt.toNat)) s) ∧
  (∀ (p : Profile) (w : BitVec 32), opField w = 0x24 ∨ opField w = 0x25 ∨ opField w = 0x26 →
    w.extractLsb' 6 10 ≠ 0 ∨ p.xlen.bits ≤ (w.extractLsb' 0 6).toNat → ∃ e, decode p w = .error e)

/-- SLT, SLTU, SLTI and SLTIU write 1 or 0 by signed or unsigned comparison (R92, R93, R106, R107). -/
def Obligations.ComparisonResults : Prop :=
  ∀ (rd rs1 rs2 : Reg) (imm : BitVec 16) (s : State),
    wordCompletesWith (0x18#8 ++ rd ++ rs1 ++ rs2 ++ 0#12) (.slt rd rs1 rs2) rd
      (if s.sval rs1 < s.sval rs2 then 1 else 0) s ∧
    wordCompletesWith (0x19#8 ++ rd ++ rs1 ++ rs2 ++ 0#12) (.sltu rd rs1 rs2) rd
      (if s.uval rs1 < s.uval rs2 then 1 else 0) s ∧
    wordCompletesWith (0x27#8 ++ rd ++ rs1 ++ imm) (.slti rd rs1 imm) rd
      (if s.sval rs1 < imm.toInt then 1 else 0) s ∧
    wordCompletesWith (0x28#8 ++ rd ++ rs1 ++ imm) (.sltiu rd rs1 imm) rd
      (if s.uval rs1 < wrapped s.width imm.toInt then 1 else 0) s

/-- DIVU and REMU complete for every operand: x/0 is all ones, x%0 is x (R96, R98). -/
def Obligations.UnsignedDivisionResults : Prop :=
  ∀ (rd rs1 rs2 : Reg) (s : State),
    wordCompletesWith (0x1C#8 ++ rd ++ rs1 ++ rs2 ++ 0#12) (.divu rd rs1 rs2) rd
      (if s.uval rs2 = 0 then 2 ^ s.width - 1 else s.uval rs1 / s.uval rs2) s ∧
    wordCompletesWith (0x1E#8 ++ rd ++ rs1 ++ rs2 ++ 0#12) (.remu rd rs1 rs2) rd
      (if s.uval rs2 = 0 then s.uval rs1 else s.uval rs1 % s.uval rs2) s

/-- DIV and REM complete with their corner values, and DIV·b + REM = a modulo 2^XLEN for b not 0 (R95, R97). -/
def Obligations.SignedDivisionResults : Prop :=
  (∀ (rd rs1 rs2 : Reg) (s : State),
    wordCompletesWith (0x1B#8 ++ rd ++ rs1 ++ rs2 ++ 0#12) (.div rd rs1 rs2) rd
      (divValue s.width (s.sval rs1) (s.sval rs2)) s ∧
    wordCompletesWith (0x1D#8 ++ rd ++ rs1 ++ rs2 ++ 0#12) (.rem rd rs1 rs2) rd
      (remValue s.width (s.sval rs1) (s.sval rs2)) s) ∧
  (∀ (rs1 rs2 : Reg) (s : State), s.sval rs2 ≠ 0 →
    wrapped s.width (divValue s.width (s.sval rs1) (s.sval rs2) * s.sval rs2
      + remValue s.width (s.sval rs1) (s.sval rs2)) = s.uval rs1) ∧
  (∀ (rs1 rs2 : Reg) (s : State), s.sval rs2 = 0 → remValue s.width (s.sval rs1) (s.sval rs2) = s.uval rs1)

/-- ADDI adds the sign-extended immediate; LUI writes the immediate shifted by 16 and sign-extended (R99, R108). -/
def Obligations.AddiLuiResults : Prop :=
  ∀ (rd rs1 : Reg) (imm : BitVec 16) (s : State),
    wordCompletesWith (0x20#8 ++ rd ++ rs1 ++ imm) (.addi rd rs1 imm) rd
      (wrapped s.width ((s.uval rs1 : Int) + imm.toInt)) s ∧
    wordCompletesWith (0x29#8 ++ rd ++ 0#4 ++ imm) (.lui rd imm) rd (wrapped s.width (imm.toInt * 65536)) s

/-! ### Loads, stores and the memory bus -/

/-- Every load: the extended value from RAM, ROM or a device, or LOAD_MISALIGNED or LOAD_BUS (R112, R113, R114, R115,
R116, R117, R118). -/
def Obligations.LoadOutcomes : Prop :=
  ∀ (rd rs1 : Reg) (imm : BitVec 16) (s : State),
    let ea := effAddr s.profile (s.readReg rs1) imm
    (encode (.lb rd rs1 imm) = 0x30#8 ++ rd ++ rs1 ++ imm ∧
      loadOutcome (.lb rd rs1 imm) .b1 (fun v => wrapped s.width (signedValue 8 v)) rd ea s) ∧
    (encode (.lbu rd rs1 imm) = 0x31#8 ++ rd ++ rs1 ++ imm ∧ loadOutcome (.lbu rd rs1 imm) .b1 (fun v => v) rd ea s) ∧
    (encode (.lh rd rs1 imm) = 0x32#8 ++ rd ++ rs1 ++ imm ∧
      loadOutcome (.lh rd rs1 imm) .b2 (fun v => wrapped s.width (signedValue 16 v)) rd ea s) ∧
    (encode (.lhu rd rs1 imm) = 0x33#8 ++ rd ++ rs1 ++ imm ∧ loadOutcome (.lhu rd rs1 imm) .b2 (fun v => v) rd ea s) ∧
    (encode (.lw rd rs1 imm) = 0x34#8 ++ rd ++ rs1 ++ imm ∧
      loadOutcome (.lw rd rs1 imm) .b4 (fun v => wrapped s.width (signedValue 32 v)) rd ea s) ∧
    (encode (.lwu rd rs1 imm) = 0x35#8 ++ rd ++ rs1 ++ imm ∧
      (s.profile.xlen = .x64 → loadOutcome (.lwu rd rs1 imm) .b4 (fun v => v) rd ea s)) ∧
    (encode (.ld rd rs1 imm) = 0x36#8 ++ rd ++ rs1 ++ imm ∧
      (s.profile.xlen = .x64 → loadOutcome (.ld rd rs1 imm) .b8 (fun v => v) rd ea s)) ∧
    (s.profile.xlen = .x32 →
      decode s.profile (0x35#8 ++ rd ++ rs1 ++ imm) ≠ .ok (.lwu rd rs1 imm) ∧
      decode s.profile (0x36#8 ++ rd ++ rs1 ++ imm) ≠ .ok (.ld rd rs1 imm))

/-- Every store: its bytes in RAM and no other byte, a device write, or STORE_MISALIGNED or STORE_BUS (R119, R120,
R121, R122). -/
def Obligations.StoreOutcomes : Prop :=
  ∀ (rs2 rs1 : Reg) (imm : BitVec 16) (s : State), s.memoryCanonical →
    let ea := effAddr s.profile (s.readReg rs1) imm
    (encode (.sb rs2 rs1 imm) = 0x38#8 ++ rs2 ++ rs1 ++ imm ∧ storeOutcome (.sb rs2 rs1 imm) .b1 (s.readReg rs2) ea s) ∧
    (encode (.sh rs2 rs1 imm) = 0x39#8 ++ rs2 ++ rs1 ++ imm ∧ storeOutcome (.sh rs2 rs1 imm) .b2 (s.readReg rs2) ea s) ∧
    (encode (.sw rs2 rs1 imm) = 0x3A#8 ++ rs2 ++ rs1 ++ imm ∧ storeOutcome (.sw rs2 rs1 imm) .b4 (s.readReg rs2) ea s) ∧
    (encode (.sd rs2 rs1 imm) = 0x3B#8 ++ rs2 ++ rs1 ++ imm ∧
      (s.profile.xlen = .x64 → storeOutcome (.sd rs2 rs1 imm) .b8 (s.readReg rs2) ea s)) ∧
    (s.profile.xlen = .x32 → decode s.profile (0x3B#8 ++ rs2 ++ rs1 ++ imm) ≠ .ok (.sd rs2 rs1 imm))

/-- The effective address is the base plus the sign-extended immediate, wrapped to ADDR_BITS (R74, R109). -/
def Obligations.EffectiveAddresses : Prop :=
  ∀ (rs1 : Reg) (imm : BitVec 16) (s : State), addressesFit s.profile →
    (effAddr s.profile (s.readReg rs1) imm).toNat = s.baseDisp rs1 imm

/-- A failed access raises the cause of its error kind with info EA and writes nothing (R110, R111, R13). -/
def Obligations.BusErrorsRaise : Prop :=
  ∀ (w : Width) (ext : Word → Word) (r rs1 : Reg) (imm : BitVec 16) (s : State) (e : BusError),
    let ea := effAddr s.profile (s.readReg rs1) imm
    (s.memRead ea w = .error e →
      ∃ t, load w ext r rs1 imm s = .next t ∧
        exceptionTaken (if e = .misaligned then .loadMisaligned else .loadBus) ea s t) ∧
    (s.memWrite ea w (s.readReg r) = .error e →
      ∃ t, store w r rs1 imm s = .next t ∧
        exceptionTaken (if e = .misaligned then .storeMisaligned else .storeBus) ea s t)

/-- The bus reports Misaligned before Unmapped before ReadOnly before Device (R51). -/
def Obligations.BusErrorOrder : Prop :=
  ∀ (s : State) (a : Addr) (w : Width) (v : Word),
    let n := widthBytes w
    (s.memWrite a w v = .error .misaligned ↔ ¬ alignedFor s.profile a.toNat n) ∧
    (s.memWrite a w v = .error .unmapped ↔
      alignedFor s.profile a.toNat n ∧ ¬ insideRange s.profile (fun _ => True) a.toNat n) ∧
    (s.memWrite a w v = .error .readOnly ↔
      alignedFor s.profile a.toNat n ∧ insideRange s.profile (fun k => k = .rom) a.toNat n) ∧
    (s.memWrite a w v = .error .device ↔
      ∃ d start, deviceAccess s.profile a n d start ∧
        (s.devs[d]?.bind fun dev => dev.write (a.toNat - start) w v) = none) ∧
    (s.memRead a w = .error .misaligned ↔ ¬ alignedFor s.profile a.toNat n) ∧
    (s.memRead a w = .error .unmapped ↔
      alignedFor s.profile a.toNat n ∧ ¬ insideRange s.profile (fun _ => True) a.toNat n) ∧
    s.memRead a w ≠ .error .readOnly ∧
    (s.memRead a w = .error .device ↔
      ∃ d start, deviceAccess s.profile a n d start ∧
        (s.devs[d]?.bind fun dev => dev.read (a.toNat - start) w) = none)

/-- A RAM read after a write of the same address and width gives the bytes written (R57, R63). -/
def Obligations.ReadAfterWrite : Prop :=
  ∀ (s : State) (a : Addr) (w : Width) (v : Word), s.memoryCanonical → ramAccess s.profile a (widthBytes w) →
    ∃ t u, s.memWrite a w v = .ok t ∧ t.memRead a w = .ok (u, t) ∧ u.toNat = v.toNat % 256 ^ widthBytes w

/-- A fetch after a store to its address gets the word stored, without any fence (R68, R56). -/
def Obligations.FetchSeesStore : Prop :=
  ∀ (s : State) (a : Addr) (v : Word), s.memoryCanonical → a.toNat % 4 = 0 → ramAccess s.profile a 4 →
    ∃ t, s.memWrite a .b4 v = .ok t ∧ (t.jumpTo a).fetch = .ok (v.setWidth 32)

/-! ### Branches and jumps -/

/-- The six branches go to pc + 4·imm16 on their condition and to pc + 4 otherwise (R126, R127, R128, R129, R130,
R131). -/
def Obligations.BranchOutcomes : Prop :=
  ∀ (rs1 rs2 : Reg) (imm : BitVec 16) (s : State), addressesFit s.profile →
    (encode (.beq rs1 rs2 imm) = 0x40#8 ++ rs1 ++ rs2 ++ imm ∧
      jumpsTo (.beq rs1 rs2 imm) (s.pcPlus (if s.uval rs1 = s.uval rs2 then imm.toInt else 1)) s) ∧
    (encode (.bne rs1 rs2 imm) = 0x41#8 ++ rs1 ++ rs2 ++ imm ∧
      jumpsTo (.bne rs1 rs2 imm) (s.pcPlus (if s.uval rs1 ≠ s.uval rs2 then imm.toInt else 1)) s) ∧
    (encode (.blt rs1 rs2 imm) = 0x42#8 ++ rs1 ++ rs2 ++ imm ∧
      jumpsTo (.blt rs1 rs2 imm) (s.pcPlus (if s.sval rs1 < s.sval rs2 then imm.toInt else 1)) s) ∧
    (encode (.bge rs1 rs2 imm) = 0x43#8 ++ rs1 ++ rs2 ++ imm ∧
      jumpsTo (.bge rs1 rs2 imm) (s.pcPlus (if s.sval rs2 ≤ s.sval rs1 then imm.toInt else 1)) s) ∧
    (encode (.bltu rs1 rs2 imm) = 0x44#8 ++ rs1 ++ rs2 ++ imm ∧
      jumpsTo (.bltu rs1 rs2 imm) (s.pcPlus (if s.uval rs1 < s.uval rs2 then imm.toInt else 1)) s) ∧
    (encode (.bgeu rs1 rs2 imm) = 0x45#8 ++ rs1 ++ rs2 ++ imm ∧
      jumpsTo (.bgeu rs1 rs2 imm) (s.pcPlus (if s.uval rs2 ≤ s.uval rs1 then imm.toInt else 1)) s)

/-- JAL and JALR link pc + 4 and jump, J and JR only jump; sources are read before the link is written (R132, R133,
R134, R135, R123). -/
def Obligations.JumpOutcomes : Prop :=
  ∀ (rd rs1 : Reg) (imm : BitVec 16) (imm20 : BitVec 20) (s : State), addressesFit s.profile →
    (encode (.jal rd imm20) = 0x48#8 ++ rd ++ imm20 ∧ linksTo (.jal rd imm20) rd (s.pcPlus imm20.toInt) s) ∧
    (encode (.jalr rd rs1 imm) = 0x49#8 ++ rd ++ rs1 ++ imm ∧ linksTo (.jalr rd rs1 imm) rd (s.baseDisp rs1 imm) s) ∧
    (encode (.j imm20) = 0x4A#8 ++ 0#4 ++ imm20 ∧ jumpsTo (.j imm20) (s.pcPlus imm20.toInt) s) ∧
    (encode (.jr rs1 imm) = 0x4B#8 ++ 0#4 ++ rs1 ++ imm ∧ jumpsTo (.jr rs1 imm) (s.baseDisp rs1 imm) s)

/-- A branch, JAL or J from an aligned pc leaves pc 4-byte aligned (R124). -/
def Obligations.RelativeTargetsAligned : Prop :=
  ∀ (i : Instr) (s : State), s.pc.toNat % 4 = 0 → 2 ≤ s.profile.addrBits → addressesFit s.profile →
    classOf i = .branch ∨ (∃ rd imm, i = .jal rd imm) ∨ (∃ imm, i = .j imm) →
    ∃ t, exec i s = .next t ∧ t.pc.toNat % 4 = 0

/-! ### System instructions -/

/-- NOP only advances pc, and a NOP word with a nonzero operand field is reserved (R137). -/
def Obligations.NopOutcome : Prop :=
  encode .nop = 0x01000000 ∧
  (∀ s : State, ∃ t, exec .nop s = .next t ∧ t.pc = truncAddr s.profile (s.pc.toNat + 4) ∧ onlyPc s t) ∧
  (∀ (p : Profile) (w : BitVec 32), opField w = 0x01 → w.extractLsb' 0 24 ≠ 0 → ∃ e, decode p w = .error e)

/-- HALT halts with its own pc kept; its step has no interrupt check and the halted CPU idles (R138, R161, R145). That
idling is one step is the model's cut, log 1. -/
def Obligations.HaltOutcome : Prop :=
  encode .halt = 0x02000000 ∧
  (∀ s : State, ∃ t, exec .halt s = .next t ∧ t.run = .halted .haltInstr ∧ { t with run := s.run } = s ∧
    ∀ n, t.retire n = t.addCycles n) ∧
  (∀ (s : State) (r : HaltReason), s.run = .halted r → s.phase = .inBurst →
    (s.cycles.toNat < s.frameTarget → step s = .next { s with cycles := BitVec.ofNat 64 s.frameTarget }) ∧
    (s.frameTarget ≤ s.cycles.toNat → ∃ t, step s = .next t ∧ t.run = .halted r ∧ t.phase = .boundary))

/-- SYSCALL and BREAK take their exceptions with EPC at their own address and BADADDR 0 (R139, R140, R150). -/
def Obligations.SyscallBreakOutcomes : Prop :=
  encode .syscall = 0x03000000 ∧ encode .brk = 0x04000000 ∧
  causeNumber .syscall = 8 ∧ causeNumber .brk = 9 ∧
  ∀ s : State, raises .syscall .syscall 0 s ∧ raises .brk .brk 0 s

/-- ERET restores pc and IE and clears EXL, and its step's interrupt check sees the restored status (R141). -/
def Obligations.EretOutcome : Prop :=
  encode .eret = 0x05000000 ∧
  ∀ s : State, ∃ t, exec .eret s = .next t ∧ t.pc = s.epc ∧
    t.status = ⟨s.status.pie, false, s.status.pie, s.status.im⟩ ∧ { t with pc := s.pc, status := s.status } = s ∧
    (s.run = .running → s.profile.hasVector = true → s.status.pie = true → s.ip &&& s.status.im ≠ 0 →
      ∀ n, trapDelivered .interrupt s.epc 0 (t.addCycles n) (t.retire n))

/-- MFC reads each of the seven control registers; other numbers are reserved (R142). -/
def Obligations.MfcOutcome : Prop :=
  (∀ (rd : Reg) (cr : ControlReg) (s : State), addressesFit s.profile → s.controlFits →
    wordCompletesWith (0x06#8 ++ rd ++ 0#4 ++ cr.number) (.mfc rd cr) rd (s.controlValue cr) s) ∧
  (∀ (p : Profile) (w : BitVec 32), opField w = 0x06 → 7 ≤ (w.extractLsb' 0 16).toNat → ∃ e, decode p w = .error e)

/-- MTC writes STATUS's four fields, EPC, SCRATCH or EVEC with bits 1:0 cleared; others are reserved (R143). -/
def Obligations.MtcOutcome : Prop :=
  (∀ (cr : WritableReg) (rs1 : Reg) (s : State),
    encode (.mtc cr rs1) = 0x07#8 ++ 0#4 ++ rs1 ++ cr.number ∧
    ∃ t, exec (.mtc cr rs1) s = .next t ∧ t.pc = nextPc s.profile s.pc ∧
      (s.run = .running → ∀ n, t.retire n = (t.addCycles n).interruptCheck) ∧
      match cr with
      | .status =>
        t.status = ⟨(s.readReg rs1).getLsbD 0, (s.readReg rs1).getLsbD 1, (s.readReg rs1).getLsbD 2,
          (s.readReg rs1).extractLsb' 8 8⟩ ∧ { t with status := s.status, pc := s.pc } = s
      | .epc => t.epc.toNat = s.uval rs1 % 2 ^ s.profile.addrBits ∧ { t with epc := s.epc, pc := s.pc } = s
      | .scratch => t.scratch.toNat = s.uval rs1 ∧ { t with scratch := s.scratch, pc := s.pc } = s
      | .evec =>
        t.evec.toNat = s.uval rs1 % 2 ^ s.profile.addrBits / 4 * 4 ∧ { t with evec := s.evec, pc := s.pc } = s) ∧
  (∀ (p : Profile) (w : BitVec 32), opField w = 0x07 →
    w.extractLsb' 0 16 ≠ 0#16 → w.extractLsb' 0 16 ≠ 2#16 → w.extractLsb' 0 16 ≠ 5#16 → w.extractLsb' 0 16 ≠ 6#16 →
    ∃ e, decode p w = .error e)

/-! ### Traps and interrupts -/

/-- Trap entry saves EPC, CODE, BADADDR and PIE and goes to EVEC, or halts with Fatal (R150). -/
def Obligations.TrapEntry : Prop :=
  ∀ (s : State) (c : Cause) (epc : Addr) (info : Word),
    (s.profile.hasVector = true ∧ (c = .interrupt ∨ s.status.exl = false) →
      trapDelivered c epc info s (s.takeTrap c epc info)) ∧
    (s.profile.hasVector = false ∨ (c ≠ .interrupt ∧ s.status.exl = true) →
      trapFatal c epc info s (s.takeTrap c epc info))

/-- The interrupt check delivers an interrupt exactly when a masked-in line is high, IE = 1 and EXL = 0 (R149, R148,
R151). -/
def Obligations.InterruptCheckRule : Prop :=
  ∀ s : State,
    (s.profile.hasVector = true ∧ s.status.ie = true ∧ s.status.exl = false ∧
        (∃ k < 8, s.ip.getLsbD k = true ∧ s.status.im.getLsbD k = true) →
      trapDelivered .interrupt s.pc 0 s s.interruptCheck) ∧
    (¬ (s.profile.hasVector = true ∧ s.status.ie = true ∧ s.status.exl = false ∧
        ∃ k < 8, s.ip.getLsbD k = true ∧ s.status.im.getLsbD k = true) → s.interruptCheck = s) ∧
    (∀ n, s.run = .running → s.retire n = (s.addCycles n).interruptCheck) ∧
    (∀ n r, s.run = .halted r → s.retire n = s.addCycles n)

/-- After a synchronous exception the step's interrupt check takes no interrupt (R147, R150, R149). -/
def Obligations.SynchronousFirst : Prop :=
  ∀ (s : State) (c : Cause) (info : Word) (n : Nat), c ≠ .interrupt →
    (s.raise c info).retire n = (s.raise c info).addCycles n ∧ ((s.raise c info).retire n).ip = s.ip

/-- Line k is high exactly when a device wired to k drives its level; the Timer's level is its rule (R34, R27, R159).
-/
def Obligations.InterruptLines : Prop :=
  (∀ (s : State) (k : Nat), k < 8 →
    (s.ip.getLsbD k = true ↔
      ∃ (n : Nat) (decl : DeviceDecl) (dev : DevState), s.profile.devices[n]? = some decl ∧ s.devs[n]? = some dev ∧ decl.irqLine = k ∧ dev.irq = true)) ∧
  (∀ t : Timer, (DevState.timer t).irq = true ↔
    (t.stat.getLsbD 0 = true ∧ t.ctrl.getLsbD 1 = true) ∨ (t.stat.getLsbD 1 = true ∧ t.ctrl.getLsbD 2 = true))

/-! ### The CPU step -/

/-- A step runs the decoded instruction, then adds its class's cost and checks for interrupts (R145, R56, R189). -/
def Obligations.StepRunsDecoded : Prop :=
  ∀ (s : State) (i : Instr), s.cpuIsNext → s.pc.toNat % 4 = 0 → fetchable s.profile s.pc.toNat →
    decode s.profile (s.wordAt s.pc.toNat) = .ok i →
    step s = match exec i s with
      | .next t    => .next (t.retire (s.profile.costs.of (classOf i)))
      | .fault f   => .fault f
      | .refused r => .refused r

/-- A step traps at fetch or decode in the spec's order, at FAULT_COST (R145, R146, R147, R49). -/
def Obligations.StepTrapsAtFetch : Prop :=
  ∀ s : State, s.cpuIsNext →
    (s.pc.toNat % 4 ≠ 0 → step s = .next ((s.takeTrap .fetchMisaligned s.pc s.pc).retire s.profile.faultCost)) ∧
    (s.pc.toNat % 4 = 0 → ¬ fetchable s.profile s.pc.toNat →
      step s = .next ((s.takeTrap .fetchBus s.pc s.pc).retire s.profile.faultCost)) ∧
    (s.pc.toNat % 4 = 0 → fetchable s.profile s.pc.toNat → ∀ e,
      decode s.profile (s.wordAt s.pc.toNat) = .error e →
      step s = .next ((s.takeTrap .reservedInstruction s.pc
        (BitVec.ofNat 64 (s.wordAt s.pc.toNat).toNat)).retire s.profile.faultCost))

/-- The cost of an instruction is the profile's cost of the class of its opcode (R75, R189). -/
def Obligations.InstructionCosts : Prop :=
  ∀ (p : Profile) (i : Instr), costOf p i = opcodeCost p.costs (opField (encode i))

/-- Whole-machine frame: what each instruction may write, over all 53 instructions (R18, R39, R53, R82, R109, R111,
R123, R136, R141, R143). -/
def Obligations.InstructionFrame : Prop :=
  ∀ (i : Instr) (s : State), ∃ t, exec i s = .next t ∧
    (∀ r : Reg, destOf i ≠ some r → t.regs[r.toNat] = s.regs[r.toNat]) ∧
    (classOf i ≠ .store → t.mem = s.mem) ∧
    (∀ w rs1 imm, accessOf i = some (w, rs1, imm) →
      let ea := effAddr s.profile (s.readReg rs1) imm
      (∀ a, a < ea.toNat ∨ ea.toNat + widthBytes w ≤ a → t.mem.read a = s.mem.read a) ∧
      (¬ ramAccess s.profile ea (widthBytes w) → t.mem = s.mem) ∧
      (∀ d, (∀ start, ¬ deviceAccess s.profile ea (widthBytes w) d start) → t.devs[d]? = s.devs[d]?)) ∧
    (classOf i ≠ .load → classOf i ≠ .store → t.devs = s.devs) ∧
    (i ≠ .halt → ¬ mayRaise i → t.run = s.run) ∧
    (i ≠ .eret → ¬ writesControl .status i → ¬ mayRaise i → t.status = s.status) ∧
    (¬ writesControl .epc i → ¬ mayRaise i → t.epc = s.epc) ∧
    (¬ mayRaise i → t.causeCode = s.causeCode ∧ t.badaddr = s.badaddr) ∧
    (¬ writesControl .scratch i → t.scratch = s.scratch) ∧
    (¬ writesControl .evec i → t.evec = s.evec) ∧
    sameScheduler s t

/-! ### Devices -/

/-- The Timer answers exactly the 4-byte accesses of its register map, and reads have no side effect (R157). -/
def Obligations.TimerRegisterMap : Prop :=
  (∀ (t : Timer) (off : Nat) (w : Width) (v : BitVec 32), off < 0x20 → (t.read off w = some v ↔ w = .b4 ∧
    (off = 0x00 ∧ v.toNat = t.count.toNat % 2 ^ 32 ∨ off = 0x04 ∧ v.toNat = t.count.toNat / 2 ^ 32 ∨
     off = 0x08 ∧ v = t.compare ∨ off = 0x0C ∧ v.toNat = t.ctrl.toNat ∨ off = 0x10 ∧ v.toNat = t.stat.toNat ∨
     off = 0x14 ∧ v.toNat = t.frames.toNat % 2 ^ 32 ∨ off = 0x18 ∧ v.toNat = t.frames.toNat / 2 ^ 32 ∨
     off = 0x1C ∧ v = 0))) ∧
  (∀ (t t' : Timer) (off : Nat) (w : Width) (v : BitVec 32), off < 0x20 → (t.write off w v = some t' ↔ w = .b4 ∧
    (off = 0x08 ∧ t' = { t with compare := v } ∨ off = 0x0C ∧ t' = { t with ctrl := v.setWidth 3 } ∨
     off = 0x10 ∧ t' = { t with stat := t.stat &&& ~~~ v.setWidth 2 } ∨
     off ∈ [0x00, 0x04, 0x14, 0x18, 0x1C] ∧ t' = t))) ∧
  (∀ (t : Timer) (off : Nat) (w : Width) (x : Word) (d : DevState),
    (DevState.timer t).read off w = some (x, d) ↔
      ∃ v, t.read off w = some v ∧ x.toNat = v.toNat ∧ d = .timer t) ∧
  (∀ (t : Timer) (off : Nat) (w : Width) (x : Word) (d : DevState),
    (DevState.timer t).write off w x = some d ↔
      ∃ (v : BitVec 32) (t' : Timer), v.toNat = x.toNat % 2 ^ 32 ∧ t.write off w v = some t' ∧ d = .timer t')

/-- A Timer tick of n cycles sets CMP exactly when one of the next n counts matches COMPARE (R158). -/
def Obligations.TimerTickRule : Prop :=
  ∀ (t : Timer) (n : Counter),
    (t.tick n).count.toNat = (t.count.toNat + n.toNat) % 2 ^ 64 ∧
    (t.tick n).frames.toNat = (t.frames.toNat + 1) % 2 ^ 64 ∧
    (t.tick n).compare = t.compare ∧ (t.tick n).ctrl = t.ctrl ∧ (t.tick n).stat.getLsbD 1 = true ∧
    ((t.tick n).stat.getLsbD 0 = true ↔
      t.stat.getLsbD 0 = true ∨
      (t.ctrl.getLsbD 0 = true ∧
        ∃ k, 1 ≤ k ∧ k ≤ n.toNat ∧ (t.count.toNat + k) % 2 ^ 32 = t.compare.toNat)) ∧
    (DevState.timer t).tick n = .timer (t.tick n)

/-- The Timer serializes to 28 little-endian bytes and deserializes exactly those (R160). -/
def Obligations.TimerSerialization : Prop :=
  (∀ t : Timer, t.serialize.length = 28 ∧ leNatAt t.serialize 0 8 = t.count.toNat ∧
    leNatAt t.serialize 8 4 = t.compare.toNat ∧ leNatAt t.serialize 12 4 = t.ctrl.toNat ∧
    leNatAt t.serialize 16 4 = t.stat.toNat ∧ leNatAt t.serialize 20 8 = t.frames.toNat) ∧
  (∀ (b : List Byte) (t : Timer), Timer.deserialize b = some t ↔
    b.length = 28 ∧ leNatAt b 12 4 < 8 ∧ leNatAt b 16 4 < 4 ∧ t.serialize = b) ∧
  (∀ t : Timer, (DevState.timer t).serialize = t.serialize) ∧
  (∀ (decl : DeviceDecl) (b : List Byte) (d : DevState), decl.kind = .timer →
    (DevState.deserialize decl b = some d ↔ ∃ t, Timer.deserialize b = some t ∧ d = .timer t))

/-! ### The frame scheduler -/

/-- The steps that are no CPU step: a frame's start and the boundary sequence, which calls observe once (R161, R162,
R163, R164, R173). The cut of a frame into steps and the field cStart are the model's choice, log 1; the field report,
log 4. -/
def Obligations.SchedulerSteps : Prop :=
  (∀ s : State, s.phase = .boundary →
    (s.frameTarget < 2 ^ 64 → step s = .next { s with phase := .inBurst, cStart := s.cycles }) ∧
    (2 ^ 64 ≤ s.frameTarget → step s = .refused .counterOverflow)) ∧
  (∀ s : State, s.phase = .inBurst → s.frameTarget ≤ s.cycles.toNat →
    let u : State := { s with devs := s.devs.map (fun d => d.tick (s.cycles - s.cStart)), frame := s.frame + 1 }
    let rs := Config.observe u.capture
    let applied : State := ({ u with queue := s.queue ++ rs.filter (patchValid s.profile) } : State).applyEligible
    ∃ rep : FrameReport,
      let t : State :=
        { applied with phase := .boundary, stopReq := false, captureReq := false, cStart := 0, report := some rep }
      step s = .next t ∧
      (t.run = s.run ∧ t.status = s.status ∧ t.causeCode = s.causeCode ∧ t.epc = s.epc ∧ t.badaddr = s.badaddr ∧
        t.scratch = s.scratch ∧ t.evec = s.evec ∧ t.cycles = s.cycles ∧ t.profile = s.profile ∧
        t.frame = s.frame + 1 ∧ t.devs = u.devs) ∧
      (t.queue = (s.queue ++ rs.filter (patchValid s.profile)).filter fun r =>
        decide (s.cycles.toNat < r.applyAtCycle.toNat)) ∧
      (rep.stopped = s.stopReq ∧ rep.status = s.run ∧ rep.rejected = rs.filter (fun r => !patchValid s.profile r) ∧
        (s.captureReq = true → rep.captured = some t.capture) ∧ (s.captureReq = false → rep.captured = none)))

/-- RunFrame returns only at or past its target, and completes with at most max cost - 1 of overrun (R161, R162,
R155). The number of iterations watched is the model's argument, log 1. -/
def Obligations.FrameReachesTarget : Prop :=
  (∀ (s t : State) (k : Nat), s.phase = .boundary → s.runFrame k = .next t →
    (t.phase = .boundary → s.frameTarget ≤ t.cycles.toNat ∧ t.frame = s.frame + 1 ∧
      ∀ j, k ≤ j → s.runFrame j = .next t) ∧
    (t.phase = .inBurst → t.cycles.toNat < s.frameTarget ∧ t.frame = s.frame)) ∧
  (∀ (s : State) (k : Nat), s.phase = .boundary → 1 ≤ s.profile.cpf → costsLegal s.profile →
    s.frameTarget + maxCost s.profile ≤ 2 ^ 64 → s.frameTarget ≤ s.cycles.toNat + k →
    ∃ t, s.runFrame k = .next t ∧ t.phase = .boundary ∧ t.frame.toNat = s.frame.toNat + 1 ∧
      s.frameTarget ≤ t.cycles.toNat ∧
      (s.cycles.toNat < s.frameTarget → t.cycles.toNat ≤ s.frameTarget + maxCost s.profile - 1) ∧
      (s.frameTarget ≤ s.cycles.toNat → t.cycles = s.cycles))

/-- RunFrame as the spec writes it is a run of the machine's single steps (R161, R162, R155). The cut of a frame into
steps and the number of iterations watched are the model's choice, log 1. -/
def Obligations.RunFrameIsItsSteps : Prop :=
  ∀ (s : State) (k : Nat), s.phase = .boundary → ∃ n, n ≤ k + 2 ∧ runSteps n s = s.runFrame k

/-- Every step keeps each Timer's COUNT and FRAMES in step with the machine's cycles and frame (R163, R158, R156). The
field cStart is the model's choice, log 1; State.reset is log 2 and log 3. -/
def Obligations.TimersCountEveryCycle : Prop :=
  (∀ s t : State, s.timersInStep → step s = .next t → t.timersInStep) ∧ State.reset.timersInStep

/-! ### Invariants -/

/-- Every step keeps the machine legal: widths, hardwired bits, memory form, devices, queue, profile (R16, R17, R20,
R32, R39, R55, R42). The steps are those of log 1. -/
def Obligations.InvKeptByStep : Prop :=
  ∀ s t : State, s.Inv → step s = .next t → t.Inv ∧ t.profile = s.profile

/-- The reset state is the constructed REF-1 machine of a 4 KiB zero ROM, and it is legal (R40, R170). The profile and
the ROM image of State.reset are the model's choice, log 2 and log 3. -/
def Obligations.InvAtReset : Prop :=
  State.construct Profile.ref1 (List.replicate 4096 0) = .ok State.reset ∧ State.reset.Inv

/-- Every machine that construction answers is legal, and its profile and image have legal values (R6, R8, R40, R170).
Profiles outside the legal values of R6 are refused at construction, log 8. -/
def Obligations.InvAtConstruction : Prop :=
  ∀ (p : Profile) (rom : List Byte) (s : State), State.construct p rom = .ok s → s.Inv ∧ LegalProfile p rom

/-- Every host call keeps the machine legal, Restore of any byte string included, and keeps the profile (R172, R179,
R180, R184, R42). Where host calls land, and how long RunFrame and RunUntilStop are watched, is log 9. -/
def Obligations.InvKeptByHostCalls : Prop :=
  ∀ (s : State) (c : HostCall), s.Inv → (s.hostCall c).2.Inv ∧ (s.hostCall c).2.profile = s.profile

/-- No step changes a ROM byte: neither a CPU access nor a patch (R55, R53, R184). The steps are those of log 1. -/
def Obligations.RomNeverChanges : Prop :=
  ∀ s t : State, s.Inv → step s = .next t →
    ∀ r ∈ s.profile.ranges, r.kind = .rom → ∀ a, r.start ≤ a → a < r.start + r.length → t.mem.read a = s.mem.read a

/-- No step and no host call but Restore leaves Halted (R21, R168, R185). The steps are those of log 1. -/
def Obligations.HaltedIsTerminal : Prop :=
  ∀ (s : State) (r : HaltReason), s.run = .halted r →
    (∀ t, step s = .next t → t.run = .halted r) ∧
    (∀ c, (∀ b, c ≠ HostCall.restore b) → (s.hostCall c).2.run = .halted r)

/-- What stops a step, and what the host's calls answer: run, stop, capture request, output views (R155, R162, R165,
R172, R174). The steps are those of log 1, the reports those of log 4; how long a call is watched and which requests
arrive meanwhile are arguments of the call, log 9. -/
def Obligations.StepAndHostCallOutcomes : Prop :=
  (∀ s : State, (∃ t, step s = .next t) ∨
    (s.phase = .boundary ∧ 2 ^ 64 ≤ (s.frame.toNat + 1) * s.profile.cpf ∧ step s = .refused .counterOverflow)) ∧
  (∀ (s : State) (q : Requests) (qs : List Requests) (k : Nat), s.phase = .inBurst →
    s.hostCall (.runFrame q k) = (.refused .outOfPhase [], s) ∧
    s.hostCall (.runUntilStop qs k) = (.refused .outOfPhase [], s) ∧
    s.hostCall .outputViews = (.refused .outOfPhase [], s)) ∧
  (∀ s : State, s.hostCall .requestStop = (.unit, { s with stopReq := true }) ∧
    s.hostCall .requestCapture = (.unit, { s with captureReq := true })) ∧
  (∀ s : State, s.phase = .boundary → s.hostCall .outputViews =
    (.views (regionView s.mem s.profile.fbRegion) (regionView s.mem s.profile.audioRegion), s)) ∧
  (∀ (s : State) (q : Requests) (k : Nat), s.phase = .boundary →
    (2 ^ 64 ≤ s.frameTarget ∧ s.hostCall (.runFrame q k) = (.refused .counterOverflow [], s)) ∨
    (∃ t, s.hostCall (.runFrame q k) = (.running [], t) ∧ t.phase = .inBurst) ∨
    (∃ rep t, s.hostCall (.runFrame q k) = (.returned [rep], t) ∧ t.phase = .boundary ∧ t.report = some rep ∧
      rep.stopped = (s.stopReq || q.stop) ∧ rep.status = t.run ∧
      rep.captured = (if (s.captureReq || q.capture) = true then some t.capture else none) ∧
      t.stopReq = false ∧ t.captureReq = false)) ∧
  (∀ (s : State) (q : Requests) (qs : List Requests) (k : Nat), s.phase = .boundary →
    s.hostCall (.runUntilStop [] k) = (.running [], s) ∧
    (∀ r t, s.hostCall (.runFrame q k) = (.refused r [], t) →
      s.hostCall (.runUntilStop (q :: qs) k) = (.refused r [], t)) ∧
    (∀ t, s.hostCall (.runFrame q k) = (.running [], t) →
      s.hostCall (.runUntilStop (q :: qs) k) = (.running [], t)) ∧
    (∀ rep t, s.hostCall (.runFrame q k) = (.returned [rep], t) → endsRun rep →
      s.hostCall (.runUntilStop (q :: qs) k) = (.returned [rep], t)) ∧
    (∀ rep t, s.hostCall (.runFrame q k) = (.returned [rep], t) → ¬ endsRun rep →
      s.hostCall (.runUntilStop (q :: qs) k) =
        ((t.hostCall (.runUntilStop qs k)).1.withEarlier [rep], (t.hostCall (.runUntilStop qs k)).2)))

/-! ### Construction, snapshots and patches -/

/-- A constructed machine has every reset value of the spec's table (R40). -/
def Obligations.ResetValues : Prop :=
  ∀ (p : Profile) (rom : List Byte) (s : State), State.construct p rom = .ok s →
    ((∀ r : Reg, s.readReg r = 0) ∧ s.pc = p.resetPc ∧ s.run = .running ∧ s.status = ⟨false, false, false, 0⟩ ∧
      s.causeCode = .interrupt ∧ causeNumber s.causeCode = 0 ∧ s.epc = 0 ∧ s.badaddr = 0 ∧ s.scratch = 0 ∧
      s.evec = p.evecReset) ∧
    (∀ r ∈ s.profile.ranges, r.kind = .ram → ∀ a, r.start ≤ a → a < r.start + r.length → s.mem.read a = 0) ∧
    (∀ k b, rom[k]? = some b → s.mem.read (p.romBase + k) = b) ∧
    (∀ (n : Nat) (d : DeviceDecl), p.devices[n]? = some d →
      (d.kind = .timer → s.devs[n]? = some (.timer ⟨0, 0, 0, 0, 0⟩)) ∧
      (d.kind ≠ .timer → s.devs[n]? = some (.foreign d.handler (Config.handler d.handler).reset))) ∧
    s.cycles = 0 ∧ s.frame = 0 ∧ s.phase = .boundary ∧ s.queue = [] ∧ s.stopReq = false ∧ s.captureReq = false

/-- Construction fails with ProfileError for each of ten reasons, and answers for every legal profile (R8).
LegalProfile asks for R6's legal values too, those that R8 does not list as log 8 names them. -/
def Obligations.InvalidProfilesRefused : Prop :=
  (∀ (p : Profile) (rom : List Byte),
    let q : Profile := withRomLength p rom.length
    (∃ (j k : Nat) (r1 r2 : Range) (a : Nat), j ≠ k ∧ q.ranges[j]? = some r1 ∧ q.ranges[k]? = some r2 ∧ rangeHas r1 a = true ∧ rangeHas r2 a = true) ∨
    (∃ r ∈ q.ranges, 2 ^ p.addrBits < r.start + r.length) ∨
    (p.ranges.countP (fun r => decide (r.kind = .rom)) ≠ 1) ∨
    (∃ r ∈ p.ranges, r.kind = .rom ∧ r.start ≠ p.romBase) ∨
    rom.length ∉ p.romSizes ∨
    (∃ (n : Nat) (d : DeviceDecl), p.devices[n]? = some d ∧ ⟨d.start, d.length, .device n⟩ ∉ p.ranges) ∨
    (∃ d ∈ p.devices, 7 < d.irqLine) ∨
    (∃ g, (p.fbRegion = some g ∨ p.audioRegion = some g) ∧
      ¬ ∃ r ∈ p.ranges, r.kind = .ram ∧ r.start ≤ g.start ∧ g.start + g.length ≤ r.start + r.length) ∨
    p.xlen.bits < p.addrBits ∨ p.nregs < 1 ∨ 16 < p.nregs ∨ p.fpCap = true →
    ∃ e, State.construct p rom = .error e) ∧
  (∀ (p : Profile) (rom : List Byte) (s : State), State.construct p rom = .ok s →
    ∀ r ∈ s.profile.ranges, r.kind = .rom → r.start = p.romBase ∧ r.length = rom.length) ∧
  (∀ (p : Profile) (rom : List Byte), LegalProfile p rom → ∃ s, State.construct p rom = .ok s)

/-- Restore(Capture()) at a boundary with an empty queue changes no state of the snapshot (R181, R176, R177, R180).
That cStart is 0 at a boundary is the model's choice, log 1. -/
def Obligations.RestoreOfCapture : Prop :=
  ∀ s : State, s.Inv → s.phase = .boundary → s.queue = [] →
    (∀ d ∈ s.devs, d.serialize.length < 2 ^ 32) → (∀ r ∈ s.profile.ranges, r.length < 2 ^ 64) →
    ∃ t, s.restore s.capture.toBlob = .ok t ∧
      t = { s with stopReq := false, captureReq := false, cStart := 0 } ∧ t.hostCapture = .ok s.capture.toBlob

/-- A blob that Restore accepts is exactly what Capture then gives, when every device is a Timer (R177, R179, R180).
-/
def Obligations.CaptureOfRestore : Prop :=
  ∀ (s t : State) (b : List Byte), s.Inv → (∀ d ∈ s.profile.devices, d.kind = .timer) →
    s.restore b = .ok t → t.hostCapture = .ok b

/-- Determinism law: a run from a restored snapshot reaches the same states as the run it was taken from (R182). The
number of iterations watched is the model's argument, log 1. -/
def Obligations.RunsAfterRestoreAgree : Prop :=
  ∀ (s m t : State) (n k : Nat), s.Inv → s.phase = .boundary → s.queue = [] →
    (∀ d ∈ s.devs, d.serialize.length < 2 ^ 32) → (∀ r ∈ s.profile.ranges, r.length < 2 ^ 64) →
    m.profile = s.profile → m.restore s.capture.toBlob = .ok t →
    sameEnd (runFrames k n s) (runFrames k n t)

/-- Snapshot errors: UnsafePoint, VersionMismatch, Malformed exactly when a check fails; machine unchanged (R178,
R175, R179). -/
def Obligations.SnapshotErrors : Prop :=
  (∀ (s : State) (b : List Byte), s.phase = .inBurst →
    s.hostCapture = .error .unsafePoint ∧ s.restore b = .error .unsafePoint) ∧
  (∀ (s : State) (b : List Byte), s.phase = .boundary →
    (b.length < 24 → s.restore b = .error .malformed) ∧
    (24 ≤ b.length → leNatAt b 0 4 ≠ s.profile.snapshotVersion.toNat ∨ leNatAt b 4 4 ≠ s.profile.profileId.toNat →
      s.restore b = .error .versionMismatch) ∧
    (24 ≤ b.length → leNatAt b 0 4 = s.profile.snapshotVersion.toNat → leNatAt b 4 4 = s.profile.profileId.toNat →
      (passesChecks s.profile b → ∃ t, s.restore b = .ok t) ∧
      (¬ passesChecks s.profile b → s.restore b = .error .malformed))) ∧
  (∀ p : Profile, (memRanges p).Perm (p.ranges.filter fun r => decide (r.kind = .ram ∨ r.kind = .rom)) ∧
    (memRanges p).Pairwise fun r1 r2 => r1.start ≤ r2.start) ∧
  (∀ (s : State) (b : List Byte) (e : SnapshotError), s.restore b = .error e →
    s.hostCall (.restore b) = (.snapshotError e, s)) ∧
  (∀ (s : State) (e : SnapshotError), s.hostCapture = .error e → s.hostCall .capture = (.snapshotError e, s))

/-- A patch is accepted exactly for a RAM byte, a register in range, or pc; others are dropped alone (R184, R162). The
field report, which holds what is handed to the host, is the model's choice, log 4. -/
def Obligations.PatchValidation : Prop :=
  (∀ (p : Profile) (r : PatchRequest), patchValid p r = true ↔
    match r.target with
    | .memory a   => a < 2 ^ p.addrBits ∧ (∃ g, findRange p a = some g ∧ g.kind = .ram) ∧ r.value ≤ 255
    | .register i => (i < p.nregs ∧ r.value < 2 ^ p.xlen.bits) ∨ (i = 64 ∧ r.value < 2 ^ p.addrBits)) ∧
  (∀ (s : State) (rs : List PatchRequest),
    (s.accept rs).queue = s.queue ++ rs.filter (fun r => patchValid s.profile r) ∧
    { s.accept rs with queue := s.queue } = s ∧
    ∃ rep, (s.boundaryWith rs).report = some rep ∧ rep.rejected = rs.filter fun r => !patchValid s.profile r)

/-- Eligible patches apply in queue order, the last one to a target wins, and nothing else changes (R185). -/
def Obligations.PatchApplication : Prop :=
  ∀ s : State, s.memoryCanonical → s.profile.nregs ≤ 16 → addressesFit s.profile → s.queueValid →
    let t := s.applyEligible
    let eligible := fun r : PatchRequest => r.applyAtCycle.toNat ≤ s.cycles.toNat
    t.queue = s.queue.filter (fun r => !decide (eligible r)) ∧
    { t with regs := s.regs, pc := s.pc, mem := s.mem, queue := s.queue } = s ∧
    (∀ (before after : List PatchRequest) (r : PatchRequest), s.queue = before ++ r :: after → eligible r →
      (∀ q ∈ after, eligible q → q.target ≠ r.target) →
      match r.target with
      | .memory a   => (t.mem.read a).toNat = r.value
      | .register i => if i = 64 then t.pc.toNat = r.value else (t.readReg (BitVec.ofNat 4 i)).toNat = r.value) ∧
    (∀ a, (∀ q ∈ s.queue, eligible q → q.target ≠ .memory a) → t.mem.read a = s.mem.read a) ∧
    (∀ r : Reg, (∀ q ∈ s.queue, eligible q → q.target ≠ .register r.toNat) → t.regs[r.toNat] = s.regs[r.toNat]) ∧
    ((∀ q ∈ s.queue, eligible q → q.target ≠ .register 64) → t.pc = s.pc)
end

