-- ==== Sys2Proof/Laws/Memory.lean ====
section
/-! SUPPORT. Memory: reading what was written, the canonical form and that every memory operation keeps it, equality of
canonical memories by what they read, and little-endian numbers. -/

namespace Sys2Proof.Machine

/-! ### Little-endian bytes -/

@[simp] theorem leBytes_length (n v : Nat) : (leBytes n v).length = n := by
  induction n generalizing v with
  | zero => rfl
  | succ n ih => simp [leBytes, ih]

theorem leNat_lt (bs : List Byte) : leNat bs < 256 ^ bs.length := by
  induction bs with
  | nil => simp [leNat]
  | cons b bs ih =>
    have hb : b.toNat < 256 := b.isLt
    simp only [leNat, List.length_cons, Nat.pow_succ]
    omega

/-- n little-endian bytes of v are v modulo 2^(8n) (R10, R45). -/
@[simp] theorem leNat_leBytes (n v : Nat) : leNat (leBytes n v) = v % 256 ^ n := by
  induction n generalizing v with
  | zero => simp [leBytes, leNat, Nat.mod_one]
  | succ n ih =>
    rw [leBytes, leNat, ih, Nat.pow_succ', Nat.mod_mul, BitVec.toNat_ofNat]

/-- The bytes of a number that bytes stand for are those bytes. -/
theorem leBytes_leNat (bs : List Byte) : leBytes bs.length (leNat bs) = bs := by
  induction bs with
  | nil => rfl
  | cons b bs ih =>
    have hb : b.toNat < 256 := b.isLt
    have hdiv : (b.toNat + 256 * leNat bs) / 256 = leNat bs := by omega
    have hmod : BitVec.ofNat 8 (b.toNat + 256 * leNat bs) = b := by
      apply BitVec.eq_of_toNat_eq
      rw [BitVec.toNat_ofNat]
      omega
    simp only [leNat, List.length_cons, leBytes, hdiv, hmod, ih]

/-! ### One byte -/

@[simp] theorem read_nil (a : Nat) : Memory.read [] a = Memory.unlisted := rfl

theorem read_cons (k : Nat) (b : Byte) (m : Memory) (a : Nat) :
    Memory.read ((k, b) :: m) a = if a = k then b else m.read a := rfl

/-- An address below all listed ones reads as unlisted. -/
theorem read_of_forall_lt (m : Memory) (a : Nat) (h : ∀ c ∈ m, a < c.1) : m.read a = Memory.unlisted := by
  induction m with
  | nil => rfl
  | cons c m ih =>
    have hc : a < c.1 := h c (by simp)
    rw [read_cons, if_neg (by omega)]
    exact ih fun d hd => h d (List.mem_cons_of_mem _ hd)

/-- A canonical memory's first address lies below all others. -/
theorem lt_of_wf_cons {k : Nat} {b : Byte} {m : Memory} (h : Memory.wf ((k, b) :: m)) : ∀ c ∈ m, k < c.1 :=
  fun c hc => (List.pairwise_cons.mp h.1).1 c hc

theorem wf_tail {c : Host.Cell} {m : Memory} (h : Memory.wf (c :: m)) : Memory.wf m :=
  ⟨(List.pairwise_cons.mp h.1).2, fun d hd => h.2 d (List.mem_cons_of_mem _ hd)⟩

theorem wf_nil : Memory.wf [] := ⟨List.Pairwise.nil, by simp⟩

/-- Reading after a write: the byte written at its address, every other byte as before (R57, R63). -/
theorem read_write (m : Memory) (hm : m.wf) (a b : Nat) (v : Byte) :
    (m.write a v).read b = if b = a then v else m.read b := by
  induction m with
  | nil =>
    rw [Memory.write]
    split
    · rename_i h; subst h; split <;> rfl
    · rw [read_cons]
  | cons c m ih =>
    obtain ⟨k, w⟩ := c
    have hlt := lt_of_wf_cons hm
    rw [Memory.write]
    by_cases h1 : a < k
    · rw [if_pos h1]
      by_cases h2 : v = Memory.unlisted
      · rw [if_pos h2]
        by_cases hb : b = a
        · rw [if_pos hb, h2, read_cons, if_neg (by omega)]
          exact read_of_forall_lt m b fun c hc => by have := hlt c hc; omega
        · rw [if_neg hb]
      · rw [if_neg h2, read_cons]
    · rw [if_neg h1]
      by_cases h3 : a = k
      · rw [if_pos h3]
        by_cases h4 : v = Memory.unlisted
        · rw [if_pos h4]
          by_cases hb : b = a
          · rw [if_pos hb, h4]
            exact read_of_forall_lt m b fun c hc => by have := hlt c hc; omega
          · rw [if_neg hb, read_cons, if_neg (by omega)]
        · rw [if_neg h4, read_cons, read_cons]
          by_cases hb : b = a
          · rw [if_pos hb, if_pos hb]
          · rw [if_neg hb, if_neg hb, if_neg (by omega)]
      · rw [if_neg h3, read_cons, read_cons, ih (wf_tail hm)]
        by_cases hb : b = k
        · rw [if_pos hb, if_neg (by omega), if_pos hb]
        · rw [if_neg hb, if_neg hb]

/-- A write leaves every other byte, in canonical form or not (R53). -/
theorem read_write_ne (m : Memory) {a b : Nat} (v : Byte) (h : b ≠ a) : (m.write a v).read b = m.read b := by
  induction m with
  | nil =>
    rw [Memory.write]
    split
    · rfl
    · rw [read_cons, if_neg h]
  | cons c m ih =>
    obtain ⟨k, w⟩ := c
    rw [Memory.write]
    split_ifs with h1 h2 h3 h4
    · rfl
    · rw [read_cons, if_neg h]
    · subst h3
      rw [read_cons, if_neg h]
    · subst h3
      rw [read_cons, if_neg h, read_cons, if_neg h]
    · rw [read_cons, read_cons, ih]

/-- A write keeps the addresses listed, but for its own. -/
theorem mem_write {m : Memory} {a : Nat} {v : Byte} {c : Host.Cell} (hc : c ∈ m.write a v) :
    c ∈ m ∨ (c = (a, v) ∧ v ≠ Memory.unlisted) := by
  induction m with
  | nil =>
    rw [Memory.write] at hc
    split at hc
    · simp at hc
    · rename_i h; simp at hc; exact .inr ⟨hc, h⟩
  | cons d m ih =>
    obtain ⟨k, w⟩ := d
    rw [Memory.write] at hc
    split_ifs at hc with h1 h2 h3 h4
    · exact .inl hc
    · rcases List.mem_cons.mp hc with h | h
      · exact .inr ⟨h, h2⟩
      · exact .inl h
    · exact .inl (List.mem_cons_of_mem _ hc)
    · rcases List.mem_cons.mp hc with h | h
      · exact .inr ⟨h, h4⟩
      · exact .inl (List.mem_cons_of_mem _ h)
    · rcases List.mem_cons.mp hc with h | h
      · exact .inl (by simp [h])
      · rcases ih h with h' | h'
        · exact .inl (List.mem_cons_of_mem _ h')
        · exact .inr h'

/-- A write keeps the canonical form. -/
theorem wf_write {m : Memory} (hm : m.wf) (a : Nat) (v : Byte) : (m.write a v).wf := by
  induction m with
  | nil =>
    rw [Memory.write]
    split
    · exact wf_nil
    · rename_i h; exact ⟨List.pairwise_singleton _ _, by simpa using h⟩
  | cons c m ih =>
    obtain ⟨k, w⟩ := c
    have hlt := lt_of_wf_cons hm
    have ht := wf_tail hm
    have hw : w ≠ Memory.unlisted := hm.2 (k, w) (by simp)
    rw [Memory.write]
    split_ifs with h1 h2 h3 h4
    · exact hm
    · refine ⟨List.pairwise_cons.mpr ⟨?_, hm.1⟩, ?_⟩
      · intro c hc
        rcases List.mem_cons.mp hc with rfl | hc
        · exact h1
        · have := hlt c hc; simp only; omega
      · intro c hc
        rcases List.mem_cons.mp hc with rfl | hc
        · exact h2
        · exact hm.2 c hc
    · exact ht
    · subst h3
      refine ⟨List.pairwise_cons.mpr ⟨hlt, ht.1⟩, ?_⟩
      intro c hc
      rcases List.mem_cons.mp hc with rfl | hc
      · exact h4
      · exact ht.2 c hc
    · have ih' := ih ht
      refine ⟨List.pairwise_cons.mpr ⟨?_, ih'.1⟩, ?_⟩
      · intro c hc
        rcases mem_write hc with hc | ⟨rfl, _⟩
        · exact hlt c hc
        · simp only; omega
      · intro c hc
        rcases List.mem_cons.mp hc with rfl | hc
        · exact hw
        · exact ih'.2 c hc

/-! ### Many bytes -/

@[simp] theorem readBytes_length (m : Memory) (a n : Nat) : (m.readBytes a n).length = n := by
  induction n generalizing a with
  | zero => rfl
  | succ n ih => simp [Memory.readBytes, ih]

/-- A write of bytes keeps the canonical form. -/
theorem wf_writeBytes {m : Memory} (hm : m.wf) (a : Nat) (bs : List Byte) : (m.writeBytes a bs).wf := by
  induction bs generalizing m a with
  | nil => exact hm
  | cons b bs ih => exact ih (wf_write hm a b) (a + 1)

/-- A wide write keeps the canonical form. -/
theorem wf_writeLE {m : Memory} (hm : m.wf) (a n v : Nat) : (m.writeLE a n v).wf := wf_writeBytes hm a _

/-- A write of bytes lists no address but those written and those listed before. -/
theorem mem_writeBytes {m : Memory} {a : Nat} {bs : List Byte} {c : Host.Cell} (hc : c ∈ m.writeBytes a bs) :
    c ∈ m ∨ (a ≤ c.1 ∧ c.1 < a + bs.length) := by
  induction bs generalizing m a with
  | nil => exact .inl hc
  | cons b bs ih =>
    rcases ih hc with h | h
    · rcases mem_write h with h | ⟨rfl, _⟩
      · exact .inl h
      · exact .inr ⟨le_refl _, by simp⟩
    · exact .inr ⟨by omega, by simp only [List.length_cons]; omega⟩

/-- Reading a byte after bytes were written: the byte written there, every other byte as before (R53, R63). -/
theorem read_writeBytes {m : Memory} (hm : m.wf) (a : Nat) (bs : List Byte) (b : Nat) :
    (m.writeBytes a bs).read b = if a ≤ b ∧ b < a + bs.length then bs.getD (b - a) 0 else m.read b := by
  induction bs generalizing m a with
  | nil =>
    rw [Memory.writeBytes, if_neg]
    simp only [List.length_nil]
    omega
  | cons v bs ih =>
    rw [Memory.writeBytes, ih (wf_write hm a v), read_write m hm]
    simp only [List.length_cons]
    by_cases hab : b = a
    · subst hab
      rw [if_neg (by omega), if_pos rfl, if_pos (by omega)]
      simp
    · rw [if_neg hab]
      by_cases hin : a + 1 ≤ b ∧ b < a + 1 + bs.length
      · rw [if_pos hin, if_pos (by omega), show b - a = (b - (a + 1)) + 1 by omega]
        simp
      · rw [if_neg hin, if_neg (by omega)]

/-- A write of bytes leaves every byte outside them, in canonical form or not (R53). -/
theorem read_writeBytes_outside (m : Memory) {a b : Nat} {bs : List Byte} (h : b < a ∨ a + bs.length ≤ b) :
    (m.writeBytes a bs).read b = m.read b := by
  induction bs generalizing m a with
  | nil => rfl
  | cons v bs ih =>
    simp only [List.length_cons] at h
    rw [Memory.writeBytes, ih _ (by omega), read_write_ne _ _ (by omega)]

/-- Reading bytes is the list of the single reads. -/
theorem readBytes_getD (m : Memory) (a n i : Nat) (h : i < n) : (m.readBytes a n).getD i 0 = m.read (a + i) := by
  induction n generalizing a i with
  | zero => omega
  | succ n ih =>
    cases i with
    | zero => simp [Memory.readBytes]
    | succ i =>
      have := ih (a + 1) i (by omega)
      rw [show a + (i + 1) = a + 1 + i by omega, ← this]
      simp [Memory.readBytes]

/-- Two memories that read alike over a stretch give the same bytes of it. -/
theorem readBytes_congr {m m' : Memory} (a n : Nat) (h : ∀ i < n, m.read (a + i) = m'.read (a + i)) :
    m.readBytes a n = m'.readBytes a n := by
  induction n generalizing a with
  | zero => rfl
  | succ n ih =>
    simp only [Memory.readBytes, List.cons.injEq]
    refine ⟨by simpa using h 0 (by omega), ih (a + 1) fun i hi => ?_⟩
    have := h (i + 1) (by omega)
    rwa [show a + (i + 1) = a + 1 + i by omega] at this

/-- Bytes written are the bytes read back. -/
theorem readBytes_writeBytes {m : Memory} (hm : m.wf) (a : Nat) (bs : List Byte) :
    (m.writeBytes a bs).readBytes a bs.length = bs := by
  apply List.ext_getElem (by simp)
  intro i h1 h2
  have := readBytes_getD (m.writeBytes a bs) a bs.length i h2
  rw [read_writeBytes hm, if_pos (by omega)] at this
  simpa [List.getD_eq_getElem?_getD, h1, h2] using this

/-- Read after write of n bytes (R57). -/
theorem readLE_writeLE {m : Memory} (hm : m.wf) (a n v : Nat) : (m.writeLE a n v).readLE a n = v % 256 ^ n := by
  have h := readBytes_writeBytes hm a (leBytes n v)
  rw [leBytes_length] at h
  rw [Memory.readLE, Memory.writeLE, h, leNat_leBytes]

theorem readLE_lt (m : Memory) (a n : Nat) : m.readLE a n < 256 ^ n := by
  have := leNat_lt (m.readBytes a n)
  rwa [readBytes_length] at this

/-! ### Equality -/

/-- Canonical memories that read alike everywhere are equal. -/
theorem memory_ext {m m' : Memory} (hm : m.wf) (hm' : m'.wf) (h : ∀ a, m.read a = m'.read a) : m = m' := by
  induction m generalizing m' with
  | nil =>
    cases m' with
    | nil => rfl
    | cons c m' =>
      have h1 := h c.1
      rw [read_nil, read_cons, if_pos rfl] at h1
      exact absurd h1.symm (hm'.2 c (by simp))
  | cons c m ih =>
    obtain ⟨k, b⟩ := c
    have hb : b ≠ Memory.unlisted := hm.2 (k, b) (by simp)
    cases m' with
    | nil =>
      have h1 := h k
      rw [read_nil, read_cons, if_pos rfl] at h1
      exact absurd h1 hb
    | cons c' m' =>
      obtain ⟨k', b'⟩ := c'
      have hb' : b' ≠ Memory.unlisted := hm'.2 (k', b') (by simp)
      have hk : k = k' := by
        rcases Nat.lt_trichotomy k k' with hlt | heq | hgt
        · have h1 := h k
          rw [read_cons, if_pos rfl, read_of_forall_lt] at h1
          · exact absurd h1 hb
          · intro c hc
            rcases List.mem_cons.mp hc with rfl | hc
            · exact hlt
            · have := lt_of_wf_cons hm' c hc; omega
        · exact heq
        · have h1 := h k'
          rw [read_cons k' b' m', if_pos rfl, read_of_forall_lt] at h1
          · exact absurd h1.symm hb'
          · intro c hc
            rcases List.mem_cons.mp hc with rfl | hc
            · exact hgt
            · have := lt_of_wf_cons hm c hc; omega
      subst hk
      have hbb : b = b' := by
        have h1 := h k
        rwa [read_cons, if_pos rfl, read_cons, if_pos rfl] at h1
      subst hbb
      congr 1
      apply ih (wf_tail hm) (wf_tail hm')
      intro a
      by_cases ha : a = k
      · subst ha
        rw [read_of_forall_lt m a (lt_of_wf_cons hm), read_of_forall_lt m' a (lt_of_wf_cons hm')]
      · have h1 := h a
        rwa [read_cons, if_neg ha, read_cons, if_neg ha] at h1

end Sys2Proof.Machine
end

