-- ==== Sys2Proof/Laws/Bus.lean ====
section
/-! SUPPORT. Everything a bus access can do, said once: the checks, a read, a write, a fetch. -/

namespace Sys2Proof.Machine

theorem widthBytes_pos (w : Width) : 0 < widthBytes w := by cases w <;> decide

/-- A range found holds the address and is one of the profile's. -/
theorem findRange_some {p : Profile} {a : Nat} {r : Range} (h : findRange p a = some r) :
    r ∈ p.ranges ∧ r.start ≤ a ∧ a < r.start + r.length := by
  have h1 := List.find?_some h
  simp only [rangeHas, Bool.and_eq_true, decide_eq_true_eq] at h1
  exact ⟨List.mem_of_find?_eq_some h, h1.1, h1.2⟩

/-- No range found: no range holds the address (R44). -/
theorem findRange_none {p : Profile} {a : Nat} :
    findRange p a = none ↔ ∀ r ∈ p.ranges, ¬ (r.start ≤ a ∧ a < r.start + r.length) := by
  rw [findRange, List.find?_eq_none]
  simp [rangeHas]

/-- The checks pass: the range found holds the whole access, which is aligned under Strict (R44, R48, R51). -/
theorem busCheck_ok {p : Profile} {a : Addr} {w : Width} {r : Range} :
    busCheck p a w = .ok r ↔
      ¬ (p.align = .strict ∧ a.toNat % widthBytes w ≠ 0) ∧ findRange p a.toNat = some r
        ∧ a.toNat + widthBytes w ≤ r.start + r.length := by
  unfold busCheck
  split
  · rename_i h; simp [h]
  · rename_i h
    simp only [h, not_false_eq_true, true_and]
    split
    · rename_i hf; simp [hf]
    · rename_i q hf
      rw [hf]
      split
      · rename_i hl; simp only [reduceCtorEq, Option.some.injEq, false_iff, not_and]; rintro rfl; omega
      · rename_i hl
        simp only [Except.ok.injEq, Option.some.injEq]
        constructor
        · rintro rfl; exact ⟨rfl, by omega⟩
        · exact fun h => h.1

/-- The checks fail: Misaligned first, then Unmapped; no other error (R51). -/
theorem busCheck_error {p : Profile} {a : Addr} {w : Width} {e : BusError} (h : busCheck p a w = .error e) :
    (e = .misaligned ∧ p.align = .strict ∧ a.toNat % widthBytes w ≠ 0) ∨
      (e = .unmapped ∧ ¬ (p.align = .strict ∧ a.toNat % widthBytes w ≠ 0) ∧
        ∀ r, findRange p a.toNat = some r → r.start + r.length < a.toNat + widthBytes w) := by
  unfold busCheck at h
  split at h
  · rename_i hm
    cases h
    exact .inl ⟨rfl, hm.1, hm.2⟩
  · rename_i hm
    split at h
    · rename_i hf
      cases h
      exact .inr ⟨rfl, hm, by simp [hf]⟩
    · rename_i q hf
      split at h
      · rename_i hl
        cases h
        refine .inr ⟨rfl, hm, fun r hr => ?_⟩
        rw [hf] at hr
        cases hr
        exact hl
      · cases h

/-- A misaligned access under Strict fails Misaligned, whatever it would reach (R48, R51). -/
theorem busCheck_misaligned {p : Profile} {a : Addr} {w : Width} (h : p.align = .strict)
    (hm : a.toNat % widthBytes w ≠ 0) : busCheck p a w = .error .misaligned := by
  rw [busCheck, if_pos ⟨h, hm⟩]

/-- A successful read: of RAM or ROM, with the machine unchanged, or of a device, with only that device's state changed
(R52, R63). -/
theorem memRead_cases {s s' : State} {a : Addr} {w : Width} {v : Word} (h : s.memRead a w = .ok (v, s')) :
    ∃ r, busCheck s.profile a w = .ok r ∧
      (((r.kind = .ram ∨ r.kind = .rom) ∧ v = BitVec.ofNat 64 (s.mem.readLE a.toNat (widthBytes w)) ∧ s' = s) ∨
        ∃ d st st', r.kind = .device d ∧ s.devs[d]? = some st ∧ st.read (a.toNat - r.start) w = some (v, st') ∧
          s' = { s with devs := s.devs.set d st' }) := by
  unfold State.memRead at h
  split at h
  · cases h
  · rename_i r hr
    refine ⟨r, hr, ?_⟩
    split at h
    · rename_i hk; cases h; exact .inl ⟨.inl hk, rfl, rfl⟩
    · rename_i hk; cases h; exact .inl ⟨.inr hk, rfl, rfl⟩
    · rename_i d hk
      split at h
      · rename_i v' st' hd
        cases h
        obtain ⟨st, h1, h2⟩ := Option.bind_eq_some_iff.mp hd
        exact .inr ⟨d, st, st', hk, h1, h2, rfl⟩
      · cases h

/-- A successful write: of RAM, with only the accessed bytes changed, or of a device, with only that device's state
changed (R53, R63). -/
theorem memWrite_cases {s s' : State} {a : Addr} {w : Width} {v : Word} (h : s.memWrite a w v = .ok s') :
    ∃ r, busCheck s.profile a w = .ok r ∧
      ((r.kind = .ram ∧ s' = { s with mem := s.mem.writeLE a.toNat (widthBytes w) v.toNat }) ∨
        ∃ d st st', r.kind = .device d ∧ s.devs[d]? = some st ∧ st.write (a.toNat - r.start) w v = some st' ∧
          s' = { s with devs := s.devs.set d st' }) := by
  unfold State.memWrite at h
  split at h
  · cases h
  · rename_i r hr
    refine ⟨r, hr, ?_⟩
    split at h
    · cases h
    · rename_i hk; cases h; exact .inl ⟨hk, rfl⟩
    · rename_i d hk
      split at h
      · rename_i st' hd
        cases h
        obtain ⟨st, h1, h2⟩ := Option.bind_eq_some_iff.mp hd
        exact .inr ⟨d, st, st', hk, h1, h2, rfl⟩
      · cases h

/-- A read of RAM or ROM gives the little-endian value and changes nothing (R45, R52, R63). -/
theorem memRead_memory {s : State} {a : Addr} {w : Width} {r : Range} (h : busCheck s.profile a w = .ok r)
    (hk : r.kind = .ram ∨ r.kind = .rom) :
    s.memRead a w = .ok (BitVec.ofNat 64 (s.mem.readLE a.toNat (widthBytes w)), s) := by
  unfold State.memRead
  rw [h]
  rcases hk with hk | hk <;> simp [hk]

/-- A write of RAM puts the low bytes at the address (R53). -/
theorem memWrite_ram {s : State} {a : Addr} {w : Width} {v : Word} {r : Range} (h : busCheck s.profile a w = .ok r)
    (hk : r.kind = .ram) :
    s.memWrite a w v = .ok { s with mem := s.mem.writeLE a.toNat (widthBytes w) v.toNat } := by
  unfold State.memWrite
  rw [h]
  simp [hk]

/-- A write of ROM fails ReadOnly (R50, R53). -/
theorem memWrite_rom {s : State} {a : Addr} {w : Width} {v : Word} {r : Range} (h : busCheck s.profile a w = .ok r)
    (hk : r.kind = .rom) : s.memWrite a w v = .error .readOnly := by
  unfold State.memWrite
  rw [h]
  simp [hk]

/-- A read or a write that the checks refuse fails with the checks' error. -/
theorem memRead_check_error {s : State} {a : Addr} {w : Width} {e : BusError} (h : busCheck s.profile a w = .error e) :
    s.memRead a w = .error e := by
  unfold State.memRead
  rw [h]

theorem memWrite_check_error {s : State} {a : Addr} {w : Width} {v : Word} {e : BusError}
    (h : busCheck s.profile a w = .error e) : s.memWrite a w v = .error e := by
  unfold State.memWrite
  rw [h]

/-- A fetch that gives a word read it from RAM or ROM at an aligned pc (R56). -/
theorem fetch_ok {s : State} {w : BitVec 32} (h : s.fetch = .ok w) :
    s.pc.toNat % 4 = 0 ∧ ∃ r, findRange s.profile s.pc.toNat = some r ∧ s.pc.toNat + 4 ≤ r.start + r.length ∧
      (r.kind = .ram ∨ r.kind = .rom) ∧ w = BitVec.ofNat 32 (s.mem.readLE s.pc.toNat 4) := by
  unfold State.fetch at h
  split at h
  · cases h
  · rename_i hp
    refine ⟨by omega, ?_⟩
    split at h
    · cases h
    · rename_i r hr
      split at h
      · cases h
      · rename_i hl
        refine ⟨r, hr, by omega, ?_⟩
        split at h
        · rename_i hk; cases h; exact ⟨.inl hk, rfl⟩
        · rename_i hk; cases h; exact ⟨.inr hk, rfl⟩
        · cases h

/-- A fetch fails with FETCH_MISALIGNED or FETCH_BUS only (R146). -/
theorem fetch_error {s : State} {c : Cause} (h : s.fetch = .error c) :
    (c = .fetchMisaligned ∧ s.pc.toNat % 4 ≠ 0) ∨ (c = .fetchBus ∧ s.pc.toNat % 4 = 0) := by
  unfold State.fetch at h
  split at h
  · rename_i hp; cases h; exact .inl ⟨rfl, hp⟩
  · rename_i hp
    refine .inr ⟨?_, by omega⟩
    repeat' split at h
    all_goals first | (cases h; rfl) | cases h

end Sys2Proof.Machine
end

