-- ==== Sys2Proof/Laws/Construct.lean ====
section
/-! SUPPORT. The checks of construction, each as the condition it stands for. -/

namespace Sys2Proof.Machine

/-- Ranges that are not empty are apart exactly when they share no address (R41). -/
theorem rangesApart_iff {r q : Range} (hr : 1 ≤ r.length) (hq : 1 ≤ q.length) :
    rangesApart r q = true ↔ ∀ a, ¬ (rangeHas r a = true ∧ rangeHas q a = true) := by
  simp only [rangesApart, rangeHas, Bool.or_eq_true, Bool.and_eq_true, decide_eq_true_eq]
  constructor
  · intro h a
    omega
  · intro h
    have h1 := h r.start
    have h2 := h q.start
    omega

/-- No two ranges overlap exactly when no two places of the list share an address (R8). -/
theorem noOverlap_iff (rs : List Range) (h1 : ∀ r ∈ rs, 1 ≤ r.length) :
    noOverlap rs = true ↔
      ∀ (j k : Nat) (r1 r2 : Range) (a : Nat), j ≠ k → rs[j]? = some r1 → rs[k]? = some r2 →
        ¬ (rangeHas r1 a = true ∧ rangeHas r2 a = true) := by
  induction rs with
  | nil => simp [noOverlap]
  | cons r rs ih =>
    have ih := ih fun q hq => h1 q (List.mem_cons_of_mem _ hq)
    have apart : ∀ q ∈ rs, rangesApart r q = true ↔ ∀ a, ¬ (rangeHas r a = true ∧ rangeHas q a = true) :=
      fun q hq => rangesApart_iff (h1 _ (by simp)) (h1 _ (by simp [hq]))
    simp only [noOverlap, Bool.and_eq_true, List.all_eq_true, ih]
    constructor
    · rintro ⟨ha, hb⟩ j k r1 r2 a hjk hj hk
      rcases j with _ | j <;> rcases k with _ | k <;>
        simp only [List.getElem?_cons_zero, Option.some.injEq, List.getElem?_cons_succ] at hj hk
      · exact absurd rfl hjk
      · subst hj
        have hm := List.mem_of_getElem? hk
        exact (apart _ hm).mp (ha _ hm) a
      · subst hk
        have hm := List.mem_of_getElem? hj
        exact fun h => (apart _ hm).mp (ha _ hm) a h.symm
      · exact hb j k r1 r2 a (by omega) hj hk
    · intro h
      refine ⟨fun q hq => ?_, fun j k r1 r2 a hjk hj hk => ?_⟩
      · obtain ⟨n, hn⟩ := List.mem_iff_getElem?.mp hq
        exact (apart q hq).mpr fun a => h 0 (n + 1) r q a (by omega) (by simp) (by simpa using hn)
      · exact h (j + 1) (k + 1) r1 r2 a (by omega) (by simpa using hj) (by simpa using hk)

/-- Every device has its range exactly when each is one of the ranges of its kind (R8). -/
theorem deviceRangesOk_iff (p : Profile) (ds : List DeviceDecl) (k : Nat) :
    deviceRangesOk p ds k = true ↔
      ∀ (n : Nat) (d : DeviceDecl), ds[n]? = some d → ⟨d.start, d.length, .device (k + n)⟩ ∈ p.ranges := by
  induction ds generalizing k with
  | nil => simp [deviceRangesOk]
  | cons d ds ih =>
    have hk : ∀ n, k + 1 + n = k + (n + 1) := fun n => by omega
    simp only [deviceRangesOk, Bool.and_eq_true, ih, deviceRangeOk, List.contains_iff_mem, hk]
    constructor
    · rintro ⟨h1, h2⟩ n e hn
      cases n with
      | zero =>
        simp only [List.getElem?_cons_zero, Option.some.injEq] at hn
        subst hn
        exact h1
      | succ n => exact h2 n e (by simpa using hn)
    · intro h
      exact ⟨h 0 d (by simp), fun n e hn => h (n + 1) e (by simpa using hn)⟩

/-- A region is allowed exactly when it lies inside a RAM range (R8). -/
theorem regionOk_iff (p : Profile) (g : Option Region) :
    regionOk p g = true ↔
      ∀ x, g = some x →
        ∃ r ∈ p.ranges, r.kind = .ram ∧ r.start ≤ x.start ∧ x.start + x.length ≤ r.start + r.length := by
  cases g with
  | none => simp [regionOk]
  | some x => simp [regionOk, and_assoc]

/-- The image size changes only the ROM range (R170). -/
theorem mem_withRomLength {p : Profile} {n : Nat} {r : Range} (hk : r.kind ≠ .rom) :
    r ∈ (withRomLength p n).ranges ↔ r ∈ p.ranges := by
  simp only [withRomLength, List.mem_map]
  constructor
  · rintro ⟨q, hq, h⟩
    split at h
    · rename_i hr
      subst h
      exact absurd hr hk
    · subst h
      exact hq
  · intro h
    exact ⟨r, h, by simp [hk]⟩

end Sys2Proof.Machine
end

