-- ==== Sys2Proof/Laws/Decode.lean ====
section
/-! SUPPORT. What the fields of an encoded word read as, format by format (R71); a word put together again from its
fields; and the numbers of control registers. -/

namespace Sys2Proof

/-! ### Fields of a word put together from parts -/

@[simp] theorem opField_encodeN (op : BitVec 8) : opField (encodeN op) = op := by
  simp (disch := omega) only [opField, encodeN, BitVec.extractLsb'_append_eq_of_le]
  simp

@[simp] theorem low24_encodeN (op : BitVec 8) : low24 (encodeN op) = 0#24 := by
  simp (disch := omega) only [low24, encodeN, BitVec.extractLsb'_append_eq_of_add_le]
  simp

@[simp] theorem opField_encodeR (op : BitVec 8) (a b c : Reg) : opField (encodeR op a b c) = op := by
  simp (disch := omega) only [opField, encodeR, BitVec.extractLsb'_append_eq_of_le]
  simp

@[simp] theorem fieldA_encodeR (op : BitVec 8) (a b c : Reg) : fieldA (encodeR op a b c) = a := by
  simp (disch := omega) only [fieldA, encodeR, BitVec.extractLsb'_append_eq_of_le, BitVec.extractLsb'_append_eq_of_add_le]
  simp

@[simp] theorem fieldB_encodeR (op : BitVec 8) (a b c : Reg) : fieldB (encodeR op a b c) = b := by
  simp (disch := omega) only [fieldB, encodeR, BitVec.extractLsb'_append_eq_of_le, BitVec.extractLsb'_append_eq_of_add_le]
  simp

@[simp] theorem fieldC_encodeR (op : BitVec 8) (a b c : Reg) : fieldC (encodeR op a b c) = c := by
  simp (disch := omega) only [fieldC, encodeR, BitVec.extractLsb'_append_eq_of_le, BitVec.extractLsb'_append_eq_of_add_le]
  simp

@[simp] theorem low12_encodeR (op : BitVec 8) (a b c : Reg) : low12 (encodeR op a b c) = 0#12 := by
  simp (disch := omega) only [low12, encodeR, BitVec.extractLsb'_append_eq_of_add_le]
  simp

@[simp] theorem opField_encodeI (op : BitVec 8) (a b : Reg) (imm : BitVec 16) : opField (encodeI op a b imm) = op := by
  simp (disch := omega) only [opField, encodeI, BitVec.extractLsb'_append_eq_of_le]
  simp

@[simp] theorem fieldA_encodeI (op : BitVec 8) (a b : Reg) (imm : BitVec 16) : fieldA (encodeI op a b imm) = a := by
  simp (disch := omega) only [fieldA, encodeI, BitVec.extractLsb'_append_eq_of_le, BitVec.extractLsb'_append_eq_of_add_le]
  simp

@[simp] theorem fieldB_encodeI (op : BitVec 8) (a b : Reg) (imm : BitVec 16) : fieldB (encodeI op a b imm) = b := by
  simp (disch := omega) only [fieldB, encodeI, BitVec.extractLsb'_append_eq_of_le, BitVec.extractLsb'_append_eq_of_add_le]
  simp

@[simp] theorem imm16Field_encodeI (op : BitVec 8) (a b : Reg) (imm : BitVec 16) : imm16Field (encodeI op a b imm) = imm := by
  simp (disch := omega) only [imm16Field, encodeI, BitVec.extractLsb'_append_eq_of_add_le]
  simp

@[simp] theorem opField_encodeShift (op : BitVec 8) (a b : Reg) (n : BitVec 6) : opField (encodeShift op a b n) = op := by
  simp (disch := omega) only [opField, encodeShift, BitVec.extractLsb'_append_eq_of_le]
  simp

@[simp] theorem fieldA_encodeShift (op : BitVec 8) (a b : Reg) (n : BitVec 6) : fieldA (encodeShift op a b n) = a := by
  simp (disch := omega) only [fieldA, encodeShift, BitVec.extractLsb'_append_eq_of_le, BitVec.extractLsb'_append_eq_of_add_le]
  simp

@[simp] theorem fieldB_encodeShift (op : BitVec 8) (a b : Reg) (n : BitVec 6) : fieldB (encodeShift op a b n) = b := by
  simp (disch := omega) only [fieldB, encodeShift, BitVec.extractLsb'_append_eq_of_le, BitVec.extractLsb'_append_eq_of_add_le]
  simp

@[simp] theorem shamtHigh_encodeShift (op : BitVec 8) (a b : Reg) (n : BitVec 6) : shamtHigh (encodeShift op a b n) = 0#10 := by
  simp (disch := omega) only [shamtHigh, encodeShift, BitVec.extractLsb'_append_eq_of_le, BitVec.extractLsb'_append_eq_of_add_le]
  simp

@[simp] theorem shamtField_encodeShift (op : BitVec 8) (a b : Reg) (n : BitVec 6) : shamtField (encodeShift op a b n) = n := by
  simp (disch := omega) only [shamtField, encodeShift, BitVec.extractLsb'_append_eq_of_add_le]
  simp

@[simp] theorem opField_encodeJ (op : BitVec 8) (a : Reg) (imm : BitVec 20) : opField (encodeJ op a imm) = op := by
  simp (disch := omega) only [opField, encodeJ, BitVec.extractLsb'_append_eq_of_le]
  simp

@[simp] theorem fieldA_encodeJ (op : BitVec 8) (a : Reg) (imm : BitVec 20) : fieldA (encodeJ op a imm) = a := by
  simp (disch := omega) only [fieldA, encodeJ, BitVec.extractLsb'_append_eq_of_le, BitVec.extractLsb'_append_eq_of_add_le]
  simp

@[simp] theorem imm20Field_encodeJ (op : BitVec 8) (a : Reg) (imm : BitVec 20) : imm20Field (encodeJ op a imm) = imm := by
  simp (disch := omega) only [imm20Field, encodeJ, BitVec.extractLsb'_append_eq_of_add_le]
  simp

/-! ### A word put together again from its fields -/

/-- One bit of a slice of a word. -/
theorem slice_bit (w : BitVec 32) {i j n k : Nat} (hj : j < n) (hk : k + j = i) :
    (decide (j < n) && w.getLsbD (k + j)) = w.getLsbD i := by
  simp [hj, hk]

theorem encodeN_fields (w : BitVec 32) (h : low24 w = 0#24) : encodeN (opField w) = w := by
  rw [encodeN, ← h]
  apply BitVec.eq_of_getLsbD_eq
  intro i hi
  simp only [opField, low24, BitVec.getLsbD_append,
    BitVec.getLsbD_extractLsb']
  split_ifs <;> exact slice_bit w (by omega) (by omega)

theorem encodeR_fields (w : BitVec 32) (h : low12 w = 0#12) : encodeR (opField w) (fieldA w) (fieldB w) (fieldC w) = w := by
  rw [encodeR, ← h]
  apply BitVec.eq_of_getLsbD_eq
  intro i hi
  simp only [opField, fieldA, fieldB, fieldC, low12, BitVec.getLsbD_append,
    BitVec.getLsbD_extractLsb']
  split_ifs <;> exact slice_bit w (by omega) (by omega)

theorem encodeI_fields (w : BitVec 32) : encodeI (opField w) (fieldA w) (fieldB w) (imm16Field w) = w := by
  rw [encodeI]
  apply BitVec.eq_of_getLsbD_eq
  intro i hi
  simp only [opField, fieldA, fieldB, imm16Field, BitVec.getLsbD_append,
    BitVec.getLsbD_extractLsb']
  split_ifs <;> exact slice_bit w (by omega) (by omega)

theorem encodeShift_fields (w : BitVec 32) (h : shamtHigh w = 0#10) : encodeShift (opField w) (fieldA w) (fieldB w) (shamtField w) = w := by
  rw [encodeShift, ← h]
  apply BitVec.eq_of_getLsbD_eq
  intro i hi
  simp only [opField, fieldA, fieldB, shamtField, shamtHigh, BitVec.getLsbD_append,
    BitVec.getLsbD_extractLsb']
  split_ifs <;> exact slice_bit w (by omega) (by omega)

theorem encodeJ_fields (w : BitVec 32) : encodeJ (opField w) (fieldA w) (imm20Field w) = w := by
  rw [encodeJ]
  apply BitVec.eq_of_getLsbD_eq
  intro i hi
  simp only [opField, fieldA, imm20Field, BitVec.getLsbD_append,
    BitVec.getLsbD_extractLsb']
  split_ifs <;> exact slice_bit w (by omega) (by omega)

/-! ### Control register numbers (R25) -/

@[simp] theorem controlRegOf_number (cr : ControlReg) : controlRegOf cr.number = some cr := by cases cr <;> rfl

@[simp] theorem writableRegOf_number (cr : WritableReg) : writableRegOf cr.number = some cr := by cases cr <;> rfl

theorem number_of_controlRegOf {n : BitVec 16} {cr : ControlReg} (h : controlRegOf n = some cr) : cr.number = n := by
  unfold controlRegOf at h
  split at h <;> first | (cases h; rfl) | cases h

theorem number_of_writableRegOf {n : BitVec 16} {cr : WritableReg} (h : writableRegOf n = some cr) : cr.number = n := by
  unfold writableRegOf at h
  split at h <;> first | (cases h; rfl) | cases h

/-- Decoding a word whose opcode is known; with a literal opcode, decodeOp computes to the format's function. -/
theorem decode_of_op {w : BitVec 32} {op : BitVec 8} (h : opField w = op) (p : Profile) :
    decode p w = decodeOp p w op := by rw [decode, h]

/-! ### Each format's checks on a word of that format (R76) -/

theorem decodeN_encodeN (op : BitVec 8) (i : Instr) : decodeN (encodeN op) i = .ok i := by simp [decodeN]

theorem decodeR_encodeR (p : Profile) (op : BitVec 8) (a b c : Reg) (mk : Reg → Reg → Reg → Instr) :
    decodeR p (encodeR op a b c) mk =
      if regOk p a && regOk p b && regOk p c then .ok (mk a b c) else .error .register := by simp [decodeR]

theorem decodeI_encodeI (p : Profile) (op : BitVec 8) (a b : Reg) (imm : BitVec 16)
    (mk : Reg → Reg → BitVec 16 → Instr) :
    decodeI p (encodeI op a b imm) mk =
      if regOk p a && regOk p b then .ok (mk a b imm) else .error .register := by simp [decodeI]

theorem decodeI64_encodeI (p : Profile) (op : BitVec 8) (a b : Reg) (imm : BitVec 16)
    (mk : Reg → Reg → BitVec 16 → Instr) :
    decodeI64 p (encodeI op a b imm) mk =
      if regOk p a && regOk p b then
        if p.xlen = .x64 then .ok (mk a b imm) else .error .xlenGate
      else .error .register := by simp [decodeI64]

theorem decodeShift_encodeShift (p : Profile) (op : BitVec 8) (a b : Reg) (n : BitVec 6)
    (mk : Reg → Reg → BitVec 6 → Instr) :
    decodeShift p (encodeShift op a b n) mk =
      if regOk p a && regOk p b then
        if n.toNat < p.xlen.bits then .ok (mk a b n) else .error .shamt
      else .error .register := by simp [decodeShift]

theorem decodeI0_encodeI (p : Profile) (op : BitVec 8) (a : Reg) (imm : BitVec 16) (mk : Reg → BitVec 16 → Instr) :
    decodeI0 p (encodeI op a 0#4 imm) mk = if regOk p a then .ok (mk a imm) else .error .register := by
  simp [decodeI0]

theorem decodeIJ_encodeI (p : Profile) (op : BitVec 8) (b : Reg) (imm : BitVec 16) (mk : Reg → BitVec 16 → Instr) :
    decodeIJ p (encodeI op 0#4 b imm) mk = if regOk p b then .ok (mk b imm) else .error .register := by
  simp [decodeIJ]

theorem decodeJ_encodeJ (p : Profile) (op : BitVec 8) (a : Reg) (imm : BitVec 20) (mk : Reg → BitVec 20 → Instr) :
    decodeJ p (encodeJ op a imm) mk = if regOk p a then .ok (mk a imm) else .error .register := by simp [decodeJ]

theorem decodeJ0_encodeJ (op : BitVec 8) (imm : BitVec 20) (mk : BitVec 20 → Instr) :
    decodeJ0 (encodeJ op 0#4 imm) mk = .ok (mk imm) := by simp [decodeJ0]

theorem decodeMfc_encodeI (p : Profile) (op : BitVec 8) (a : Reg) (cr : ControlReg) :
    decodeMfc p (encodeI op a 0#4 cr.number) = if regOk p a then .ok (.mfc a cr) else .error .register := by
  simp [decodeMfc]

theorem decodeMtc_encodeI (p : Profile) (op : BitVec 8) (b : Reg) (cr : WritableReg) :
    decodeMtc p (encodeI op 0#4 b cr.number) = if regOk p b then .ok (.mtc cr b) else .error .register := by
  simp [decodeMtc]

/-! ### Bytes of a word (R45) -/

/-- The four bytes of a word, taken in memory order, are the word again. -/
@[simp] theorem wordOfBytes_wordBytes (w : BitVec 32) :
    wordOfBytes (w.extractLsb' 0 8) (w.extractLsb' 8 8) (w.extractLsb' 16 8) (w.extractLsb' 24 8) = w := by
  rw [wordOfBytes]
  apply BitVec.eq_of_getLsbD_eq
  intro i hi
  simp only [BitVec.getLsbD_append, BitVec.getLsbD_extractLsb']
  split_ifs <;> exact slice_bit w (by omega) (by omega)

end Sys2Proof
end

