-- ==== Sys2Proof/Laws/Device.lean ====
section
/-! SUPPORT. What a device's read, write and tick keep: the kind of its state and, for an opaque device, its legality. -/

namespace Sys2Proof.Machine

/-- A read leaves a state that the declared device can be in (R58). -/
theorem fits_read {d : DeviceDecl} {st st' : DevState} {off : Nat} {w : Width} {v : Word}
    (h : DevState.fits d st = true) (hr : st.read off w = some (v, st')) : DevState.fits d st' = true := by
  cases st with
  | timer t =>
    simp only [DevState.read, Option.map_eq_some_iff, Prod.mk.injEq] at hr
    obtain ⟨_, _, _, rfl⟩ := hr
    exact h
  | foreign n b =>
    simp only [DevState.read, Option.map_eq_some_iff] at hr
    obtain ⟨r, hr, he⟩ := hr
    cases he
    unfold DevState.fits at h ⊢
    cases hk : d.kind <;> simp only [hk, Bool.and_eq_true, decide_eq_true_eq, Bool.false_eq_true] at h ⊢
    all_goals exact ⟨h.1, (Config.handler n).read_legal _ _ _ _ _ h.2 hr⟩

/-- A write leaves a state that the declared device can be in (R58). -/
theorem fits_write {d : DeviceDecl} {st st' : DevState} {off : Nat} {w : Width} {v : Word}
    (h : DevState.fits d st = true) (hr : st.write off w v = some st') : DevState.fits d st' = true := by
  cases st with
  | timer t =>
    simp only [DevState.write, Option.map_eq_some_iff] at hr
    obtain ⟨_, _, rfl⟩ := hr
    unfold DevState.fits at h ⊢
    cases hk : d.kind <;> simp_all
  | foreign n b =>
    simp only [DevState.write, Option.map_eq_some_iff] at hr
    obtain ⟨r, hr, rfl⟩ := hr
    unfold DevState.fits at h ⊢
    cases hk : d.kind <;> simp only [hk, Bool.and_eq_true, decide_eq_true_eq, Bool.false_eq_true] at h ⊢
    all_goals exact ⟨h.1, (Config.handler n).write_legal _ _ _ _ _ h.2 hr⟩

/-- A tick leaves a state that the declared device can be in (R58). -/
theorem fits_tick {d : DeviceDecl} {st : DevState} (n : Counter) (h : DevState.fits d st = true) :
    DevState.fits d (st.tick n) = true := by
  cases st with
  | timer t =>
    unfold DevState.fits at h
    unfold DevState.fits DevState.tick
    cases hk : d.kind <;> simp_all
  | foreign k b =>
    unfold DevState.fits at h
    unfold DevState.fits DevState.tick
    cases hk : d.kind <;> simp only [hk, Bool.and_eq_true, decide_eq_true_eq, Bool.false_eq_true] at h ⊢
    all_goals exact ⟨h.1, (Config.handler k).tick_legal _ _ h.2⟩

end Sys2Proof.Machine
end

