-- ==== Sys2Proof/Laws/Operands.lean ====
section
/-! SUPPORT. The value primitives as numbers: what narrowing to XLEN and ADDR_BITS bits does, and that results fit. -/

namespace Sys2Proof.Machine

theorem xlen_bits_le (p : Profile) : p.xlen.bits ≤ 64 := by cases h : p.xlen <;> simp [XLen.bits]

/-- The XLEN-bit value of a word of storage is the word modulo 2^XLEN. -/
theorem fitX_toNat (p : Profile) (v : Word) : (fitX p v).toNat = v.toNat % 2 ^ p.xlen.bits := by
  have hv := v.isLt
  unfold fitX
  cases h : p.xlen <;> simp [XLen.bits] <;> omega

theorem unsignedX_eq (p : Profile) (v : Word) : unsignedX p v = v.toNat % 2 ^ p.xlen.bits := fitX_toNat p v

theorem unsignedX_lt (p : Profile) (v : Word) : unsignedX p v < 2 ^ p.xlen.bits := by
  rw [unsignedX_eq]
  exact Nat.mod_lt _ (by positivity)

/-- A value that fits is left alone. -/
theorem fitX_of_lt {p : Profile} {v : Word} (h : v.toNat < 2 ^ p.xlen.bits) : fitX p v = v := by
  apply BitVec.eq_of_toNat_eq
  rw [fitX_toNat, Nat.mod_eq_of_lt h]

theorem fitX_lt (p : Profile) (v : Word) : (fitX p v).toNat < 2 ^ p.xlen.bits := unsignedX_lt p v

/-- trunc_XLEN(i) is i mod 2^XLEN (R10). -/
theorem truncX_toNat (p : Profile) (i : Int) : ((truncX p i).toNat : Int) = i % 2 ^ p.xlen.bits := by
  unfold truncX
  cases h : p.xlen <;> simp [XLen.bits, BitVec.toNat_ofInt] <;> omega

theorem truncX_lt (p : Profile) (i : Int) : (truncX p i).toNat < 2 ^ p.xlen.bits := by
  have h := truncX_toNat p i
  have h2 : i % 2 ^ p.xlen.bits < 2 ^ p.xlen.bits := Int.emod_lt_of_pos _ (by positivity)
  have h3 : ((truncX p i).toNat : Int) < ((2 ^ p.xlen.bits : Nat) : Int) := by push_cast; omega
  exact_mod_cast h3

@[simp] theorem fitX_truncX (p : Profile) (i : Int) : fitX p (truncX p i) = truncX p i := fitX_of_lt (truncX_lt p i)

/-- trunc_XLEN of a natural number. -/
theorem truncX_natCast_toNat (p : Profile) (n : Nat) : (truncX p (n : Int)).toNat = n % 2 ^ p.xlen.bits := by
  have h := truncX_toNat p n
  exact_mod_cast h

/-- The signed value is the unsigned one, less 2^XLEN when the top bit is set (R10). -/
theorem signedX_eq (p : Profile) (v : Word) :
    signedX p v =
      if unsignedX p v < 2 ^ (p.xlen.bits - 1) then (unsignedX p v : Int) else unsignedX p v - 2 ^ p.xlen.bits := by
  have hv := v.isLt
  rw [unsignedX_eq]
  unfold signedX
  cases h : p.xlen <;> simp [XLen.bits, BitVec.toInt_eq_toNat_cond] <;> split_ifs <;> omega

/-- 0 and 1 fit. -/
@[simp] theorem fitX_boolWord (p : Profile) (b : Bool) : fitX p (boolWord b) = boolWord b := by
  unfold fitX boolWord
  cases p.xlen <;> cases b <;> rfl

/-- trunc_ADDR_BITS(n) is n mod 2^ADDR_BITS (R10). -/
theorem truncAddr_toNat {p : Profile} (hp : p.addrBits ≤ 64) (n : Nat) : (truncAddr p n).toNat = n % 2 ^ p.addrBits := by
  rw [truncAddr, BitVec.toNat_ofNat, Nat.mod_eq_of_lt]
  exact lt_of_lt_of_le (Nat.mod_lt _ (by positivity)) (Nat.pow_le_pow_right (by norm_num) hp)

theorem truncAddr_lt (p : Profile) (n : Nat) : (truncAddr p n).toNat < 2 ^ p.addrBits := by
  rw [truncAddr, BitVec.toNat_ofNat]
  exact lt_of_le_of_lt (Nat.mod_le _ _) (Nat.mod_lt _ (by positivity))

/-- An address that fits is left alone. -/
theorem truncAddr_of_lt {p : Profile} {a : Addr} (h : a.toNat < 2 ^ p.addrBits) : truncAddr p a.toNat = a := by
  apply BitVec.eq_of_toNat_eq
  rw [truncAddr, BitVec.toNat_ofNat, Nat.mod_eq_of_lt h, Nat.mod_eq_of_lt a.isLt]

/-! ### STATUS and CAUSE -/

/-- STATUS read and written back is unchanged (R26, R142, R143). -/
@[simp] theorem statusOfWord_statusWord (st : Status) : statusOfWord (statusWord st) = st := by
  obtain ⟨ie, exl, pie, im⟩ := st
  have him : (statusWord ⟨ie, exl, pie, im⟩).extractLsb' 8 8 = im := by
    simp (disch := omega) only [statusWord, BitVec.extractLsb'_append_eq_of_le, BitVec.extractLsb'_append_eq_of_add_le]
    simp
  have h0 : (statusWord ⟨ie, exl, pie, im⟩).getLsbD 0 = ie := by
    simp only [statusWord, BitVec.getLsbD_append]; cases ie <;> rfl
  have h1 : (statusWord ⟨ie, exl, pie, im⟩).getLsbD 1 = exl := by
    simp only [statusWord, BitVec.getLsbD_append]; cases exl <;> rfl
  have h2 : (statusWord ⟨ie, exl, pie, im⟩).getLsbD 2 = pie := by
    simp only [statusWord, BitVec.getLsbD_append]; cases pie <;> rfl
  rw [statusOfWord, him, h0, h1, h2]

/-- A cause's code names it (R146). -/
@[simp] theorem causeOfNumber_causeNumber (c : Cause) : causeOfNumber (causeNumber c).toNat = some c := by
  cases c <;> rfl

end Sys2Proof.Machine
end

