-- ==== Sys2Proof/Laws/State.lean ====
section
/-! SUPPORT. One lemma per field per update of the state, so that no proof unfolds a record update; and what a register
reads as after a write. -/

namespace Sys2Proof.Machine

/-! ### writeReg -/

@[simp] theorem writeReg_profile (s : State) (r : Reg) (v : Word) : (s.writeReg r v).profile = s.profile := rfl
@[simp] theorem writeReg_regs (s : State) (r : Reg) (v : Word) : (s.writeReg r v).regs = s.regs.set r.toNat (fitX s.profile v) r.isLt := rfl
@[simp] theorem writeReg_pc (s : State) (r : Reg) (v : Word) : (s.writeReg r v).pc = s.pc := rfl
@[simp] theorem writeReg_run (s : State) (r : Reg) (v : Word) : (s.writeReg r v).run = s.run := rfl
@[simp] theorem writeReg_status (s : State) (r : Reg) (v : Word) : (s.writeReg r v).status = s.status := rfl
@[simp] theorem writeReg_causeCode (s : State) (r : Reg) (v : Word) : (s.writeReg r v).causeCode = s.causeCode := rfl
@[simp] theorem writeReg_epc (s : State) (r : Reg) (v : Word) : (s.writeReg r v).epc = s.epc := rfl
@[simp] theorem writeReg_badaddr (s : State) (r : Reg) (v : Word) : (s.writeReg r v).badaddr = s.badaddr := rfl
@[simp] theorem writeReg_scratch (s : State) (r : Reg) (v : Word) : (s.writeReg r v).scratch = s.scratch := rfl
@[simp] theorem writeReg_evec (s : State) (r : Reg) (v : Word) : (s.writeReg r v).evec = s.evec := rfl
@[simp] theorem writeReg_mem (s : State) (r : Reg) (v : Word) : (s.writeReg r v).mem = s.mem := rfl
@[simp] theorem writeReg_devs (s : State) (r : Reg) (v : Word) : (s.writeReg r v).devs = s.devs := rfl
@[simp] theorem writeReg_cycles (s : State) (r : Reg) (v : Word) : (s.writeReg r v).cycles = s.cycles := rfl
@[simp] theorem writeReg_frame (s : State) (r : Reg) (v : Word) : (s.writeReg r v).frame = s.frame := rfl
@[simp] theorem writeReg_phase (s : State) (r : Reg) (v : Word) : (s.writeReg r v).phase = s.phase := rfl
@[simp] theorem writeReg_queue (s : State) (r : Reg) (v : Word) : (s.writeReg r v).queue = s.queue := rfl
@[simp] theorem writeReg_stopReq (s : State) (r : Reg) (v : Word) : (s.writeReg r v).stopReq = s.stopReq := rfl
@[simp] theorem writeReg_captureReq (s : State) (r : Reg) (v : Word) : (s.writeReg r v).captureReq = s.captureReq := rfl
@[simp] theorem writeReg_cStart (s : State) (r : Reg) (v : Word) : (s.writeReg r v).cStart = s.cStart := rfl
@[simp] theorem writeReg_report (s : State) (r : Reg) (v : Word) : (s.writeReg r v).report = s.report := rfl

/-! ### jumpTo, advance -/

@[simp] theorem jumpTo_profile (s : State) (t : Addr) : (s.jumpTo t).profile = s.profile := rfl
@[simp] theorem jumpTo_regs (s : State) (t : Addr) : (s.jumpTo t).regs = s.regs := rfl
@[simp] theorem jumpTo_pc (s : State) (t : Addr) : (s.jumpTo t).pc = t := rfl
@[simp] theorem jumpTo_run (s : State) (t : Addr) : (s.jumpTo t).run = s.run := rfl
@[simp] theorem jumpTo_status (s : State) (t : Addr) : (s.jumpTo t).status = s.status := rfl
@[simp] theorem jumpTo_causeCode (s : State) (t : Addr) : (s.jumpTo t).causeCode = s.causeCode := rfl
@[simp] theorem jumpTo_epc (s : State) (t : Addr) : (s.jumpTo t).epc = s.epc := rfl
@[simp] theorem jumpTo_badaddr (s : State) (t : Addr) : (s.jumpTo t).badaddr = s.badaddr := rfl
@[simp] theorem jumpTo_scratch (s : State) (t : Addr) : (s.jumpTo t).scratch = s.scratch := rfl
@[simp] theorem jumpTo_evec (s : State) (t : Addr) : (s.jumpTo t).evec = s.evec := rfl
@[simp] theorem jumpTo_mem (s : State) (t : Addr) : (s.jumpTo t).mem = s.mem := rfl
@[simp] theorem jumpTo_devs (s : State) (t : Addr) : (s.jumpTo t).devs = s.devs := rfl
@[simp] theorem jumpTo_cycles (s : State) (t : Addr) : (s.jumpTo t).cycles = s.cycles := rfl
@[simp] theorem jumpTo_frame (s : State) (t : Addr) : (s.jumpTo t).frame = s.frame := rfl
@[simp] theorem jumpTo_phase (s : State) (t : Addr) : (s.jumpTo t).phase = s.phase := rfl
@[simp] theorem jumpTo_queue (s : State) (t : Addr) : (s.jumpTo t).queue = s.queue := rfl
@[simp] theorem jumpTo_stopReq (s : State) (t : Addr) : (s.jumpTo t).stopReq = s.stopReq := rfl
@[simp] theorem jumpTo_captureReq (s : State) (t : Addr) : (s.jumpTo t).captureReq = s.captureReq := rfl
@[simp] theorem jumpTo_cStart (s : State) (t : Addr) : (s.jumpTo t).cStart = s.cStart := rfl
@[simp] theorem jumpTo_report (s : State) (t : Addr) : (s.jumpTo t).report = s.report := rfl
@[simp] theorem advance_profile (s : State) : (s.advance).profile = s.profile := rfl
@[simp] theorem advance_regs (s : State) : (s.advance).regs = s.regs := rfl
@[simp] theorem advance_pc (s : State) : (s.advance).pc = nextPc s.profile s.pc := rfl
@[simp] theorem advance_run (s : State) : (s.advance).run = s.run := rfl
@[simp] theorem advance_status (s : State) : (s.advance).status = s.status := rfl
@[simp] theorem advance_causeCode (s : State) : (s.advance).causeCode = s.causeCode := rfl
@[simp] theorem advance_epc (s : State) : (s.advance).epc = s.epc := rfl
@[simp] theorem advance_badaddr (s : State) : (s.advance).badaddr = s.badaddr := rfl
@[simp] theorem advance_scratch (s : State) : (s.advance).scratch = s.scratch := rfl
@[simp] theorem advance_evec (s : State) : (s.advance).evec = s.evec := rfl
@[simp] theorem advance_mem (s : State) : (s.advance).mem = s.mem := rfl
@[simp] theorem advance_devs (s : State) : (s.advance).devs = s.devs := rfl
@[simp] theorem advance_cycles (s : State) : (s.advance).cycles = s.cycles := rfl
@[simp] theorem advance_frame (s : State) : (s.advance).frame = s.frame := rfl
@[simp] theorem advance_phase (s : State) : (s.advance).phase = s.phase := rfl
@[simp] theorem advance_queue (s : State) : (s.advance).queue = s.queue := rfl
@[simp] theorem advance_stopReq (s : State) : (s.advance).stopReq = s.stopReq := rfl
@[simp] theorem advance_captureReq (s : State) : (s.advance).captureReq = s.captureReq := rfl
@[simp] theorem advance_cStart (s : State) : (s.advance).cStart = s.cStart := rfl
@[simp] theorem advance_report (s : State) : (s.advance).report = s.report := rfl

/-! ### halt, returnFromTrap, addCycles -/

@[simp] theorem halt_profile (s : State) (r : HaltReason) : (s.halt r).profile = s.profile := rfl
@[simp] theorem halt_regs (s : State) (r : HaltReason) : (s.halt r).regs = s.regs := rfl
@[simp] theorem halt_pc (s : State) (r : HaltReason) : (s.halt r).pc = s.pc := rfl
@[simp] theorem halt_run (s : State) (r : HaltReason) : (s.halt r).run = .halted r := rfl
@[simp] theorem halt_status (s : State) (r : HaltReason) : (s.halt r).status = s.status := rfl
@[simp] theorem halt_causeCode (s : State) (r : HaltReason) : (s.halt r).causeCode = s.causeCode := rfl
@[simp] theorem halt_epc (s : State) (r : HaltReason) : (s.halt r).epc = s.epc := rfl
@[simp] theorem halt_badaddr (s : State) (r : HaltReason) : (s.halt r).badaddr = s.badaddr := rfl
@[simp] theorem halt_scratch (s : State) (r : HaltReason) : (s.halt r).scratch = s.scratch := rfl
@[simp] theorem halt_evec (s : State) (r : HaltReason) : (s.halt r).evec = s.evec := rfl
@[simp] theorem halt_mem (s : State) (r : HaltReason) : (s.halt r).mem = s.mem := rfl
@[simp] theorem halt_devs (s : State) (r : HaltReason) : (s.halt r).devs = s.devs := rfl
@[simp] theorem halt_cycles (s : State) (r : HaltReason) : (s.halt r).cycles = s.cycles := rfl
@[simp] theorem halt_frame (s : State) (r : HaltReason) : (s.halt r).frame = s.frame := rfl
@[simp] theorem halt_phase (s : State) (r : HaltReason) : (s.halt r).phase = s.phase := rfl
@[simp] theorem halt_queue (s : State) (r : HaltReason) : (s.halt r).queue = s.queue := rfl
@[simp] theorem halt_stopReq (s : State) (r : HaltReason) : (s.halt r).stopReq = s.stopReq := rfl
@[simp] theorem halt_captureReq (s : State) (r : HaltReason) : (s.halt r).captureReq = s.captureReq := rfl
@[simp] theorem halt_cStart (s : State) (r : HaltReason) : (s.halt r).cStart = s.cStart := rfl
@[simp] theorem halt_report (s : State) (r : HaltReason) : (s.halt r).report = s.report := rfl
@[simp] theorem returnFromTrap_profile (s : State) : (s.returnFromTrap).profile = s.profile := rfl
@[simp] theorem returnFromTrap_regs (s : State) : (s.returnFromTrap).regs = s.regs := rfl
@[simp] theorem returnFromTrap_pc (s : State) : (s.returnFromTrap).pc = s.epc := rfl
@[simp] theorem returnFromTrap_run (s : State) : (s.returnFromTrap).run = s.run := rfl
@[simp] theorem returnFromTrap_status (s : State) : (s.returnFromTrap).status = statusOnReturn s.status := rfl
@[simp] theorem returnFromTrap_causeCode (s : State) : (s.returnFromTrap).causeCode = s.causeCode := rfl
@[simp] theorem returnFromTrap_epc (s : State) : (s.returnFromTrap).epc = s.epc := rfl
@[simp] theorem returnFromTrap_badaddr (s : State) : (s.returnFromTrap).badaddr = s.badaddr := rfl
@[simp] theorem returnFromTrap_scratch (s : State) : (s.returnFromTrap).scratch = s.scratch := rfl
@[simp] theorem returnFromTrap_evec (s : State) : (s.returnFromTrap).evec = s.evec := rfl
@[simp] theorem returnFromTrap_mem (s : State) : (s.returnFromTrap).mem = s.mem := rfl
@[simp] theorem returnFromTrap_devs (s : State) : (s.returnFromTrap).devs = s.devs := rfl
@[simp] theorem returnFromTrap_cycles (s : State) : (s.returnFromTrap).cycles = s.cycles := rfl
@[simp] theorem returnFromTrap_frame (s : State) : (s.returnFromTrap).frame = s.frame := rfl
@[simp] theorem returnFromTrap_phase (s : State) : (s.returnFromTrap).phase = s.phase := rfl
@[simp] theorem returnFromTrap_queue (s : State) : (s.returnFromTrap).queue = s.queue := rfl
@[simp] theorem returnFromTrap_stopReq (s : State) : (s.returnFromTrap).stopReq = s.stopReq := rfl
@[simp] theorem returnFromTrap_captureReq (s : State) : (s.returnFromTrap).captureReq = s.captureReq := rfl
@[simp] theorem returnFromTrap_cStart (s : State) : (s.returnFromTrap).cStart = s.cStart := rfl
@[simp] theorem returnFromTrap_report (s : State) : (s.returnFromTrap).report = s.report := rfl
@[simp] theorem addCycles_profile (s : State) (n : Nat) : (s.addCycles n).profile = s.profile := rfl
@[simp] theorem addCycles_regs (s : State) (n : Nat) : (s.addCycles n).regs = s.regs := rfl
@[simp] theorem addCycles_pc (s : State) (n : Nat) : (s.addCycles n).pc = s.pc := rfl
@[simp] theorem addCycles_run (s : State) (n : Nat) : (s.addCycles n).run = s.run := rfl
@[simp] theorem addCycles_status (s : State) (n : Nat) : (s.addCycles n).status = s.status := rfl
@[simp] theorem addCycles_causeCode (s : State) (n : Nat) : (s.addCycles n).causeCode = s.causeCode := rfl
@[simp] theorem addCycles_epc (s : State) (n : Nat) : (s.addCycles n).epc = s.epc := rfl
@[simp] theorem addCycles_badaddr (s : State) (n : Nat) : (s.addCycles n).badaddr = s.badaddr := rfl
@[simp] theorem addCycles_scratch (s : State) (n : Nat) : (s.addCycles n).scratch = s.scratch := rfl
@[simp] theorem addCycles_evec (s : State) (n : Nat) : (s.addCycles n).evec = s.evec := rfl
@[simp] theorem addCycles_mem (s : State) (n : Nat) : (s.addCycles n).mem = s.mem := rfl
@[simp] theorem addCycles_devs (s : State) (n : Nat) : (s.addCycles n).devs = s.devs := rfl
@[simp] theorem addCycles_cycles (s : State) (n : Nat) : (s.addCycles n).cycles = s.cycles + BitVec.ofNat 64 n := rfl
@[simp] theorem addCycles_frame (s : State) (n : Nat) : (s.addCycles n).frame = s.frame := rfl
@[simp] theorem addCycles_phase (s : State) (n : Nat) : (s.addCycles n).phase = s.phase := rfl
@[simp] theorem addCycles_queue (s : State) (n : Nat) : (s.addCycles n).queue = s.queue := rfl
@[simp] theorem addCycles_stopReq (s : State) (n : Nat) : (s.addCycles n).stopReq = s.stopReq := rfl
@[simp] theorem addCycles_captureReq (s : State) (n : Nat) : (s.addCycles n).captureReq = s.captureReq := rfl
@[simp] theorem addCycles_cStart (s : State) (n : Nat) : (s.addCycles n).cStart = s.cStart := rfl
@[simp] theorem addCycles_report (s : State) (n : Nat) : (s.addCycles n).report = s.report := rfl

/-! ### writeControl: the fields no control register write touches -/

@[simp] theorem writeControl_profile (s : State) (cr : WritableReg) (v : Word) : (s.writeControl cr v).profile = s.profile := by cases cr <;> rfl
@[simp] theorem writeControl_regs (s : State) (cr : WritableReg) (v : Word) : (s.writeControl cr v).regs = s.regs := by cases cr <;> rfl
@[simp] theorem writeControl_pc (s : State) (cr : WritableReg) (v : Word) : (s.writeControl cr v).pc = s.pc := by cases cr <;> rfl
@[simp] theorem writeControl_run (s : State) (cr : WritableReg) (v : Word) : (s.writeControl cr v).run = s.run := by cases cr <;> rfl
@[simp] theorem writeControl_causeCode (s : State) (cr : WritableReg) (v : Word) : (s.writeControl cr v).causeCode = s.causeCode := by cases cr <;> rfl
@[simp] theorem writeControl_badaddr (s : State) (cr : WritableReg) (v : Word) : (s.writeControl cr v).badaddr = s.badaddr := by cases cr <;> rfl
@[simp] theorem writeControl_mem (s : State) (cr : WritableReg) (v : Word) : (s.writeControl cr v).mem = s.mem := by cases cr <;> rfl
@[simp] theorem writeControl_devs (s : State) (cr : WritableReg) (v : Word) : (s.writeControl cr v).devs = s.devs := by cases cr <;> rfl
@[simp] theorem writeControl_cycles (s : State) (cr : WritableReg) (v : Word) : (s.writeControl cr v).cycles = s.cycles := by cases cr <;> rfl
@[simp] theorem writeControl_frame (s : State) (cr : WritableReg) (v : Word) : (s.writeControl cr v).frame = s.frame := by cases cr <;> rfl
@[simp] theorem writeControl_phase (s : State) (cr : WritableReg) (v : Word) : (s.writeControl cr v).phase = s.phase := by cases cr <;> rfl
@[simp] theorem writeControl_queue (s : State) (cr : WritableReg) (v : Word) : (s.writeControl cr v).queue = s.queue := by cases cr <;> rfl
@[simp] theorem writeControl_stopReq (s : State) (cr : WritableReg) (v : Word) : (s.writeControl cr v).stopReq = s.stopReq := by cases cr <;> rfl
@[simp] theorem writeControl_captureReq (s : State) (cr : WritableReg) (v : Word) : (s.writeControl cr v).captureReq = s.captureReq := by cases cr <;> rfl
@[simp] theorem writeControl_cStart (s : State) (cr : WritableReg) (v : Word) : (s.writeControl cr v).cStart = s.cStart := by cases cr <;> rfl
@[simp] theorem writeControl_report (s : State) (cr : WritableReg) (v : Word) : (s.writeControl cr v).report = s.report := by cases cr <;> rfl
@[simp] theorem writeControl_status_status (s : State) (v : Word) : (s.writeControl .status v).status = statusOfWord v := rfl
@[simp] theorem writeControl_status_epc (s : State) (v : Word) : (s.writeControl .status v).epc = s.epc := rfl
@[simp] theorem writeControl_status_scratch (s : State) (v : Word) : (s.writeControl .status v).scratch = s.scratch := rfl
@[simp] theorem writeControl_status_evec (s : State) (v : Word) : (s.writeControl .status v).evec = s.evec := rfl
@[simp] theorem writeControl_epc_status (s : State) (v : Word) : (s.writeControl .epc v).status = s.status := rfl
@[simp] theorem writeControl_epc_epc (s : State) (v : Word) : (s.writeControl .epc v).epc = truncAddr s.profile v.toNat := rfl
@[simp] theorem writeControl_epc_scratch (s : State) (v : Word) : (s.writeControl .epc v).scratch = s.scratch := rfl
@[simp] theorem writeControl_epc_evec (s : State) (v : Word) : (s.writeControl .epc v).evec = s.evec := rfl
@[simp] theorem writeControl_scratch_status (s : State) (v : Word) : (s.writeControl .scratch v).status = s.status := rfl
@[simp] theorem writeControl_scratch_epc (s : State) (v : Word) : (s.writeControl .scratch v).epc = s.epc := rfl
@[simp] theorem writeControl_scratch_scratch (s : State) (v : Word) : (s.writeControl .scratch v).scratch = fitX s.profile v := rfl
@[simp] theorem writeControl_scratch_evec (s : State) (v : Word) : (s.writeControl .scratch v).evec = s.evec := rfl
@[simp] theorem writeControl_evec_status (s : State) (v : Word) : (s.writeControl .evec v).status = s.status := rfl
@[simp] theorem writeControl_evec_epc (s : State) (v : Word) : (s.writeControl .evec v).epc = s.epc := rfl
@[simp] theorem writeControl_evec_scratch (s : State) (v : Word) : (s.writeControl .evec v).scratch = s.scratch := rfl
@[simp] theorem writeControl_evec_evec (s : State) (v : Word) : (s.writeControl .evec v).evec = truncAddr s.profile v.toNat &&& ~~~ 3#64 := rfl

/-! ### takeTrap: its two cases, and the fields neither touches -/

/-- A trap that cannot be delivered halts the CPU and changes nothing else (R150). -/
theorem takeTrap_fatal {s : State} {c : Cause} (h : s.trapIsFatal c = true) (epc : Addr) (info : Word) :
    s.takeTrap c epc info = s.halt (.fatal c epc info) := by
  rw [State.takeTrap, if_pos h]

/-- A trap that is delivered writes EPC, CAUSE.CODE, BADADDR, STATUS and pc (R150). -/
theorem takeTrap_delivered {s : State} {c : Cause} (h : s.trapIsFatal c = false) (epc : Addr) (info : Word) :
    s.takeTrap c epc info =
      { s with epc := epc, causeCode := c, badaddr := info, status := statusOnTrap s.status, pc := s.evec } := by
  rw [State.takeTrap, if_neg (by simp [h])]

@[simp] theorem takeTrap_profile (s : State) (c : Cause) (epc : Addr) (info : Word) : (s.takeTrap c epc info).profile = s.profile := by unfold State.takeTrap; split <;> rfl
@[simp] theorem takeTrap_regs (s : State) (c : Cause) (epc : Addr) (info : Word) : (s.takeTrap c epc info).regs = s.regs := by unfold State.takeTrap; split <;> rfl
@[simp] theorem takeTrap_scratch (s : State) (c : Cause) (epc : Addr) (info : Word) : (s.takeTrap c epc info).scratch = s.scratch := by unfold State.takeTrap; split <;> rfl
@[simp] theorem takeTrap_evec (s : State) (c : Cause) (epc : Addr) (info : Word) : (s.takeTrap c epc info).evec = s.evec := by unfold State.takeTrap; split <;> rfl
@[simp] theorem takeTrap_mem (s : State) (c : Cause) (epc : Addr) (info : Word) : (s.takeTrap c epc info).mem = s.mem := by unfold State.takeTrap; split <;> rfl
@[simp] theorem takeTrap_devs (s : State) (c : Cause) (epc : Addr) (info : Word) : (s.takeTrap c epc info).devs = s.devs := by unfold State.takeTrap; split <;> rfl
@[simp] theorem takeTrap_cycles (s : State) (c : Cause) (epc : Addr) (info : Word) : (s.takeTrap c epc info).cycles = s.cycles := by unfold State.takeTrap; split <;> rfl
@[simp] theorem takeTrap_frame (s : State) (c : Cause) (epc : Addr) (info : Word) : (s.takeTrap c epc info).frame = s.frame := by unfold State.takeTrap; split <;> rfl
@[simp] theorem takeTrap_phase (s : State) (c : Cause) (epc : Addr) (info : Word) : (s.takeTrap c epc info).phase = s.phase := by unfold State.takeTrap; split <;> rfl
@[simp] theorem takeTrap_queue (s : State) (c : Cause) (epc : Addr) (info : Word) : (s.takeTrap c epc info).queue = s.queue := by unfold State.takeTrap; split <;> rfl
@[simp] theorem takeTrap_stopReq (s : State) (c : Cause) (epc : Addr) (info : Word) : (s.takeTrap c epc info).stopReq = s.stopReq := by unfold State.takeTrap; split <;> rfl
@[simp] theorem takeTrap_captureReq (s : State) (c : Cause) (epc : Addr) (info : Word) : (s.takeTrap c epc info).captureReq = s.captureReq := by unfold State.takeTrap; split <;> rfl
@[simp] theorem takeTrap_cStart (s : State) (c : Cause) (epc : Addr) (info : Word) : (s.takeTrap c epc info).cStart = s.cStart := by unfold State.takeTrap; split <;> rfl
@[simp] theorem takeTrap_report (s : State) (c : Cause) (epc : Addr) (info : Word) : (s.takeTrap c epc info).report = s.report := by unfold State.takeTrap; split <;> rfl
@[simp] theorem raise_profile (s : State) (c : Cause) (info : Word) : (s.raise c info).profile = s.profile := by simp [State.raise]
@[simp] theorem raise_regs (s : State) (c : Cause) (info : Word) : (s.raise c info).regs = s.regs := by simp [State.raise]
@[simp] theorem raise_scratch (s : State) (c : Cause) (info : Word) : (s.raise c info).scratch = s.scratch := by simp [State.raise]
@[simp] theorem raise_evec (s : State) (c : Cause) (info : Word) : (s.raise c info).evec = s.evec := by simp [State.raise]
@[simp] theorem raise_mem (s : State) (c : Cause) (info : Word) : (s.raise c info).mem = s.mem := by simp [State.raise]
@[simp] theorem raise_devs (s : State) (c : Cause) (info : Word) : (s.raise c info).devs = s.devs := by simp [State.raise]
@[simp] theorem raise_cycles (s : State) (c : Cause) (info : Word) : (s.raise c info).cycles = s.cycles := by simp [State.raise]
@[simp] theorem raise_frame (s : State) (c : Cause) (info : Word) : (s.raise c info).frame = s.frame := by simp [State.raise]
@[simp] theorem raise_phase (s : State) (c : Cause) (info : Word) : (s.raise c info).phase = s.phase := by simp [State.raise]
@[simp] theorem raise_queue (s : State) (c : Cause) (info : Word) : (s.raise c info).queue = s.queue := by simp [State.raise]
@[simp] theorem raise_stopReq (s : State) (c : Cause) (info : Word) : (s.raise c info).stopReq = s.stopReq := by simp [State.raise]
@[simp] theorem raise_captureReq (s : State) (c : Cause) (info : Word) : (s.raise c info).captureReq = s.captureReq := by simp [State.raise]
@[simp] theorem raise_cStart (s : State) (c : Cause) (info : Word) : (s.raise c info).cStart = s.cStart := by simp [State.raise]
@[simp] theorem raise_report (s : State) (c : Cause) (info : Word) : (s.raise c info).report = s.report := by simp [State.raise]

/-! ### interruptCheck and retire: the fields they leave -/

@[simp] theorem interruptCheck_profile (s : State) : (s.interruptCheck).profile = s.profile := by unfold State.interruptCheck; split <;> simp
@[simp] theorem interruptCheck_regs (s : State) : (s.interruptCheck).regs = s.regs := by unfold State.interruptCheck; split <;> simp
@[simp] theorem interruptCheck_scratch (s : State) : (s.interruptCheck).scratch = s.scratch := by unfold State.interruptCheck; split <;> simp
@[simp] theorem interruptCheck_evec (s : State) : (s.interruptCheck).evec = s.evec := by unfold State.interruptCheck; split <;> simp
@[simp] theorem interruptCheck_mem (s : State) : (s.interruptCheck).mem = s.mem := by unfold State.interruptCheck; split <;> simp
@[simp] theorem interruptCheck_devs (s : State) : (s.interruptCheck).devs = s.devs := by unfold State.interruptCheck; split <;> simp
@[simp] theorem interruptCheck_cycles (s : State) : (s.interruptCheck).cycles = s.cycles := by unfold State.interruptCheck; split <;> simp
@[simp] theorem interruptCheck_frame (s : State) : (s.interruptCheck).frame = s.frame := by unfold State.interruptCheck; split <;> simp
@[simp] theorem interruptCheck_phase (s : State) : (s.interruptCheck).phase = s.phase := by unfold State.interruptCheck; split <;> simp
@[simp] theorem interruptCheck_queue (s : State) : (s.interruptCheck).queue = s.queue := by unfold State.interruptCheck; split <;> simp
@[simp] theorem interruptCheck_stopReq (s : State) : (s.interruptCheck).stopReq = s.stopReq := by unfold State.interruptCheck; split <;> simp
@[simp] theorem interruptCheck_captureReq (s : State) : (s.interruptCheck).captureReq = s.captureReq := by unfold State.interruptCheck; split <;> simp
@[simp] theorem interruptCheck_cStart (s : State) : (s.interruptCheck).cStart = s.cStart := by unfold State.interruptCheck; split <;> simp
@[simp] theorem interruptCheck_report (s : State) : (s.interruptCheck).report = s.report := by unfold State.interruptCheck; split <;> simp
@[simp] theorem retire_profile (s : State) (n : Nat) : (s.retire n).profile = s.profile := by unfold State.retire; split <;> simp
@[simp] theorem retire_regs (s : State) (n : Nat) : (s.retire n).regs = s.regs := by unfold State.retire; split <;> simp
@[simp] theorem retire_scratch (s : State) (n : Nat) : (s.retire n).scratch = s.scratch := by unfold State.retire; split <;> simp
@[simp] theorem retire_evec (s : State) (n : Nat) : (s.retire n).evec = s.evec := by unfold State.retire; split <;> simp
@[simp] theorem retire_mem (s : State) (n : Nat) : (s.retire n).mem = s.mem := by unfold State.retire; split <;> simp
@[simp] theorem retire_devs (s : State) (n : Nat) : (s.retire n).devs = s.devs := by unfold State.retire; split <;> simp
@[simp] theorem retire_cycles (s : State) (n : Nat) : (s.retire n).cycles = s.cycles + BitVec.ofNat 64 n := by unfold State.retire; split <;> simp
@[simp] theorem retire_frame (s : State) (n : Nat) : (s.retire n).frame = s.frame := by unfold State.retire; split <;> simp
@[simp] theorem retire_phase (s : State) (n : Nat) : (s.retire n).phase = s.phase := by unfold State.retire; split <;> simp
@[simp] theorem retire_queue (s : State) (n : Nat) : (s.retire n).queue = s.queue := by unfold State.retire; split <;> simp
@[simp] theorem retire_stopReq (s : State) (n : Nat) : (s.retire n).stopReq = s.stopReq := by unfold State.retire; split <;> simp
@[simp] theorem retire_captureReq (s : State) (n : Nat) : (s.retire n).captureReq = s.captureReq := by unfold State.retire; split <;> simp
@[simp] theorem retire_cStart (s : State) (n : Nat) : (s.retire n).cStart = s.cStart := by unfold State.retire; split <;> simp
@[simp] theorem retire_report (s : State) (n : Nat) : (s.retire n).report = s.report := by unfold State.retire; split <;> simp

/-! ### Registers -/

@[simp] theorem fitX_fitX (p : Profile) (v : Word) : fitX p (fitX p v) = fitX p v := by
  unfold fitX
  split
  · rfl
  · simp

/-- Reading a register after a write (R17: no register is hardwired). -/
@[simp] theorem readReg_writeReg_self (s : State) (r : Reg) (v : Word) :
    (s.writeReg r v).readReg r = fitX s.profile v := by
  simp [State.readReg]

/-- A write leaves every other register. -/
theorem readReg_writeReg_ne (s : State) {r q : Reg} (h : q ≠ r) (v : Word) :
    (s.writeReg r v).readReg q = s.readReg q := by
  have hne : r.toNat ≠ q.toNat := fun e => h (BitVec.eq_of_toNat_eq e.symm)
  simp [State.readReg, Vector.getElem_set_ne, hne]

/-- A register's place after a write. -/
theorem regs_writeReg (s : State) (r : Reg) (v : Word) (i : Fin 16) :
    (s.writeReg r v).regs[i] = if i.val = r.toNat then fitX s.profile v else s.regs[i] := by
  simp only [writeReg_regs, Fin.getElem_fin, Vector.getElem_set]
  by_cases h : r.toNat = i.val
  · rw [if_pos h, if_pos h.symm]
  · rw [if_neg h, if_neg (Ne.symm h)]

/-- jumpTo and advance do not touch registers. -/
@[simp] theorem readReg_jumpTo (s : State) (t : Addr) (r : Reg) : (s.jumpTo t).readReg r = s.readReg r := rfl

@[simp] theorem readReg_advance (s : State) (r : Reg) : s.advance.readReg r = s.readReg r := rfl

end Sys2Proof.Machine
end

