-- ==== Sys2Proof/Laws/Exec.lean ====
section
/-! SUPPORT. Everything an instruction can do, said once per shared shape and once for exec. -/

namespace Sys2Proof.Machine

/-- writeBack writes rd and advances (R82). -/
theorem writeBack_eq (rd : Reg) (v : Word) (s : State) : writeBack rd v s = .next (s.writeReg rd v).advance := rfl

/-- A load whose read succeeds. -/
theorem load_of_ok {w : Width} {ext : Word → Word} {rd rs1 : Reg} {imm : BitVec 16} {s s' : State} {v : Word}
    (h : s.memRead (effAddr s.profile (s.readReg rs1) imm) w = .ok (v, s')) :
    load w ext rd rs1 imm s = .next (s'.writeReg rd (ext v)).advance := by
  simp only [load, h, writeBack]

/-- A load whose read fails raises, with info EA (R110). -/
theorem load_of_error {w : Width} {ext : Word → Word} {rd rs1 : Reg} {imm : BitVec 16} {s : State} {e : BusError}
    (h : s.memRead (effAddr s.profile (s.readReg rs1) imm) w = .error e) :
    load w ext rd rs1 imm s = .next (s.raise (loadCause e) (effAddr s.profile (s.readReg rs1) imm)) := by
  simp only [load, h]

/-- A store whose write succeeds. -/
theorem store_of_ok {w : Width} {rs2 rs1 : Reg} {imm : BitVec 16} {s s' : State}
    (h : s.memWrite (effAddr s.profile (s.readReg rs1) imm) w (s.readReg rs2) = .ok s') :
    store w rs2 rs1 imm s = .next s'.advance := by
  simp only [store, h]

/-- A store whose write fails raises, with info EA (R110). -/
theorem store_of_error {w : Width} {rs2 rs1 : Reg} {imm : BitVec 16} {s : State} {e : BusError}
    (h : s.memWrite (effAddr s.profile (s.readReg rs1) imm) w (s.readReg rs2) = .error e) :
    store w rs2 rs1 imm s = .next (s.raise (storeCause e) (effAddr s.profile (s.readReg rs1) imm)) := by
  simp only [store, h]

/-- What the execution of an instruction can do to a machine. -/
inductive Effect (i : Instr) (s : State) : State → Prop where
  | regAndPc (rd : Reg) (v : Word) (n : Nat) (h : rd ∈ i.usedRegs) :
      Effect i s ((s.writeReg rd v).jumpTo (truncAddr s.profile n))
  | pcOnly (n : Nat) : Effect i s (s.jumpTo (truncAddr s.profile n))
  | control (cr : WritableReg) (v : Word) : Effect i s (s.writeControl cr v).advance
  | trapReturn : Effect i s s.returnFromTrap
  | halted : Effect i s (s.halt .haltInstr)
  | raised (c : Cause) (n : Nat) : Effect i s (s.raise c (truncAddr s.profile n))
  | raisedZero (c : Cause) : Effect i s (s.raise c 0)
  | loaded (rd : Reg) (a : Addr) (w : Width) (v x : Word) (s' : State) (h : rd ∈ i.usedRegs)
      (hr : s.memRead a w = .ok (v, s')) : Effect i s (s'.writeReg rd x).advance
  | stored (a : Addr) (w : Width) (v : Word) (s' : State) (hw : s.memWrite a w v = .ok s') : Effect i s s'.advance

/-- A load has one of the effects above. -/
theorem load_effect {i : Instr} (w : Width) (ext : Word → Word) {rd rs1 : Reg} (imm : BitVec 16) (s : State)
    (hrd : rd ∈ i.usedRegs) : ∃ t, load w ext rd rs1 imm s = .next t ∧ Effect i s t := by
  rcases h : s.memRead (effAddr s.profile (s.readReg rs1) imm) w with e | ⟨v, s'⟩
  · exact ⟨_, load_of_error h, .raised _ _⟩
  · exact ⟨_, load_of_ok h, .loaded _ _ _ _ _ _ hrd h⟩

/-- A store has one of the effects above. -/
theorem store_effect {i : Instr} (w : Width) {rs2 rs1 : Reg} (imm : BitVec 16) (s : State) :
    ∃ t, store w rs2 rs1 imm s = .next t ∧ Effect i s t := by
  rcases h : s.memWrite (effAddr s.profile (s.readReg rs1) imm) w (s.readReg rs2) with e | s'
  · exact ⟨_, store_of_error h, .raised _ _⟩
  · exact ⟨_, store_of_ok h, .stored _ _ _ _ h⟩

/-- A branch only sets pc. -/
theorem branch_effect {i : Instr} (b : Bool) (imm : BitVec 16) (s : State) :
    ∃ t, branch b imm s = .next t ∧ Effect i s t := by
  cases b
  · exact ⟨_, rfl, .pcOnly _⟩
  · exact ⟨_, rfl, .pcOnly _⟩

/-- Every instruction answers a next state, and its effect is one of those above. -/
theorem exec_effect (i : Instr) (s : State) : ∃ t, exec i s = .next t ∧ Effect i s t := by
  cases i
  case lb | lbu | lh | lhu | lw | lwu | ld => exact load_effect _ _ _ s (by simp [Instr.usedRegs])
  case sb | sh | sw | sd => exact store_effect _ _ s
  case beq | bne | blt | bge | bltu | bgeu => exact branch_effect _ _ s
  case nop => exact ⟨_, rfl, .pcOnly _⟩
  case halt => exact ⟨_, rfl, .halted⟩
  case syscall | brk => exact ⟨_, rfl, .raisedZero _⟩
  case eret => exact ⟨_, rfl, .trapReturn⟩
  case mtc => exact ⟨_, rfl, .control _ _⟩
  case j | jr => exact ⟨_, rfl, .pcOnly _⟩
  all_goals exact ⟨_, rfl, .regAndPc _ _ _ (by simp [Instr.usedRegs])⟩

end Sys2Proof.Machine
end

