-- ==== Sys2Proof/Laws/Step.lean ====
section
/-! SUPPORT. Everything a step can do, said once: the end of a CPU step, the CPU step, the machine's step, the boundary. -/

namespace Sys2Proof.Machine

/-! ### The end of a CPU step -/

/-- An interrupt is never fatal: the check takes it only where there is a vector (R149, R150). -/
theorem interruptCheck_cases (s : State) :
    (interruptEnabled s.profile.hasVector s.status s.ip = false ∧ s.interruptCheck = s) ∨
      (interruptEnabled s.profile.hasVector s.status s.ip = true ∧
        s.interruptCheck =
          { s with epc := s.pc, causeCode := .interrupt, badaddr := 0, status := statusOnTrap s.status, pc := s.evec }) := by
  unfold State.interruptCheck
  split
  · rename_i h
    refine .inr ⟨h, takeTrap_delivered ?_ _ _⟩
    simp only [interruptEnabled, Bool.and_eq_true] at h
    simp [State.trapIsFatal, h.1.1.1]
  · rename_i h
    exact .inl ⟨by simpa using h, rfl⟩

/-- The interrupt check does not change the run state. -/
@[simp] theorem interruptCheck_run (s : State) : s.interruptCheck.run = s.run := by
  rcases interruptCheck_cases s with ⟨_, h⟩ | ⟨_, h⟩ <;> rw [h]

/-- The end of a CPU step does not change the run state. -/
@[simp] theorem retire_run (s : State) (n : Nat) : (s.retire n).run = s.run := by
  unfold State.retire
  split <;> simp

/-- The end of a halted CPU's step only counts the cost (D51). -/
theorem retire_halted {s : State} {r : HaltReason} (h : s.run = .halted r) (n : Nat) : s.retire n = s.addCycles n := by
  unfold State.retire
  rw [h]

/-- The end of a running CPU's step counts the cost and checks for an interrupt (R145). -/
theorem retire_running {s : State} (h : s.run = .running) (n : Nat) :
    s.retire n = (s.addCycles n).interruptCheck := by
  unfold State.retire
  rw [h]

/-! ### The CPU step -/

/-- What a CPU step does: a trap at fetch, a trap at decode, or the effect of the decoded instruction, then its cost and
the interrupt check (R145). It never faults and never refuses. -/
theorem cpuStep_cases (s : State) :
    (∃ c, s.fetch = .error c ∧ s.cpuStep = .next (s.faultStep c s.pc)) ∨
    (∃ w e, s.fetch = .ok w ∧ decode s.profile w = .error e ∧
      s.cpuStep = .next (s.faultStep .reservedInstruction (w.setWidth 64))) ∨
    (∃ w i t, s.fetch = .ok w ∧ decode s.profile w = .ok i ∧ exec i s = .next t ∧ Effect i s t ∧
      s.cpuStep = .next (t.retire (costOf s.profile i))) := by
  unfold State.cpuStep
  rcases hf : s.fetch with c | w
  · exact .inl ⟨c, rfl, rfl⟩
  · rcases hd : decode s.profile w with e | i
    · exact .inr (.inl ⟨w, e, rfl, hd, by simp only [hd]⟩)
    · obtain ⟨t, ht, he⟩ := exec_effect i s
      exact .inr (.inr ⟨w, i, t, rfl, hd, ht, he, by simp only [hd, ht]⟩)

/-- The step of an instruction that is fetched and decoded. -/
theorem cpuStep_of_decode {s t : State} {w : BitVec 32} {i : Instr} (hf : s.fetch = .ok w)
    (hd : decode s.profile w = .ok i) (ht : exec i s = .next t) :
    s.cpuStep = .next (t.retire (costOf s.profile i)) := by
  simp only [State.cpuStep, hf, hd, ht]

/-! ### The machine's step -/

/-- What a step does: start a frame or refuse to, one CPU step, one idle jump, or the end of a frame (R161, R162). -/
theorem step_cases (s : State) :
    (s.phase = .boundary ∧ s.frameTarget < 2 ^ 64 ∧ step s = .next s.beginFrame) ∨
    (s.phase = .boundary ∧ 2 ^ 64 ≤ s.frameTarget ∧ step s = .refused .counterOverflow) ∨
    (s.phase = .inBurst ∧ s.cycles.toNat < s.frameTarget ∧ s.run = .running ∧ step s = s.cpuStep) ∨
    (s.phase = .inBurst ∧ s.cycles.toNat < s.frameTarget ∧ (∃ r, s.run = .halted r) ∧ step s = .next s.idle) ∨
    (s.phase = .inBurst ∧ s.frameTarget ≤ s.cycles.toNat ∧ step s = .next s.endFrame) := by
  unfold step State.machineStep
  cases hp : s.phase with
  | boundary =>
    by_cases ht : s.frameTarget < 2 ^ 64
    · exact .inl ⟨rfl, ht, if_pos ht⟩
    · exact .inr (.inl ⟨rfl, by omega, if_neg ht⟩)
  | inBurst =>
    by_cases ht : s.cycles.toNat < s.frameTarget
    · cases hr : s.run with
      | running => exact .inr (.inr (.inl ⟨rfl, ht, rfl, by simp [ht, State.burstStep, hr]⟩))
      | halted r => exact .inr (.inr (.inr (.inl ⟨rfl, ht, ⟨r, rfl⟩, by simp [ht, State.burstStep, hr]⟩)))
    · exact .inr (.inr (.inr (.inr ⟨rfl, by omega, if_neg ht⟩)))

/-! ### The boundary -/

/-- One patch: the fields it never touches (R185). -/
theorem applyPatch_frame (s : State) (r : PatchRequest) :
    { s.applyPatch r with regs := s.regs, pc := s.pc, mem := s.mem } = s := by
  unfold State.applyPatch
  split
  · rfl
  · split <;> rfl

/-- Several patches: the fields they never touch (R185). -/
theorem foldl_applyPatch_frame (rs : List PatchRequest) (s : State) :
    { rs.foldl State.applyPatch s with regs := s.regs, pc := s.pc, mem := s.mem } = s := by
  induction rs generalizing s with
  | nil => rfl
  | cons r rs ih =>
    have h1 := ih (s.applyPatch r)
    have h2 := applyPatch_frame s r
    rw [List.foldl_cons]
    generalize List.foldl State.applyPatch (s.applyPatch r) rs = u at h1 ⊢
    rw [← h1] at h2
    exact h2

/-- A property that every patch keeps is kept by several. -/
theorem foldl_applyPatch_induct {P : State → Prop} (rs : List PatchRequest) (s : State) (hs : P s)
    (h : ∀ t r, r ∈ rs → P t → P (t.applyPatch r)) : P (rs.foldl State.applyPatch s) := by
  induction rs generalizing s with
  | nil => exact hs
  | cons r rs ih =>
    exact ih _ (h s r (by simp) hs) fun t q hq => h t q (List.mem_cons_of_mem _ hq)

/-- A patch keeps the canonical form of memory. -/
theorem applyPatch_wf {s : State} (h : s.mem.wf) (r : PatchRequest) : (s.applyPatch r).mem.wf := by
  unfold State.applyPatch
  split
  · exact wf_write h _ _
  · split
    · exact h
    · exact h

/-- ApplyEligible keeps the canonical form of memory. -/
theorem applyEligible_wf {s : State} (h : s.mem.wf) : s.applyEligible.mem.wf :=
  foldl_applyPatch_induct (P := fun t => t.mem.wf) _ s h fun _ r _ ht => applyPatch_wf ht r

/-- ApplyEligible: the fields it never touches (R185). -/
theorem applyEligible_frame (s : State) :
    { s.applyEligible with regs := s.regs, pc := s.pc, mem := s.mem, queue := s.queue } = s := by
  have h := foldl_applyPatch_frame (s.queue.filter (patchEligible s.cycles)) s
  unfold State.applyEligible
  generalize hu : List.foldl State.applyPatch s _ = u at h
  rw [State.mk.injEq] at h
  cases s
  simp_all

/-- Two machines that differ only in registers, pc, memory and queue, field by field. -/
theorem fields_of_frame {s t : State}
    (h : { t with regs := s.regs, pc := s.pc, mem := s.mem, queue := s.queue } = s) :
    t.profile = s.profile ∧ t.run = s.run ∧ t.status = s.status ∧ t.causeCode = s.causeCode ∧ t.epc = s.epc
      ∧ t.badaddr = s.badaddr ∧ t.scratch = s.scratch ∧ t.evec = s.evec ∧ t.devs = s.devs ∧ t.cycles = s.cycles
      ∧ t.frame = s.frame ∧ t.phase = s.phase ∧ t.stopReq = s.stopReq ∧ t.captureReq = s.captureReq
      ∧ t.cStart = s.cStart ∧ t.report = s.report := by
  cases s
  cases t
  simp_all

/-- Everything the rest of a boundary does: the eligible patches of the extended queue, then the scheduler's fields
(R162). -/
theorem boundaryWith_eq (s : State) (rs : List PatchRequest) :
    ∃ t rep, t = (s.accept rs).applyEligible ∧ s.boundaryWith rs =
        { t with phase := .boundary, captureReq := false, stopReq := false, cStart := 0, report := some rep } ∧
      rep.stopped = s.stopReq ∧ rep.status = s.run ∧ rep.rejected = rejectedOf s.profile rs ∧
      rep.captured = if s.captureReq then some (s.boundaryWith rs).capture else none := by
  have h := fields_of_frame (applyEligible_frame (s.accept rs))
  refine ⟨_, _, rfl, rfl, h.2.2.2.2.2.2.2.2.2.2.2.2.1, h.2.1, rfl, ?_⟩
  have hc : (s.accept rs).applyEligible.captureReq = s.captureReq := h.2.2.2.2.2.2.2.2.2.2.2.2.2.1
  simp only [hc]
  rfl

end Sys2Proof.Machine
end

