-- ==== Sys2Proof/Laws/Frame.lean ====
section
/-! SUPPORT. What traps, instructions and steps do to the scheduler's fields, and what the end of a frame does to every
field but registers, pc, memory and queue. -/

namespace Sys2Proof.Machine

/-- Trap entry leaves the scheduler's state (R150). -/
theorem takeTrap_scheduler (s : State) (c : Cause) (epc : Addr) (info : Word) :
    sameScheduler s (s.takeTrap c epc info) := by
  unfold State.takeTrap
  split <;> simp [sameScheduler, State.halt]

/-- Every effect of an instruction leaves the scheduler's state. -/
theorem effect_scheduler {i : Instr} {s t : State} (h : Effect i s t) : sameScheduler s t := by
  cases h
  case regAndPc => simp [sameScheduler]
  case pcOnly => simp [sameScheduler]
  case control cr v => cases cr <;> simp [sameScheduler, State.writeControl]
  case trapReturn => simp [sameScheduler, State.returnFromTrap]
  case halted => simp [sameScheduler, State.halt]
  case raised => exact takeTrap_scheduler _ _ _ _
  case raisedZero => exact takeTrap_scheduler _ _ _ _
  case loaded hr =>
    obtain ⟨r, _, ⟨_, _, rfl⟩ | ⟨_, _, _, _, _, _, rfl⟩⟩ := memRead_cases hr <;> simp [sameScheduler]
  case stored hw =>
    obtain ⟨r, _, ⟨_, rfl⟩ | ⟨_, _, _, _, _, _, rfl⟩⟩ := memWrite_cases hw <;> simp [sameScheduler]

/-- The end of a CPU step adds the cost and leaves the rest of the scheduler's state (R145). -/
theorem retire_scheduler (s : State) (n : Nat) :
    (s.retire n).cycles = s.cycles + BitVec.ofNat 64 n ∧ sameScheduler s { s.retire n with cycles := s.cycles } := by
  unfold State.retire
  split
  · rcases interruptCheck_cases (s.addCycles n) with ⟨_, h⟩ | ⟨_, h⟩ <;> rw [h] <;> simp [State.addCycles, sameScheduler]
  · simp [State.addCycles, sameScheduler]

/-- The end of a CPU step leaves registers, memory and devices. -/
theorem retire_data (s : State) (n : Nat) :
    (s.retire n).regs = s.regs ∧ (s.retire n).mem = s.mem ∧ (s.retire n).devs = s.devs := by
  unfold State.retire
  split
  · rcases interruptCheck_cases (s.addCycles n) with ⟨_, h⟩ | ⟨_, h⟩ <;> rw [h] <;> simp [State.addCycles]
  · simp [State.addCycles]

/-- A CPU step changes cycles and leaves the rest of the scheduler's state (R39, R145). -/
theorem cpuStep_scheduler (s : State) : ∃ t, s.cpuStep = .next t ∧ sameScheduler s { t with cycles := s.cycles } := by
  rcases cpuStep_cases s with ⟨c, _, h⟩ | ⟨w, e, _, _, h⟩ | ⟨w, i, t, _, _, _, he, h⟩
  · have h1 := takeTrap_scheduler s c s.pc s.pc
    have h2 := (retire_scheduler (s.takeTrap c s.pc s.pc) s.profile.faultCost).2
    exact ⟨_, h, by simp only [sameScheduler] at *; simp_all [State.faultStep, State.raise]⟩
  · have h1 := takeTrap_scheduler s .reservedInstruction s.pc (w.setWidth 64)
    have h2 := (retire_scheduler (s.takeTrap .reservedInstruction s.pc (w.setWidth 64)) s.profile.faultCost).2
    exact ⟨_, h, by simp only [sameScheduler] at *; simp_all [State.faultStep, State.raise]⟩
  · have h1 := effect_scheduler he
    have h2 := (retire_scheduler t (costOf s.profile i)).2
    exact ⟨_, h, by simp only [sameScheduler] at *; simp_all⟩

/-- The cost of a step is at least 1 and at most the largest cost (R161). -/
theorem cost_bounds {p : Profile} (h : costsLegal p) (i : Instr) : 1 ≤ costOf p i ∧ costOf p i ≤ maxCost p := by
  refine ⟨h.2 _, ?_⟩
  unfold costOf
  cases classOf i <;> simp only [Costs.of, maxCost] <;> omega

/-- One iteration of Burst's loop answers a machine, and changes nothing of the scheduler's state but cycles (R161). -/
theorem burstStep_scheduler (s : State) :
    ∃ t, s.burstStep = .next t ∧ sameScheduler s { t with cycles := s.cycles } := by
  unfold State.burstStep
  split
  · exact cpuStep_scheduler s
  · exact ⟨_, rfl, by simp [sameScheduler, State.idle]⟩

/-- Burst's loop answers a machine, and changes nothing of the scheduler's state but cycles (R161). -/
theorem burst_scheduler (k : Nat) (s : State) :
    ∃ t, State.burst k s = .next t ∧ sameScheduler s { t with cycles := s.cycles } := by
  induction k generalizing s with
  | zero => exact ⟨s, rfl, by simp [sameScheduler]⟩
  | succ k ih =>
    simp only [State.burst]
    split
    · obtain ⟨t, h, h1⟩ := burstStep_scheduler s
      obtain ⟨u, g, g1⟩ := ih t
      refine ⟨u, by simp only [h, g], ?_⟩
      simp only [sameScheduler] at *
      simp_all
    · exact ⟨s, rfl, by simp [sameScheduler]⟩

/-- What RunFrame does at a boundary: it is refused, or its burst starts, and what follows the first k iterations is
afterBurst (R155, R162). -/
theorem runFrame_cases (k : Nat) {s : State} (hp : s.phase = .boundary) :
    (2 ^ 64 ≤ s.frameTarget ∧ s.runFrame k = .refused .counterOverflow) ∨
      (s.frameTarget < 2 ^ 64 ∧ ∃ t, State.burst k s.beginFrame = .next t ∧
        sameScheduler s.beginFrame { t with cycles := s.cycles } ∧ s.runFrame k = .next t.afterBurst) := by
  unfold State.runFrame
  rw [hp]
  simp only
  split
  · rename_i h
    obtain ⟨t, g, g1⟩ := burst_scheduler k s.beginFrame
    exact .inr ⟨h, t, g, g1, by simp [g]⟩
  · exact .inl ⟨by omega, rfl⟩

/-- The end of a frame: every field but registers, pc, memory, queue and report (R162). -/
theorem endFrame_fields (s : State) :
    s.endFrame.profile = s.profile ∧ s.endFrame.run = s.run ∧ s.endFrame.status = s.status
      ∧ s.endFrame.causeCode = s.causeCode ∧ s.endFrame.epc = s.epc ∧ s.endFrame.badaddr = s.badaddr
      ∧ s.endFrame.scratch = s.scratch ∧ s.endFrame.evec = s.evec
      ∧ s.endFrame.devs = s.devs.map (fun d => d.tick (s.cycles - s.cStart)) ∧ s.endFrame.cycles = s.cycles
      ∧ s.endFrame.frame = s.frame + 1 ∧ s.endFrame.phase = .boundary ∧ s.endFrame.stopReq = false
      ∧ s.endFrame.captureReq = false ∧ s.endFrame.cStart = 0 := by
  obtain ⟨u, rep, hu, he, _⟩ := boundaryWith_eq s.tickFrame (Config.observe s.tickFrame.capture)
  have h := fields_of_frame (applyEligible_frame (s.tickFrame.accept (Config.observe s.tickFrame.capture)))
  rw [← hu] at h
  have hs : s.endFrame = s.tickFrame.boundaryWith (Config.observe s.tickFrame.capture) := rfl
  rw [hs, he]
  simp only [State.accept, State.tickFrame] at h
  simp [h]

/-- The end of a frame: what its report holds (R162, R184). -/
theorem endFrame_report (s : State) :
    ∃ rep, s.endFrame.report = some rep ∧ rep.stopped = s.stopReq ∧ rep.status = s.run
      ∧ rep.rejected = rejectedOf s.profile (Config.observe s.tickFrame.capture)
      ∧ rep.captured = if s.captureReq then some s.endFrame.capture else none := by
  obtain ⟨u, rep, _, he, h1, h2, h3, h4⟩ := boundaryWith_eq s.tickFrame (Config.observe s.tickFrame.capture)
  exact ⟨rep, by rw [show s.endFrame = s.tickFrame.boundaryWith _ from rfl, he], h1, h2, h3, h4⟩

end Sys2Proof.Machine
end

