-- ==== Sys2Proof/Laws/Host.lean ====
section
/-! SUPPORT. The host's calls: the fields that requests change, replies with earlier reports, and the output views byte by
byte. -/

namespace Sys2Proof.Machine

@[simp] theorem requestStop_stopReq (s : State) : s.requestStop.stopReq = true := rfl
@[simp] theorem requestCapture_captureReq (s : State) : s.requestCapture.captureReq = true := rfl
@[simp] theorem arrive_profile (s : State) (q : Requests) : (s.arrive q).profile = s.profile := rfl
@[simp] theorem arrive_run (s : State) (q : Requests) : (s.arrive q).run = s.run := rfl
@[simp] theorem arrive_cycles (s : State) (q : Requests) : (s.arrive q).cycles = s.cycles := rfl
@[simp] theorem arrive_phase (s : State) (q : Requests) : (s.arrive q).phase = s.phase := rfl
@[simp] theorem arrive_frameTarget (s : State) (q : Requests) : (s.arrive q).frameTarget = s.frameTarget := rfl
@[simp] theorem arrive_stopReq (s : State) (q : Requests) : (s.arrive q).stopReq = (s.stopReq || q.stop) := rfl
@[simp] theorem arrive_captureReq (s : State) (q : Requests) : (s.arrive q).captureReq = (s.captureReq || q.capture) := rfl

/-- Requests change only the two flags: a snapshot does not hold them (R176). -/
@[simp] theorem arrive_capture (s : State) (q : Requests) : (s.arrive q).capture = s.capture := rfl

@[simp] theorem withEarlier_nil (r : HostReply) : r.withEarlier [] = r := by cases r <;> rfl

/-- Earlier reports come first. -/
theorem withEarlier_append (r : HostReply) (a b : List FrameReport) :
    r.withEarlier (a ++ b) = (r.withEarlier b).withEarlier a := by
  cases r <;> simp [HostReply.withEarlier]

/-- An output view holds the bytes of its region in ascending order (R174). -/
theorem regionBytes_eq_view (m : Memory) (g : Option Region) : regionBytes m g = regionView m g := by
  cases g with
  | none => rfl
  | some g =>
    simp only [regionBytes, regionView, Option.map_some, Option.some.injEq]
    apply List.ext_getElem (by simp)
    intro i h1 h2
    have := readBytes_getD m g.start g.length i (by simpa using h1)
    rw [List.getD_eq_getElem?_getD, List.getElem?_eq_getElem h1] at this
    simpa using this

end Sys2Proof.Machine
end

