-- ==== Sys2Proof/Laws/Outcome.lean ====
section
/-! SUPPORT. The bus checks and traps in the terms that Safety.lean uses. -/

namespace Sys2Proof.Machine

/-- Raising a synchronous exception takes it (R150). -/
theorem raise_taken (s : State) (c : Cause) (info : Word) (hc : c ≠ .interrupt) :
    exceptionTaken c info s (s.raise c info) := by
  constructor
  · rintro ⟨h1, h2⟩
    have hf : s.trapIsFatal c = false := by simp [State.trapIsFatal, h1, h2]
    unfold State.raise State.takeTrap
    rw [if_neg (by simp [hf])]
    exact ⟨rfl, rfl, rfl, rfl, rfl, rfl⟩
  · intro h
    have hf : s.trapIsFatal c = true := by rcases h with h | h <;> simp [State.trapIsFatal, h, hc]
    unfold State.raise State.takeTrap
    rw [if_pos hf]
    exact ⟨rfl, rfl⟩

/-- The bytes of memory as a little-endian number (R45). -/
theorem readLE_eq_littleEndian (m : Memory) (a n : Nat) : m.readLE a n = littleEndian m a n := by
  unfold Memory.readLE littleEndian
  induction n generalizing a with
  | zero => rfl
  | succ n ih =>
    rw [Finset.sum_range_succ']
    simp only [Memory.readBytes, leNat, ih, Nat.pow_zero, Nat.mul_one, Nat.add_zero]
    rw [Finset.mul_sum, Nat.add_comm]
    congr 1
    apply Finset.sum_congr rfl
    intro k _
    rw [Nat.pow_succ, show a + 1 + k = a + (k + 1) by omega]
    ring

/-- A misaligned access under Strict fails as Misaligned (R48). -/
theorem busCheck_of_not_aligned {p : Profile} {a : Addr} {w : Width} (h : ¬ alignedFor p a.toNat (widthBytes w)) :
    busCheck p a w = .error .misaligned := by
  unfold alignedFor at h
  rw [Classical.not_imp] at h
  exact busCheck_misaligned h.1 h.2

/-- An access that lies in no range fails as Unmapped (R44). -/
theorem busCheck_of_outside {p : Profile} {a : Addr} {w : Width} (h : alignedFor p a.toNat (widthBytes w))
    (ho : ¬ insideRange p (fun _ => True) a.toNat (widthBytes w)) : busCheck p a w = .error .unmapped := by
  unfold busCheck
  rw [if_neg (by unfold alignedFor at h; tauto)]
  split
  · rfl
  · rename_i r hr
    split
    · rfl
    · exact absurd ⟨r, hr, trivial, by omega⟩ ho

/-- An aligned access that lies in the range found passes the checks (R51). -/
theorem busCheck_of_inside {p : Profile} {a : Addr} {w : Width} {r : Range} (h : alignedFor p a.toNat (widthBytes w))
    (hr : findRange p a.toNat = some r) (hf : a.toNat + widthBytes w ≤ r.start + r.length) : busCheck p a w = .ok r := by
  rw [busCheck_ok]
  exact ⟨by unfold alignedFor at h; tauto, hr, hf⟩

end Sys2Proof.Machine
end

