-- ==== Sys2Proof/Laws/PerInstr.lean ====
section
/-! SUPPORT. The per-instruction family FormatChecks: an encoded instruction passes R76's checks 1 and 2 on every profile,
so that only its register numbers, the XLEN gate or its shift amount can make it reserved. -/

namespace Sys2Proof

/-- The word of the instruction has a defined opcode and zero in every field that its format requires to be zero
(R71, R72, R76 checks 1 and 2). -/
def Laws.FormatChecks.Statement (i : Instr) : Prop :=
  ∀ p, decode p (encode i) ≠ .error .opcode ∧ decode p (encode i) ≠ .error .mustBeZero

/-- A result that is an instruction, or reserved for another reason, passes checks 1 and 2. -/
theorem passes_ite {c : Prop} [Decidable c] {x y : Except Reserved Instr}
    (hx : x ≠ .error .opcode ∧ x ≠ .error .mustBeZero) (hy : y ≠ .error .opcode ∧ y ≠ .error .mustBeZero) :
    (if c then x else y) ≠ .error .opcode ∧ (if c then x else y) ≠ .error .mustBeZero := by
  split
  · exact hx
  · exact hy

theorem passes_ok (i : Instr) : (Except.ok i : Except Reserved Instr) ≠ .error .opcode ∧
    (Except.ok i : Except Reserved Instr) ≠ .error .mustBeZero := by simp

theorem passes_error {e : Reserved} (h : e ≠ .opcode ∧ e ≠ .mustBeZero) :
    (Except.error e : Except Reserved Instr) ≠ .error .opcode ∧
      (Except.error e : Except Reserved Instr) ≠ .error .mustBeZero := by simpa using h

theorem Laws.FormatChecks.nop : Laws.FormatChecks.Statement (.nop) := by
  intro p
  have h : decode p (encode (.nop)) = _ :=
    (decode_of_op (op := 0x01#8) (opField_encodeN ..) p).trans (decodeN_encodeN 0x01#8 .nop)
  rw [h]
  exact passes_ok _

theorem Laws.FormatChecks.halt : Laws.FormatChecks.Statement (.halt) := by
  intro p
  have h : decode p (encode (.halt)) = _ :=
    (decode_of_op (op := 0x02#8) (opField_encodeN ..) p).trans (decodeN_encodeN 0x02#8 .halt)
  rw [h]
  exact passes_ok _

theorem Laws.FormatChecks.syscall : Laws.FormatChecks.Statement (.syscall) := by
  intro p
  have h : decode p (encode (.syscall)) = _ :=
    (decode_of_op (op := 0x03#8) (opField_encodeN ..) p).trans (decodeN_encodeN 0x03#8 .syscall)
  rw [h]
  exact passes_ok _

theorem Laws.FormatChecks.brk : Laws.FormatChecks.Statement (.brk) := by
  intro p
  have h : decode p (encode (.brk)) = _ :=
    (decode_of_op (op := 0x04#8) (opField_encodeN ..) p).trans (decodeN_encodeN 0x04#8 .brk)
  rw [h]
  exact passes_ok _

theorem Laws.FormatChecks.eret : Laws.FormatChecks.Statement (.eret) := by
  intro p
  have h : decode p (encode (.eret)) = _ :=
    (decode_of_op (op := 0x05#8) (opField_encodeN ..) p).trans (decodeN_encodeN 0x05#8 .eret)
  rw [h]
  exact passes_ok _

theorem Laws.FormatChecks.mfc (rd : Reg) (cr : ControlReg) : Laws.FormatChecks.Statement (.mfc rd cr) := by
  intro p
  have h : decode p (encode (.mfc rd cr)) = _ :=
    (decode_of_op (op := 0x06#8) (opField_encodeI ..) p).trans (decodeMfc_encodeI p 0x06#8 rd cr)
  rw [h]
  exact passes_ite (passes_ok _) (passes_error (by decide))

theorem Laws.FormatChecks.mtc (cr : WritableReg) (rs1 : Reg) : Laws.FormatChecks.Statement (.mtc cr rs1) := by
  intro p
  have h : decode p (encode (.mtc cr rs1)) = _ :=
    (decode_of_op (op := 0x07#8) (opField_encodeI ..) p).trans (decodeMtc_encodeI p 0x07#8 rs1 cr)
  rw [h]
  exact passes_ite (passes_ok _) (passes_error (by decide))

theorem Laws.FormatChecks.add (rd rs1 rs2 : Reg) : Laws.FormatChecks.Statement (.add rd rs1 rs2) := by
  intro p
  have h : decode p (encode (.add rd rs1 rs2)) = _ :=
    (decode_of_op (op := 0x10#8) (opField_encodeR ..) p).trans (decodeR_encodeR p 0x10#8 rd rs1 rs2 .add)
  rw [h]
  exact passes_ite (passes_ok _) (passes_error (by decide))

theorem Laws.FormatChecks.sub (rd rs1 rs2 : Reg) : Laws.FormatChecks.Statement (.sub rd rs1 rs2) := by
  intro p
  have h : decode p (encode (.sub rd rs1 rs2)) = _ :=
    (decode_of_op (op := 0x11#8) (opField_encodeR ..) p).trans (decodeR_encodeR p 0x11#8 rd rs1 rs2 .sub)
  rw [h]
  exact passes_ite (passes_ok _) (passes_error (by decide))

theorem Laws.FormatChecks.and (rd rs1 rs2 : Reg) : Laws.FormatChecks.Statement (.and rd rs1 rs2) := by
  intro p
  have h : decode p (encode (.and rd rs1 rs2)) = _ :=
    (decode_of_op (op := 0x12#8) (opField_encodeR ..) p).trans (decodeR_encodeR p 0x12#8 rd rs1 rs2 .and)
  rw [h]
  exact passes_ite (passes_ok _) (passes_error (by decide))

theorem Laws.FormatChecks.or (rd rs1 rs2 : Reg) : Laws.FormatChecks.Statement (.or rd rs1 rs2) := by
  intro p
  have h : decode p (encode (.or rd rs1 rs2)) = _ :=
    (decode_of_op (op := 0x13#8) (opField_encodeR ..) p).trans (decodeR_encodeR p 0x13#8 rd rs1 rs2 .or)
  rw [h]
  exact passes_ite (passes_ok _) (passes_error (by decide))

theorem Laws.FormatChecks.xor (rd rs1 rs2 : Reg) : Laws.FormatChecks.Statement (.xor rd rs1 rs2) := by
  intro p
  have h : decode p (encode (.xor rd rs1 rs2)) = _ :=
    (decode_of_op (op := 0x14#8) (opField_encodeR ..) p).trans (decodeR_encodeR p 0x14#8 rd rs1 rs2 .xor)
  rw [h]
  exact passes_ite (passes_ok _) (passes_error (by decide))

theorem Laws.FormatChecks.sll (rd rs1 rs2 : Reg) : Laws.FormatChecks.Statement (.sll rd rs1 rs2) := by
  intro p
  have h : decode p (encode (.sll rd rs1 rs2)) = _ :=
    (decode_of_op (op := 0x15#8) (opField_encodeR ..) p).trans (decodeR_encodeR p 0x15#8 rd rs1 rs2 .sll)
  rw [h]
  exact passes_ite (passes_ok _) (passes_error (by decide))

theorem Laws.FormatChecks.srl (rd rs1 rs2 : Reg) : Laws.FormatChecks.Statement (.srl rd rs1 rs2) := by
  intro p
  have h : decode p (encode (.srl rd rs1 rs2)) = _ :=
    (decode_of_op (op := 0x16#8) (opField_encodeR ..) p).trans (decodeR_encodeR p 0x16#8 rd rs1 rs2 .srl)
  rw [h]
  exact passes_ite (passes_ok _) (passes_error (by decide))

theorem Laws.FormatChecks.sra (rd rs1 rs2 : Reg) : Laws.FormatChecks.Statement (.sra rd rs1 rs2) := by
  intro p
  have h : decode p (encode (.sra rd rs1 rs2)) = _ :=
    (decode_of_op (op := 0x17#8) (opField_encodeR ..) p).trans (decodeR_encodeR p 0x17#8 rd rs1 rs2 .sra)
  rw [h]
  exact passes_ite (passes_ok _) (passes_error (by decide))

theorem Laws.FormatChecks.slt (rd rs1 rs2 : Reg) : Laws.FormatChecks.Statement (.slt rd rs1 rs2) := by
  intro p
  have h : decode p (encode (.slt rd rs1 rs2)) = _ :=
    (decode_of_op (op := 0x18#8) (opField_encodeR ..) p).trans (decodeR_encodeR p 0x18#8 rd rs1 rs2 .slt)
  rw [h]
  exact passes_ite (passes_ok _) (passes_error (by decide))

theorem Laws.FormatChecks.sltu (rd rs1 rs2 : Reg) : Laws.FormatChecks.Statement (.sltu rd rs1 rs2) := by
  intro p
  have h : decode p (encode (.sltu rd rs1 rs2)) = _ :=
    (decode_of_op (op := 0x19#8) (opField_encodeR ..) p).trans (decodeR_encodeR p 0x19#8 rd rs1 rs2 .sltu)
  rw [h]
  exact passes_ite (passes_ok _) (passes_error (by decide))

theorem Laws.FormatChecks.mul (rd rs1 rs2 : Reg) : Laws.FormatChecks.Statement (.mul rd rs1 rs2) := by
  intro p
  have h : decode p (encode (.mul rd rs1 rs2)) = _ :=
    (decode_of_op (op := 0x1A#8) (opField_encodeR ..) p).trans (decodeR_encodeR p 0x1A#8 rd rs1 rs2 .mul)
  rw [h]
  exact passes_ite (passes_ok _) (passes_error (by decide))

theorem Laws.FormatChecks.div (rd rs1 rs2 : Reg) : Laws.FormatChecks.Statement (.div rd rs1 rs2) := by
  intro p
  have h : decode p (encode (.div rd rs1 rs2)) = _ :=
    (decode_of_op (op := 0x1B#8) (opField_encodeR ..) p).trans (decodeR_encodeR p 0x1B#8 rd rs1 rs2 .div)
  rw [h]
  exact passes_ite (passes_ok _) (passes_error (by decide))

theorem Laws.FormatChecks.divu (rd rs1 rs2 : Reg) : Laws.FormatChecks.Statement (.divu rd rs1 rs2) := by
  intro p
  have h : decode p (encode (.divu rd rs1 rs2)) = _ :=
    (decode_of_op (op := 0x1C#8) (opField_encodeR ..) p).trans (decodeR_encodeR p 0x1C#8 rd rs1 rs2 .divu)
  rw [h]
  exact passes_ite (passes_ok _) (passes_error (by decide))

theorem Laws.FormatChecks.rem (rd rs1 rs2 : Reg) : Laws.FormatChecks.Statement (.rem rd rs1 rs2) := by
  intro p
  have h : decode p (encode (.rem rd rs1 rs2)) = _ :=
    (decode_of_op (op := 0x1D#8) (opField_encodeR ..) p).trans (decodeR_encodeR p 0x1D#8 rd rs1 rs2 .rem)
  rw [h]
  exact passes_ite (passes_ok _) (passes_error (by decide))

theorem Laws.FormatChecks.remu (rd rs1 rs2 : Reg) : Laws.FormatChecks.Statement (.remu rd rs1 rs2) := by
  intro p
  have h : decode p (encode (.remu rd rs1 rs2)) = _ :=
    (decode_of_op (op := 0x1E#8) (opField_encodeR ..) p).trans (decodeR_encodeR p 0x1E#8 rd rs1 rs2 .remu)
  rw [h]
  exact passes_ite (passes_ok _) (passes_error (by decide))

theorem Laws.FormatChecks.addi (rd rs1 : Reg) (imm : BitVec 16) : Laws.FormatChecks.Statement (.addi rd rs1 imm) := by
  intro p
  have h : decode p (encode (.addi rd rs1 imm)) = _ :=
    (decode_of_op (op := 0x20#8) (opField_encodeI ..) p).trans (decodeI_encodeI p 0x20#8 rd rs1 imm .addi)
  rw [h]
  exact passes_ite (passes_ok _) (passes_error (by decide))

theorem Laws.FormatChecks.andi (rd rs1 : Reg) (imm : BitVec 16) : Laws.FormatChecks.Statement (.andi rd rs1 imm) := by
  intro p
  have h : decode p (encode (.andi rd rs1 imm)) = _ :=
    (decode_of_op (op := 0x21#8) (opField_encodeI ..) p).trans (decodeI_encodeI p 0x21#8 rd rs1 imm .andi)
  rw [h]
  exact passes_ite (passes_ok _) (passes_error (by decide))

theorem Laws.FormatChecks.ori (rd rs1 : Reg) (imm : BitVec 16) : Laws.FormatChecks.Statement (.ori rd rs1 imm) := by
  intro p
  have h : decode p (encode (.ori rd rs1 imm)) = _ :=
    (decode_of_op (op := 0x22#8) (opField_encodeI ..) p).trans (decodeI_encodeI p 0x22#8 rd rs1 imm .ori)
  rw [h]
  exact passes_ite (passes_ok _) (passes_error (by decide))

theorem Laws.FormatChecks.xori (rd rs1 : Reg) (imm : BitVec 16) : Laws.FormatChecks.Statement (.xori rd rs1 imm) := by
  intro p
  have h : decode p (encode (.xori rd rs1 imm)) = _ :=
    (decode_of_op (op := 0x23#8) (opField_encodeI ..) p).trans (decodeI_encodeI p 0x23#8 rd rs1 imm .xori)
  rw [h]
  exact passes_ite (passes_ok _) (passes_error (by decide))

theorem Laws.FormatChecks.slli (rd rs1 : Reg) (shamt : BitVec 6) : Laws.FormatChecks.Statement (.slli rd rs1 shamt) := by
  intro p
  have h : decode p (encode (.slli rd rs1 shamt)) = _ :=
    (decode_of_op (op := 0x24#8) (opField_encodeShift ..) p).trans (decodeShift_encodeShift p 0x24#8 rd rs1 shamt .slli)
  rw [h]
  exact passes_ite (passes_ite (passes_ok _) (passes_error (by decide))) (passes_error (by decide))

theorem Laws.FormatChecks.srli (rd rs1 : Reg) (shamt : BitVec 6) : Laws.FormatChecks.Statement (.srli rd rs1 shamt) := by
  intro p
  have h : decode p (encode (.srli rd rs1 shamt)) = _ :=
    (decode_of_op (op := 0x25#8) (opField_encodeShift ..) p).trans (decodeShift_encodeShift p 0x25#8 rd rs1 shamt .srli)
  rw [h]
  exact passes_ite (passes_ite (passes_ok _) (passes_error (by decide))) (passes_error (by decide))

theorem Laws.FormatChecks.srai (rd rs1 : Reg) (shamt : BitVec 6) : Laws.FormatChecks.Statement (.srai rd rs1 shamt) := by
  intro p
  have h : decode p (encode (.srai rd rs1 shamt)) = _ :=
    (decode_of_op (op := 0x26#8) (opField_encodeShift ..) p).trans (decodeShift_encodeShift p 0x26#8 rd rs1 shamt .srai)
  rw [h]
  exact passes_ite (passes_ite (passes_ok _) (passes_error (by decide))) (passes_error (by decide))

theorem Laws.FormatChecks.slti (rd rs1 : Reg) (imm : BitVec 16) : Laws.FormatChecks.Statement (.slti rd rs1 imm) := by
  intro p
  have h : decode p (encode (.slti rd rs1 imm)) = _ :=
    (decode_of_op (op := 0x27#8) (opField_encodeI ..) p).trans (decodeI_encodeI p 0x27#8 rd rs1 imm .slti)
  rw [h]
  exact passes_ite (passes_ok _) (passes_error (by decide))

theorem Laws.FormatChecks.sltiu (rd rs1 : Reg) (imm : BitVec 16) : Laws.FormatChecks.Statement (.sltiu rd rs1 imm) := by
  intro p
  have h : decode p (encode (.sltiu rd rs1 imm)) = _ :=
    (decode_of_op (op := 0x28#8) (opField_encodeI ..) p).trans (decodeI_encodeI p 0x28#8 rd rs1 imm .sltiu)
  rw [h]
  exact passes_ite (passes_ok _) (passes_error (by decide))

theorem Laws.FormatChecks.lui (rd : Reg) (imm : BitVec 16) : Laws.FormatChecks.Statement (.lui rd imm) := by
  intro p
  have h : decode p (encode (.lui rd imm)) = _ :=
    (decode_of_op (op := 0x29#8) (opField_encodeI ..) p).trans (decodeI0_encodeI p 0x29#8 rd imm .lui)
  rw [h]
  exact passes_ite (passes_ok _) (passes_error (by decide))

theorem Laws.FormatChecks.lb (rd rs1 : Reg) (imm : BitVec 16) : Laws.FormatChecks.Statement (.lb rd rs1 imm) := by
  intro p
  have h : decode p (encode (.lb rd rs1 imm)) = _ :=
    (decode_of_op (op := 0x30#8) (opField_encodeI ..) p).trans (decodeI_encodeI p 0x30#8 rd rs1 imm .lb)
  rw [h]
  exact passes_ite (passes_ok _) (passes_error (by decide))

theorem Laws.FormatChecks.lbu (rd rs1 : Reg) (imm : BitVec 16) : Laws.FormatChecks.Statement (.lbu rd rs1 imm) := by
  intro p
  have h : decode p (encode (.lbu rd rs1 imm)) = _ :=
    (decode_of_op (op := 0x31#8) (opField_encodeI ..) p).trans (decodeI_encodeI p 0x31#8 rd rs1 imm .lbu)
  rw [h]
  exact passes_ite (passes_ok _) (passes_error (by decide))

theorem Laws.FormatChecks.lh (rd rs1 : Reg) (imm : BitVec 16) : Laws.FormatChecks.Statement (.lh rd rs1 imm) := by
  intro p
  have h : decode p (encode (.lh rd rs1 imm)) = _ :=
    (decode_of_op (op := 0x32#8) (opField_encodeI ..) p).trans (decodeI_encodeI p 0x32#8 rd rs1 imm .lh)
  rw [h]
  exact passes_ite (passes_ok _) (passes_error (by decide))

theorem Laws.FormatChecks.lhu (rd rs1 : Reg) (imm : BitVec 16) : Laws.FormatChecks.Statement (.lhu rd rs1 imm) := by
  intro p
  have h : decode p (encode (.lhu rd rs1 imm)) = _ :=
    (decode_of_op (op := 0x33#8) (opField_encodeI ..) p).trans (decodeI_encodeI p 0x33#8 rd rs1 imm .lhu)
  rw [h]
  exact passes_ite (passes_ok _) (passes_error (by decide))

theorem Laws.FormatChecks.lw (rd rs1 : Reg) (imm : BitVec 16) : Laws.FormatChecks.Statement (.lw rd rs1 imm) := by
  intro p
  have h : decode p (encode (.lw rd rs1 imm)) = _ :=
    (decode_of_op (op := 0x34#8) (opField_encodeI ..) p).trans (decodeI_encodeI p 0x34#8 rd rs1 imm .lw)
  rw [h]
  exact passes_ite (passes_ok _) (passes_error (by decide))

theorem Laws.FormatChecks.lwu (rd rs1 : Reg) (imm : BitVec 16) : Laws.FormatChecks.Statement (.lwu rd rs1 imm) := by
  intro p
  have h : decode p (encode (.lwu rd rs1 imm)) = _ :=
    (decode_of_op (op := 0x35#8) (opField_encodeI ..) p).trans (decodeI64_encodeI p 0x35#8 rd rs1 imm .lwu)
  rw [h]
  exact passes_ite (passes_ite (passes_ok _) (passes_error (by decide))) (passes_error (by decide))

theorem Laws.FormatChecks.ld (rd rs1 : Reg) (imm : BitVec 16) : Laws.FormatChecks.Statement (.ld rd rs1 imm) := by
  intro p
  have h : decode p (encode (.ld rd rs1 imm)) = _ :=
    (decode_of_op (op := 0x36#8) (opField_encodeI ..) p).trans (decodeI64_encodeI p 0x36#8 rd rs1 imm .ld)
  rw [h]
  exact passes_ite (passes_ite (passes_ok _) (passes_error (by decide))) (passes_error (by decide))

theorem Laws.FormatChecks.sb (rs2 rs1 : Reg) (imm : BitVec 16) : Laws.FormatChecks.Statement (.sb rs2 rs1 imm) := by
  intro p
  have h : decode p (encode (.sb rs2 rs1 imm)) = _ :=
    (decode_of_op (op := 0x38#8) (opField_encodeI ..) p).trans (decodeI_encodeI p 0x38#8 rs2 rs1 imm .sb)
  rw [h]
  exact passes_ite (passes_ok _) (passes_error (by decide))

theorem Laws.FormatChecks.sh (rs2 rs1 : Reg) (imm : BitVec 16) : Laws.FormatChecks.Statement (.sh rs2 rs1 imm) := by
  intro p
  have h : decode p (encode (.sh rs2 rs1 imm)) = _ :=
    (decode_of_op (op := 0x39#8) (opField_encodeI ..) p).trans (decodeI_encodeI p 0x39#8 rs2 rs1 imm .sh)
  rw [h]
  exact passes_ite (passes_ok _) (passes_error (by decide))

theorem Laws.FormatChecks.sw (rs2 rs1 : Reg) (imm : BitVec 16) : Laws.FormatChecks.Statement (.sw rs2 rs1 imm) := by
  intro p
  have h : decode p (encode (.sw rs2 rs1 imm)) = _ :=
    (decode_of_op (op := 0x3A#8) (opField_encodeI ..) p).trans (decodeI_encodeI p 0x3A#8 rs2 rs1 imm .sw)
  rw [h]
  exact passes_ite (passes_ok _) (passes_error (by decide))

theorem Laws.FormatChecks.sd (rs2 rs1 : Reg) (imm : BitVec 16) : Laws.FormatChecks.Statement (.sd rs2 rs1 imm) := by
  intro p
  have h : decode p (encode (.sd rs2 rs1 imm)) = _ :=
    (decode_of_op (op := 0x3B#8) (opField_encodeI ..) p).trans (decodeI64_encodeI p 0x3B#8 rs2 rs1 imm .sd)
  rw [h]
  exact passes_ite (passes_ite (passes_ok _) (passes_error (by decide))) (passes_error (by decide))

theorem Laws.FormatChecks.beq (rs1 rs2 : Reg) (imm : BitVec 16) : Laws.FormatChecks.Statement (.beq rs1 rs2 imm) := by
  intro p
  have h : decode p (encode (.beq rs1 rs2 imm)) = _ :=
    (decode_of_op (op := 0x40#8) (opField_encodeI ..) p).trans (decodeI_encodeI p 0x40#8 rs1 rs2 imm .beq)
  rw [h]
  exact passes_ite (passes_ok _) (passes_error (by decide))

theorem Laws.FormatChecks.bne (rs1 rs2 : Reg) (imm : BitVec 16) : Laws.FormatChecks.Statement (.bne rs1 rs2 imm) := by
  intro p
  have h : decode p (encode (.bne rs1 rs2 imm)) = _ :=
    (decode_of_op (op := 0x41#8) (opField_encodeI ..) p).trans (decodeI_encodeI p 0x41#8 rs1 rs2 imm .bne)
  rw [h]
  exact passes_ite (passes_ok _) (passes_error (by decide))

theorem Laws.FormatChecks.blt (rs1 rs2 : Reg) (imm : BitVec 16) : Laws.FormatChecks.Statement (.blt rs1 rs2 imm) := by
  intro p
  have h : decode p (encode (.blt rs1 rs2 imm)) = _ :=
    (decode_of_op (op := 0x42#8) (opField_encodeI ..) p).trans (decodeI_encodeI p 0x42#8 rs1 rs2 imm .blt)
  rw [h]
  exact passes_ite (passes_ok _) (passes_error (by decide))

theorem Laws.FormatChecks.bge (rs1 rs2 : Reg) (imm : BitVec 16) : Laws.FormatChecks.Statement (.bge rs1 rs2 imm) := by
  intro p
  have h : decode p (encode (.bge rs1 rs2 imm)) = _ :=
    (decode_of_op (op := 0x43#8) (opField_encodeI ..) p).trans (decodeI_encodeI p 0x43#8 rs1 rs2 imm .bge)
  rw [h]
  exact passes_ite (passes_ok _) (passes_error (by decide))

theorem Laws.FormatChecks.bltu (rs1 rs2 : Reg) (imm : BitVec 16) : Laws.FormatChecks.Statement (.bltu rs1 rs2 imm) := by
  intro p
  have h : decode p (encode (.bltu rs1 rs2 imm)) = _ :=
    (decode_of_op (op := 0x44#8) (opField_encodeI ..) p).trans (decodeI_encodeI p 0x44#8 rs1 rs2 imm .bltu)
  rw [h]
  exact passes_ite (passes_ok _) (passes_error (by decide))

theorem Laws.FormatChecks.bgeu (rs1 rs2 : Reg) (imm : BitVec 16) : Laws.FormatChecks.Statement (.bgeu rs1 rs2 imm) := by
  intro p
  have h : decode p (encode (.bgeu rs1 rs2 imm)) = _ :=
    (decode_of_op (op := 0x45#8) (opField_encodeI ..) p).trans (decodeI_encodeI p 0x45#8 rs1 rs2 imm .bgeu)
  rw [h]
  exact passes_ite (passes_ok _) (passes_error (by decide))

theorem Laws.FormatChecks.jal (rd : Reg) (imm : BitVec 20) : Laws.FormatChecks.Statement (.jal rd imm) := by
  intro p
  have h : decode p (encode (.jal rd imm)) = _ :=
    (decode_of_op (op := 0x48#8) (opField_encodeJ ..) p).trans (decodeJ_encodeJ p 0x48#8 rd imm .jal)
  rw [h]
  exact passes_ite (passes_ok _) (passes_error (by decide))

theorem Laws.FormatChecks.jalr (rd rs1 : Reg) (imm : BitVec 16) : Laws.FormatChecks.Statement (.jalr rd rs1 imm) := by
  intro p
  have h : decode p (encode (.jalr rd rs1 imm)) = _ :=
    (decode_of_op (op := 0x49#8) (opField_encodeI ..) p).trans (decodeI_encodeI p 0x49#8 rd rs1 imm .jalr)
  rw [h]
  exact passes_ite (passes_ok _) (passes_error (by decide))

theorem Laws.FormatChecks.j (imm : BitVec 20) : Laws.FormatChecks.Statement (.j imm) := by
  intro p
  have h : decode p (encode (.j imm)) = _ :=
    (decode_of_op (op := 0x4A#8) (opField_encodeJ ..) p).trans (decodeJ0_encodeJ 0x4A#8 imm .j)
  rw [h]
  exact passes_ok _

theorem Laws.FormatChecks.jr (rs1 : Reg) (imm : BitVec 16) : Laws.FormatChecks.Statement (.jr rs1 imm) := by
  intro p
  have h : decode p (encode (.jr rs1 imm)) = _ :=
    (decode_of_op (op := 0x4B#8) (opField_encodeI ..) p).trans (decodeIJ_encodeI p 0x4B#8 rs1 imm .jr)
  rw [h]
  exact passes_ite (passes_ok _) (passes_error (by decide))

end Sys2Proof
end

