-- ==== Sys2Proof/Laws/Snapshot.lean ====
section
/-! SUPPORT. Reading a blob: what each part of Restore accepts (R179), and the order of memory records (R177). -/

namespace Sys2Proof.Machine

/-! ### Bytes and numbers -/

/-- Taking n bytes: there are as many, and they are the first. -/
theorem takeBytes_some {n : Nat} {b x r : List Byte} :
    takeBytes n b = some (x, r) ↔ n ≤ b.length ∧ x = b.take n ∧ r = b.drop n := by
  unfold takeBytes
  split <;> simp_all [eq_comm]

/-- Taking an n-byte number: there are as many bytes, and it is the little-endian number of the first. -/
theorem takeNat_some {n v : Nat} {b r : List Byte} :
    takeNat n b = some (v, r) ↔ n ≤ b.length ∧ v = leNatAt b 0 n ∧ r = b.drop n := by
  unfold takeNat takeBytes leNatAt
  split <;> simp_all [eq_comm]

/-- A number at an offset of what is left is one at a larger offset of the whole. -/
theorem leNatAt_drop (b : List Byte) (k o n : Nat) : leNatAt (b.drop k) o n = leNatAt b (k + o) n := by
  simp [leNatAt, List.drop_drop]

/-- A number of the first bytes is a number of the whole. -/
theorem leNatAt_take (b : List Byte) {k o n : Nat} (h : o + n ≤ k) : leNatAt (b.take k) o n = leNatAt b o n := by
  rw [leNatAt, List.drop_take, List.take_take, min_eq_left (by omega), leNatAt]

/-- A number inside the first of two strings is one of both together. -/
theorem leNatAt_append (a b : List Byte) {o n : Nat} (h : o + n ≤ a.length) : leNatAt (a ++ b) o n = leNatAt a o n := by
  rw [leNatAt, List.drop_append_of_le_length (by omega), List.take_append_of_le_length (by simp; omega), leNatAt]

/-- Taking k u64 fields: there are 8k bytes, and the fields lie one after the other. -/
theorem takeU64s_some {k : Nat} {b r : List Byte} {vs : List Nat} :
    takeU64s k b = some (vs, r) ↔
      8 * k ≤ b.length ∧ vs = (List.range k).map (fun j => leNatAt b (8 * j) 8) ∧ r = b.drop (8 * k) := by
  induction k generalizing b vs r with
  | zero => simp [takeU64s, eq_comm]
  | succ k ih =>
    rw [takeU64s]
    rcases h : takeNat 8 b with _ | ⟨v, b'⟩
    · simp only [reduceCtorEq, false_iff]
      rintro ⟨hl, _⟩
      rw [takeNat_some.mpr ⟨by omega, rfl, rfl⟩] at h
      cases h
    · obtain ⟨h1, rfl, rfl⟩ := takeNat_some.mp h
      simp only
      rcases h2 : takeU64s k (b.drop 8) with _ | ⟨ws, b''⟩
      · simp only [reduceCtorEq, false_iff]
        rintro ⟨hl, _⟩
        rw [ih.mpr ⟨by simp; omega, rfl, rfl⟩] at h2
        cases h2
      · obtain ⟨g1, rfl, rfl⟩ := ih.mp h2
        simp only [List.length_drop] at g1
        have e : ((fun j => leNatAt b (8 * j) 8) ∘ Nat.succ) = fun j => leNatAt b (8 + 8 * j) 8 := by
          funext j
          simp only [Function.comp]
          congr 1
          omega
        simp only [Option.some.injEq, Prod.mk.injEq, List.range_succ_eq_map, List.map_cons, List.map_map,
          List.drop_drop, leNatAt_drop, e, show 8 + 8 * k = 8 * (k + 1) by omega, Nat.mul_zero]
        constructor
        · rintro ⟨rfl, rfl⟩
          exact ⟨by omega, rfl, rfl⟩
        · rintro ⟨_, rfl, rfl⟩
          exact ⟨rfl, rfl⟩

/-! ### Records -/

/-- Device records can be taken exactly when the bytes start with one record per device that passes check 4 (R179). -/
theorem takeDevices_some {ds : List DeviceDecl} {b r : List Byte} :
    (∃ sts, takeDevices ds b = some (sts, r)) ↔
      ∃ recs : List (List Byte), b = recs.flatten ++ r ∧ List.Forall₂ deviceRecordPasses ds recs := by
  induction ds generalizing b with
  | nil => simp [takeDevices, eq_comm]
  | cons d ds ih =>
    constructor
    · rintro ⟨sts, h⟩
      rw [takeDevices] at h
      split at h
      · cases h
      rename_i n b1 h1
      split at h
      · cases h
      rename_i bytes b2 h2
      split at h
      · cases h
      rename_i st h3
      split at h
      · cases h
      rename_i sts' b3 h4
      cases h
      obtain ⟨g1, rfl, rfl⟩ := takeNat_some.mp h1
      obtain ⟨g2, rfl, rfl⟩ := takeBytes_some.mp h2
      obtain ⟨recs, e, hf⟩ := ih.mp ⟨_, h4⟩
      simp only [List.length_drop] at g2
      refine ⟨b.take (4 + leNatAt b 0 4) :: recs, ?_, .cons ⟨?_, st, ?_⟩ hf⟩
      · rw [List.flatten_cons, List.append_assoc, ← e, List.drop_drop, List.take_append_drop]
      · rw [leNatAt_take _ (by omega), List.length_take]
        omega
      · rw [← h3, List.drop_take, Nat.add_sub_cancel_left]
    · rintro ⟨recs, rfl, hf⟩
      cases hf with
      | @cons _ rec _ recs hr hf =>
        obtain ⟨sts, hs⟩ := ih.mpr ⟨recs, rfl, hf⟩
        obtain ⟨hl, st, hst⟩ := hr
        have h1 : takeNat 4 (rec ++ (recs.flatten ++ r)) = some (leNatAt rec 0 4, rec.drop 4 ++ (recs.flatten ++ r)) :=
          takeNat_some.mpr ⟨by simp; omega, (leNatAt_append _ _ (by omega)).symm,
            (List.drop_append_of_le_length (by omega)).symm⟩
        have h2 : takeBytes (leNatAt rec 0 4) (rec.drop 4 ++ (recs.flatten ++ r)) =
            some (rec.drop 4, recs.flatten ++ r) := by
          rw [takeBytes_some, show leNatAt rec 0 4 = (rec.drop 4).length by simp; omega]
          simp
        refine ⟨st :: sts, ?_⟩
        rw [List.flatten_cons, List.append_assoc, takeDevices, h1]
        simp only [h2, hst, hs]

/-- Memory records can be taken exactly when the bytes start with one record per range that passes check 5 (R179). -/
theorem takeImage_some {rs : List Range} {b r : List Byte} :
    (∃ im, takeImage rs b = some (im, r)) ↔
      ∃ recs : List (List Byte), b = recs.flatten ++ r ∧ List.Forall₂ memoryRecordPasses rs recs := by
  induction rs generalizing b with
  | nil => simp [takeImage, eq_comm]
  | cons q rs ih =>
    constructor
    · rintro ⟨sts, h⟩
      rw [takeImage] at h
      split at h
      · cases h
      rename_i start b1 h1
      split at h
      · cases h
      rename_i len b2 h2
      split at h
      swap
      · cases h
      rename_i hq
      split at h
      · cases h
      rename_i bytes b3 h3
      split at h
      · cases h
      rename_i rest b4 h4
      cases h
      obtain ⟨g1, rfl, rfl⟩ := takeNat_some.mp h1
      obtain ⟨g2, rfl, rfl⟩ := takeNat_some.mp h2
      obtain ⟨g3, rfl, rfl⟩ := takeBytes_some.mp h3
      obtain ⟨recs, e, hf⟩ := ih.mp ⟨_, h4⟩
      simp only [List.length_drop, leNatAt_drop] at g2 g3 hq
      refine ⟨b.take (16 + q.length) :: recs, ?_, .cons ⟨?_, ?_, ?_⟩ hf⟩
      · rw [List.flatten_cons, List.append_assoc, ← e, List.drop_drop, List.drop_drop,
          show 8 + (8 + q.length) = 16 + q.length by omega, List.take_append_drop]
      · rw [List.length_take]
        omega
      · rw [leNatAt_take _ (by omega), hq.1]
      · rw [leNatAt_take _ (by omega)]
        exact hq.2
    · rintro ⟨recs, rfl, hf⟩
      cases hf with
      | @cons _ rec _ recs hr hf =>
        obtain ⟨sts, hs⟩ := ih.mpr ⟨recs, rfl, hf⟩
        obtain ⟨hl, hst, hln⟩ := hr
        have h1 : takeNat 8 (rec ++ (recs.flatten ++ r)) = some (q.start, rec.drop 8 ++ (recs.flatten ++ r)) :=
          takeNat_some.mpr ⟨by simp; omega, by rw [leNatAt_append _ _ (by omega), hst],
            (List.drop_append_of_le_length (by omega)).symm⟩
        have h2 : takeNat 8 (rec.drop 8 ++ (recs.flatten ++ r)) = some (q.length, rec.drop 16 ++ (recs.flatten ++ r)) := by
          refine takeNat_some.mpr ⟨by simp; omega, ?_, ?_⟩
          · rw [leNatAt_append _ _ (by simp; omega), leNatAt_drop, hln]
          · rw [List.drop_append_of_le_length (by simp; omega), List.drop_drop]
        have h3 : takeBytes q.length (rec.drop 16 ++ (recs.flatten ++ r)) = some (rec.drop 16, recs.flatten ++ r) := by
          rw [takeBytes_some, show q.length = (rec.drop 16).length by simp; omega]
          simp
        refine ⟨(q.start, rec.drop 16) :: sts, ?_⟩
        rw [List.flatten_cons, List.append_assoc, takeImage, h1]
        simp only [h2, h3, hs, and_self, if_true]

/-! ### Fields -/

/-- The cause codes are 0 to 9 (R146). -/
theorem causeOfNumber_some (c : Nat) : (∃ x, causeOfNumber c = some x) ↔ c ≤ 9 := by
  constructor
  · rintro ⟨x, h⟩
    unfold causeOfNumber at h
    split at h <;> first | omega | cases h
  · intro h
    interval_cases c <;> exact ⟨_, rfl⟩

/-- The run fields stand for a run state exactly when they pass check 3 (R179). -/
theorem runOfFields_some (k c e i : Nat) :
    (∃ r, runOfFields [k, c, e, i] = some r) ↔
      k ≤ 2 ∧ (k ≠ 2 → c = 0 ∧ e = 0 ∧ i = 0) ∧ (k = 2 → c ≤ 9) := by
  have zero : ∀ j, j ≠ 2 → (∃ r, runOfFields [j, c, e, i] = some r) → c = 0 ∧ e = 0 ∧ i = 0 := by
    rintro j hj ⟨r, hr⟩
    unfold runOfFields at hr
    split at hr <;> simp_all
  match k with
  | 0 =>
    refine ⟨fun h => ⟨by omega, fun _ => zero 0 (by omega) h, by omega⟩, fun h => ?_⟩
    obtain ⟨rfl, rfl, rfl⟩ := h.2.1 (by omega)
    exact ⟨_, rfl⟩
  | 1 =>
    refine ⟨fun h => ⟨by omega, fun _ => zero 1 (by omega) h, by omega⟩, fun h => ?_⟩
    obtain ⟨rfl, rfl, rfl⟩ := h.2.1 (by omega)
    exact ⟨_, rfl⟩
  | 2 =>
    simp only [runOfFields, Option.map_eq_some_iff]
    constructor
    · rintro ⟨_, x, h, _⟩
      exact ⟨by omega, by omega, fun _ => (causeOfNumber_some c).mp ⟨x, h⟩⟩
    · rintro ⟨_, _, h⟩
      obtain ⟨x, hx⟩ := (causeOfNumber_some c).mpr (h (by trivial))
      exact ⟨_, x, hx, rfl⟩
  | k + 3 =>
    refine ⟨?_, by omega⟩
    rintro ⟨r, hr⟩
    unfold runOfFields at hr
    split at hr <;> simp_all

/-- The fields make a snapshot exactly when they pass check 3 (R179). -/
theorem snapshotOfFields_some (p : Profile) (cycles frame : Nat) (regs : List Nat) (f : Nat → Nat)
    (devs : List DevState) (image : List (Nat × List Byte)) :
    (∃ n, snapshotOfFields p cycles frame regs ((List.range 11).map f) devs image = some n) ↔
      ((∀ v ∈ regs, v < 2 ^ p.xlen.bits) ∧ f 0 < 2 ^ p.addrBits ∧ f 3 < 2 ^ p.addrBits ∧ f 6 < 2 ^ p.addrBits
        ∧ f 6 % 4 = 0 ∧ f 4 < 2 ^ p.xlen.bits ∧ f 5 < 2 ^ p.xlen.bits ∧ statusFieldOk (f 1) = true)
      ∧ f 2 ≤ 9 ∧ f 7 ≤ 2 ∧ (f 7 ≠ 2 → f 8 = 0 ∧ f 9 = 0 ∧ f 10 = 0) ∧ (f 7 = 2 → f 8 ≤ 9) := by
  have : (List.range 11).map f = [f 0, f 1, f 2, f 3, f 4, f 5, f 6, f 7, f 8, f 9, f 10] := rfl
  rw [this, ← causeOfNumber_some, ← runOfFields_some]
  simp only [snapshotOfFields, List.all_eq_true, decide_eq_true_eq]
  constructor
  · rintro ⟨n, h⟩
    split at h
    · rename_i hc
      refine ⟨hc, ?_⟩
      split at h
      · rename_i c r h1 h2
        exact ⟨⟨c, h1⟩, ⟨r, h2⟩⟩
      · cases h
    · cases h
  · rintro ⟨hc, ⟨c, h1⟩, ⟨r, h2⟩⟩
    rw [if_pos hc, h1, h2]
    exact ⟨_, rfl⟩

/-! ### The order of memory records -/

/-- Inserting a range keeps the ranges. -/
theorem insertRange_perm (r : Range) (rs : List Range) : (insertRange r rs).Perm (r :: rs) := by
  induction rs with
  | nil => rfl
  | cons q rs ih =>
    rw [insertRange]
    split
    · rfl
    · exact (List.Perm.cons q ih).trans (List.Perm.swap _ _ _)

/-- Inserting a range keeps ascending order. -/
theorem insertRange_sorted (r : Range) {rs : List Range} (h : rs.Pairwise fun a b => a.start ≤ b.start) :
    (insertRange r rs).Pairwise fun a b => a.start ≤ b.start := by
  induction rs with
  | nil => simp [insertRange]
  | cons q rs ih =>
    have hq := List.pairwise_cons.mp h
    rw [insertRange]
    split
    · rename_i hr
      refine List.pairwise_cons.mpr ⟨fun a ha => ?_, h⟩
      rcases List.mem_cons.mp ha with rfl | ha
      · exact hr
      · exact le_trans hr (hq.1 a ha)
    · rename_i hr
      refine List.pairwise_cons.mpr ⟨fun a ha => ?_, ih hq.2⟩
      rcases List.mem_cons.mp ((insertRange_perm r rs).mem_iff.mp ha) with rfl | ha
      · omega
      · exact hq.1 a ha

end Sys2Proof.Machine
end

