-- ==== Sys2Proof/Tests/Slice0.lean ====
section
/-! SUPPORT. Tests: WellFormed, decoding, one or two steps per instruction with the results of spec/95_test_vectors.md, and a
witness for the hypotheses of every statement. Every expected result is a vector of 95_test_vectors.md or worked from the
rule named beside it. -/

namespace Sys2Proof.Machine

open Sys2Proof

/-! ### WellFormed: each check refuses an ill-formed term (R76) -/

/-- REF-1 with XLEN = 32. -/
def ref32 : Profile := { Profile.ref1 with xlen := .x32 }

theorem test_wellFormed : (Instr.ld 3 1 5).wellFormed Profile.ref1 = true := by decide
/-- rd = 4 on four registers. -/
theorem test_illFormed_register : (Instr.add 4 0 0).wellFormed Profile.ref1 = false := by decide
theorem test_illFormed_source : (Instr.sw 1 7 0).wellFormed Profile.ref1 = false := by decide
/-- LD, LWU and SD at XLEN = 32 (R77). -/
theorem test_illFormed_xlen : (Instr.ld 0 0 0).wellFormed ref32 = false ∧ (Instr.lwu 0 0 0).wellFormed ref32 = false ∧
    (Instr.sd 0 0 0).wellFormed ref32 = false := by decide
/-- shamt 32 at XLEN = 32 (R103). -/
theorem test_illFormed_shamt : (Instr.slli 0 0 32).wellFormed ref32 = false ∧
    (Instr.slli 0 0 31).wellFormed ref32 = true := by decide

/-! ### Decoding: a word for every instruction, from 95_test_vectors.md or the tables of R71 and R75 -/

theorem test_decode_add : decode Profile.ref1 0x10312000 = .ok (.add 3 1 2) := by decide
theorem test_decode_sub : decode Profile.ref1 0x11312000 = .ok (.sub 3 1 2) := by decide
theorem test_decode_and : decode Profile.ref1 0x12312000 = .ok (.and 3 1 2) := by decide
theorem test_decode_or : decode Profile.ref1 0x13312000 = .ok (.or 3 1 2) := by decide
theorem test_decode_xor : decode Profile.ref1 0x14333000 = .ok (.xor 3 3 3) := by decide
theorem test_decode_sll : decode Profile.ref1 0x15312000 = .ok (.sll 3 1 2) := by decide
theorem test_decode_srl : decode Profile.ref1 0x16312000 = .ok (.srl 3 1 2) := by decide
theorem test_decode_sra : decode Profile.ref1 0x17312000 = .ok (.sra 3 1 2) := by decide
theorem test_decode_slt : decode Profile.ref1 0x18312000 = .ok (.slt 3 1 2) := by decide
theorem test_decode_sltu : decode Profile.ref1 0x19312000 = .ok (.sltu 3 1 2) := by decide
theorem test_decode_mul : decode Profile.ref1 0x1A312000 = .ok (.mul 3 1 2) := by decide
theorem test_decode_div : decode Profile.ref1 0x1B312000 = .ok (.div 3 1 2) := by decide
theorem test_decode_divu : decode Profile.ref1 0x1C312000 = .ok (.divu 3 1 2) := by decide
theorem test_decode_rem : decode Profile.ref1 0x1D312000 = .ok (.rem 3 1 2) := by decide
theorem test_decode_remu : decode Profile.ref1 0x1E312000 = .ok (.remu 3 1 2) := by decide
theorem test_decode_addi : decode Profile.ref1 0x2011FFFF = .ok (.addi 1 1 (-1)) := by decide
theorem test_decode_andi : decode Profile.ref1 0x212100FF = .ok (.andi 2 1 0xFF) := by decide
theorem test_decode_ori : decode Profile.ref1 0x22110040 = .ok (.ori 1 1 0x40) := by decide
theorem test_decode_xori : decode Profile.ref1 0x2311FFFF = .ok (.xori 1 1 0xFFFF) := by decide
theorem test_decode_slli : decode Profile.ref1 0x24110004 = .ok (.slli 1 1 4) := by decide
theorem test_decode_srli : decode Profile.ref1 0x2511003C = .ok (.srli 1 1 60) := by decide
theorem test_decode_srai : decode Profile.ref1 0x26110004 = .ok (.srai 1 1 4) := by decide
theorem test_decode_slti : decode Profile.ref1 0x2721FFFF = .ok (.slti 2 1 (-1)) := by decide
theorem test_decode_sltiu : decode Profile.ref1 0x28210001 = .ok (.sltiu 2 1 1) := by decide
theorem test_decode_lui : decode Profile.ref1 0x29208000 = .ok (.lui 2 0x8000) := by decide
theorem test_decode_lb : decode Profile.ref1 0x30210000 = .ok (.lb 2 1 0) := by decide
theorem test_decode_lbu : decode Profile.ref1 0x31210000 = .ok (.lbu 2 1 0) := by decide
theorem test_decode_lh : decode Profile.ref1 0x32210001 = .ok (.lh 2 1 1) := by decide
theorem test_decode_lhu : decode Profile.ref1 0x33210000 = .ok (.lhu 2 1 0) := by decide
theorem test_decode_lw : decode Profile.ref1 0x3421FFFC = .ok (.lw 2 1 (-4)) := by decide
theorem test_decode_lwu : decode Profile.ref1 0x35210000 = .ok (.lwu 2 1 0) := by decide
theorem test_decode_ld : decode Profile.ref1 0x36210004 = .ok (.ld 2 1 4) := by decide
theorem test_decode_sb : decode Profile.ref1 0x38210000 = .ok (.sb 2 1 0) := by decide
theorem test_decode_sh : decode Profile.ref1 0x39210001 = .ok (.sh 2 1 1) := by decide
theorem test_decode_sw : decode Profile.ref1 0x3A210100 = .ok (.sw 2 1 0x100) := by decide
theorem test_decode_sd : decode Profile.ref1 0x3B210000 = .ok (.sd 2 1 0) := by decide
theorem test_decode_beq : decode Profile.ref1 0x40120003 = .ok (.beq 1 2 3) := by decide
theorem test_decode_bne : decode Profile.ref1 0x4110FFFF = .ok (.bne 1 0 (-1)) := by decide
theorem test_decode_blt : decode Profile.ref1 0x42120002 = .ok (.blt 1 2 2) := by decide
theorem test_decode_bge : decode Profile.ref1 0x43120002 = .ok (.bge 1 2 2) := by decide
theorem test_decode_bltu : decode Profile.ref1 0x44120002 = .ok (.bltu 1 2 2) := by decide
theorem test_decode_bgeu : decode Profile.ref1 0x4512FFFC = .ok (.bgeu 1 2 (-4)) := by decide
theorem test_decode_jal : decode Profile.ref1 0x48300004 = .ok (.jal 3 4) := by decide
theorem test_decode_jalr : decode Profile.ref1 0x49320004 = .ok (.jalr 3 2 4) := by decide
theorem test_decode_j : decode Profile.ref1 0x4A0FFFFE = .ok (.j (-2)) := by decide
theorem test_decode_jr : decode Profile.ref1 0x4B030000 = .ok (.jr 3 0) := by decide
theorem test_decode_nop : decode Profile.ref1 0x01000000 = .ok (.nop) := by decide
theorem test_decode_halt : decode Profile.ref1 0x02000000 = .ok (.halt) := by decide
theorem test_decode_syscall : decode Profile.ref1 0x03000000 = .ok (.syscall) := by decide
theorem test_decode_brk : decode Profile.ref1 0x04000000 = .ok (.brk) := by decide
theorem test_decode_eret : decode Profile.ref1 0x05000000 = .ok (.eret) := by decide
theorem test_decode_mfc : decode Profile.ref1 0x06100006 = .ok (.mfc 1 .evec) := by decide
theorem test_decode_mtc : decode Profile.ref1 0x07020006 = .ok (.mtc .evec 2) := by decide

/-- The reserved words of 95_test_vectors.md section 3. -/
theorem test_decode_reserved :
    decode Profile.ref1 0x00000000 = .error .opcode ∧ decode Profile.ref1 0xFFFFFFFF = .error .opcode ∧
    decode Profile.ref1 0x24110040 = .error .mustBeZero ∧ decode Profile.ref1 0x10111001 = .error .mustBeZero ∧
    decode Profile.ref1 0x10400000 = .error .register ∧ decode Profile.ref1 0x07010001 = .error .controlReg ∧
    decode Profile.ref1 0x06100007 = .error .controlReg ∧ decode Profile.ref1 0x01000001 = .error .mustBeZero ∧
    decode Profile.ref1 0x4A1FFFFE = .error .mustBeZero := by decide

/-- The XLEN gate of 95_test_vectors.md section 3. -/
theorem test_decode_gate :
    decode ref32 0x36210000 = .error .xlenGate ∧ decode ref32 0x35210000 = .error .xlenGate ∧
    decode ref32 0x3B210000 = .error .xlenGate := by decide

/-- A word as the opcode table numbers its bits, laid out little-endian. -/
theorem test_decodeTableWord : decodeTableWord 32 0x10312000 = some (.add 3 1 2) := by decide

/-- The host's word runs as the very next step from reset: ADDI r0, r0, 1 gives x0 = 1. -/
theorem test_withFetchWord :
    (match step (State.reset.withFetchWord 32 0x20000001) with
      | .next t => some (t.readReg 0, t.pc, t.cycles)
      | _ => none) = some (1, 0x10000004, 1) := by decide

/-! ### One step per vector -/

/-- A machine in a burst at 0x1000_0010 with registers x0 to x3, and the RAM bytes of 95_test_vectors.md section 4. -/
def at10 (x0 x1 x2 x3 : Word) : State :=
  { State.reset with
    regs  := #v[x0, x1, x2, x3, 0, 0, 0, 0, 0, 0, 0, 0, 0, 0, 0, 0]
    pc    := 0x10000010
    phase := .inBurst
    mem   := [(0x10, 0x80), (0x20, 0x34), (0x21, 0x82), (0x40, 0x01), (0x43, 0x80), (0x80, 1), (0x81, 2), (0x82, 3),
              (0x83, 4), (0x84, 5), (0x85, 6), (0x86, 7), (0x87, 8)] }

/-- The step that fetches the word w at pc. -/
def stepWith (s : State) (w : BitVec 32) : Result :=
  step { s with mem := s.mem.writeBytes s.pc.toNat (wordBytes w) }

/-- A field of the next state. -/
def seen {α : Type} (r : Result) (f : State → α) : Option α :=
  match r with
  | .next t => some (f t)
  | _ => none

/-- A register and pc after. -/
def regPc (r : Reg) (t : State) : Word × Addr := (t.readReg r, t.pc)

/-- The trap's record after: pc, EPC, CAUSE.CODE, BADADDR, STATUS. -/
def trapSeen (t : State) : Addr × Addr × Cause × Word × Word :=
  (t.pc, t.epc, t.causeCode, t.badaddr, statusWord t.status)

theorem test_add : seen (stepWith (at10 7 0xFFFFFFFFFFFFFFFF 1 7) 0x10312000) (regPc 3) =
    some (0, 0x10000014) := by decide
theorem test_sub : seen (stepWith (at10 7 0 1 7) 0x11312000) (regPc 3) =
    some (0xFFFFFFFFFFFFFFFF, 0x10000014) := by decide
theorem test_and : seen (stepWith (at10 7 0xF0F0 0xFF00 7) 0x12312000) (regPc 3) =
    some (0xF000, 0x10000014) := by decide
theorem test_or : seen (stepWith (at10 7 0xF0F0 0x0F00 7) 0x13312000) (regPc 3) =
    some (0xFFF0, 0x10000014) := by decide
theorem test_xor : seen (stepWith (at10 7 7 7 0x1234) 0x14333000) (regPc 3) =
    some (0, 0x10000014) := by decide
theorem test_sll : seen (stepWith (at10 7 1 63 7) 0x15312000) (regPc 3) =
    some (0x8000000000000000, 0x10000014) := by decide
theorem test_sll_masked : seen (stepWith (at10 7 1 64 7) 0x15312000) (regPc 3) =
    some (1, 0x10000014) := by decide
theorem test_srl : seen (stepWith (at10 7 0x8000000000000000 63 7) 0x16312000) (regPc 3) =
    some (1, 0x10000014) := by decide
theorem test_sra : seen (stepWith (at10 7 0xFFFFFFFFFFFFFFF9 1 7) 0x17312000) (regPc 3) =
    some (0xFFFFFFFFFFFFFFFC, 0x10000014) := by decide
theorem test_sra_min : seen (stepWith (at10 7 0x8000000000000000 63 7) 0x17312000) (regPc 3) =
    some (0xFFFFFFFFFFFFFFFF, 0x10000014) := by decide
theorem test_slt : seen (stepWith (at10 7 0xFFFFFFFFFFFFFFFF 0 7) 0x18312000) (regPc 3) =
    some (1, 0x10000014) := by decide
theorem test_sltu : seen (stepWith (at10 7 0xFFFFFFFFFFFFFFFF 0 7) 0x19312000) (regPc 3) =
    some (0, 0x10000014) := by decide
theorem test_mul : seen (stepWith (at10 7 0xFFFFFFFFFFFFFFFF 2 7) 0x1A312000) (regPc 3) =
    some (0xFFFFFFFFFFFFFFFE, 0x10000014) := by decide
theorem test_div : seen (stepWith (at10 7 0xFFFFFFFFFFFFFFF9 2 7) 0x1B312000) (regPc 3) =
    some (0xFFFFFFFFFFFFFFFD, 0x10000014) := by decide
theorem test_div_overflow : seen (stepWith (at10 7 0x8000000000000000 0xFFFFFFFFFFFFFFFF 7) 0x1B312000) (regPc 3) =
    some (0x8000000000000000, 0x10000014) := by decide
theorem test_divu : seen (stepWith (at10 7 0xFFFFFFFFFFFFFFFF 2 7) 0x1C312000) (regPc 3) =
    some (0x7FFFFFFFFFFFFFFF, 0x10000014) := by decide
theorem test_divu_zero : seen (stepWith (at10 7 5 0 7) 0x1C312000) (regPc 3) =
    some (0xFFFFFFFFFFFFFFFF, 0x10000014) := by decide
theorem test_rem : seen (stepWith (at10 7 0xFFFFFFFFFFFFFFF9 2 7) 0x1D312000) (regPc 3) =
    some (0xFFFFFFFFFFFFFFFF, 0x10000014) := by decide
theorem test_rem_overflow : seen (stepWith (at10 7 0x8000000000000000 0xFFFFFFFFFFFFFFFF 7) 0x1D312000) (regPc 3) =
    some (0, 0x10000014) := by decide
theorem test_remu : seen (stepWith (at10 7 0xFFFFFFFFFFFFFFFF 10 7) 0x1E312000) (regPc 3) =
    some (5, 0x10000014) := by decide
theorem test_remu_zero : seen (stepWith (at10 7 5 0 7) 0x1E312000) (regPc 3) =
    some (5, 0x10000014) := by decide
theorem test_addi : seen (stepWith (at10 7 0 7 7) 0x2011FFFF) (regPc 1) =
    some (0xFFFFFFFFFFFFFFFF, 0x10000014) := by decide
theorem test_andi : seen (stepWith (at10 7 0xFFFFFFFFFFFFFFFF 7 7) 0x212100FF) (regPc 2) =
    some (0xFF, 0x10000014) := by decide
theorem test_ori : seen (stepWith (at10 7 0x10000000 7 7) 0x22110040) (regPc 1) =
    some (0x10000040, 0x10000014) := by decide
theorem test_xori : seen (stepWith (at10 7 0xFF 7 7) 0x2311FFFF) (regPc 1) =
    some (0xFF00, 0x10000014) := by decide
theorem test_slli : seen (stepWith (at10 7 3 7 7) 0x24110004) (regPc 1) =
    some (0x30, 0x10000014) := by decide
theorem test_srli : seen (stepWith (at10 7 0xFFFFFFFFFFFFFFFF 7 7) 0x2511003C) (regPc 1) =
    some (0xF, 0x10000014) := by decide
theorem test_srai : seen (stepWith (at10 7 0xFFFFFFFFFFFFFF00 7 7) 0x26110004) (regPc 1) =
    some (0xFFFFFFFFFFFFFFF0, 0x10000014) := by decide
theorem test_slti : seen (stepWith (at10 7 0xFFFFFFFFFFFFFFFE 7 7) 0x2721FFFF) (regPc 2) =
    some (1, 0x10000014) := by decide
theorem test_sltiu : seen (stepWith (at10 7 0 7 7) 0x28210001) (regPc 2) =
    some (1, 0x10000014) := by decide
theorem test_sltiu_max : seen (stepWith (at10 7 0xFFFFFFFFFFFFFFFF 7 7) 0x2821FFFF) (regPc 2) =
    some (0, 0x10000014) := by decide
theorem test_lui : seen (stepWith (at10 7 7 7 7) 0x29208000) (regPc 2) =
    some (0xFFFFFFFF80000000, 0x10000014) := by decide
theorem test_lb : seen (stepWith (at10 7 0x10 7 7) 0x30210000) (regPc 2) =
    some (0xFFFFFFFFFFFFFF80, 0x10000014) := by decide
theorem test_lbu : seen (stepWith (at10 7 0x10 7 7) 0x31210000) (regPc 2) =
    some (0x80, 0x10000014) := by decide
theorem test_lh : seen (stepWith (at10 7 0x20 7 7) 0x32210000) (regPc 2) =
    some (0xFFFFFFFFFFFF8234, 0x10000014) := by decide
theorem test_lhu : seen (stepWith (at10 7 0x20 7 7) 0x33210000) (regPc 2) =
    some (0x8234, 0x10000014) := by decide
theorem test_lw : seen (stepWith (at10 7 0x40 7 7) 0x34210000) (regPc 2) =
    some (0xFFFFFFFF80000001, 0x10000014) := by decide
theorem test_lw_wraps : seen (stepWith (at10 7 0x100000000 7 7) 0x34210010) (regPc 2) =
    some (0x80, 0x10000014) := by decide
theorem test_lwu : seen (stepWith (at10 7 0x40 7 7) 0x35210000) (regPc 2) =
    some (0x80000001, 0x10000014) := by decide
theorem test_ld : seen (stepWith (at10 7 0x80 7 7) 0x36210000) (regPc 2) =
    some (0x0807060504030201, 0x10000014) := by decide

/-- LH at 0x21: LOAD_MISALIGNED with EA in BADADDR, x2 kept. -/
theorem test_lh_misaligned : seen (stepWith (at10 7 0x20 7 7) 0x32210001) (fun t => (trapSeen t, t.readReg 2)) =
    some ((0x10000100, 0x10000010, .loadMisaligned, 0x21, 2), 7) := by decide
/-- LD of the Timer: the device refuses width 8. -/
theorem test_ld_device : seen (stepWith (at10 7 0x20000000 7 7) 0x36210000) trapSeen =
    some (0x10000100, 0x10000010, .loadBus, 0x20000000, 2) := by decide
/-- LW one past RAM: unmapped. -/
theorem test_lwu_unmapped : seen (stepWith (at10 7 0x10000 7 7) 0x35210000) trapSeen =
    some (0x10000100, 0x10000010, .loadBus, 0x10000, 2) := by decide
theorem test_sb : seen (stepWith (at10 7 0x10 0x1234 7) 0x38210000) (fun t => (t.mem.read 0x10, t.mem.read 0x11, t.pc)) =
    some (0x34, 0, 0x10000014) := by decide
theorem test_sh_misaligned : seen (stepWith (at10 7 0x20 0x1234 7) 0x39210001) (fun t => (trapSeen t, t.mem.read 0x21)) =
    some ((0x10000100, 0x10000010, .storeMisaligned, 0x21, 2), 0x82) := by decide
/-- R120's example. -/
theorem test_sh : seen (stepWith (at10 7 0x20 0x1234 7) 0x39210000) (fun t => t.mem.readBytes 0x20 3) =
    some [0x34, 0x12, 0] := by decide
theorem test_sw : seen (stepWith (at10 7 0 0x11223344 7) 0x3A210100) (fun t => t.mem.readBytes 0xFF 6) =
    some [0, 0x44, 0x33, 0x22, 0x11, 0] := by decide
theorem test_sw_rom : seen (stepWith (at10 7 0x10000000 5 7) 0x3A210000) trapSeen =
    some (0x10000100, 0x10000010, .storeBus, 0x10000000, 2) := by decide
theorem test_sd : seen (stepWith (at10 7 0x80 0x0807060504030201 7) 0x3B210000) (fun t => t.mem.readBytes 0x80 8) =
    some [1, 2, 3, 4, 5, 6, 7, 8] := by decide

theorem test_beq : seen (stepWith (at10 7 5 5 7) 0x40120003) (fun t => t.pc) = some 0x1000001C := by decide
theorem test_beq_not : seen (stepWith (at10 7 5 6 7) 0x40120003) (fun t => t.pc) = some 0x10000014 := by decide
theorem test_bne : seen (stepWith (at10 0 1 7 7) 0x4110FFFF) (fun t => t.pc) = some 0x1000000C := by decide
theorem test_blt : seen (stepWith (at10 7 0xFFFFFFFFFFFFFFFF 0 7) 0x42120002) (fun t => t.pc) = some 0x10000018 := by decide
theorem test_bge : seen (stepWith (at10 7 0xFFFFFFFFFFFFFFFF 0 7) 0x43120002) (fun t => t.pc) = some 0x10000014 := by decide
theorem test_bltu : seen (stepWith (at10 7 0xFFFFFFFFFFFFFFFF 0 7) 0x44120002) (fun t => t.pc) = some 0x10000014 := by decide
theorem test_bgeu : seen (stepWith (at10 7 0xFFFFFFFFFFFFFFFF 0 7) 0x4512FFFC) (fun t => t.pc) = some 0x10000000 := by decide
theorem test_j : seen (stepWith (at10 7 7 7 7) 0x4A0FFFFE) (fun t => t.pc) = some 0x10000008 := by decide
theorem test_jr : seen (stepWith (at10 7 7 7 0x10000014) 0x4B030000) (fun t => t.pc) = some 0x10000014 := by decide
theorem test_jal : seen (stepWith (at10 7 7 7 7) 0x48300004) (regPc 3) = some (0x10000014, 0x10000020) := by decide
theorem test_jalr : seen (stepWith (at10 7 7 0x10000100 7) 0x49320004) (regPc 3) = some (0x10000014, 0x10000104) := by decide
/-- rd = rs1 jumps to the old x2. -/
theorem test_jalr_same : seen (stepWith (at10 7 7 0x10000040 7) 0x49220000) (regPc 2) = some (0x10000014, 0x10000040) := by
  decide
theorem test_nop : seen (stepWith (at10 7 7 7 7) 0x01000000) (fun t => (t.pc, t.cycles)) = some (0x10000014, 1) := by decide
theorem test_halt : seen (stepWith (at10 7 7 7 7) 0x02000000) (fun t => (t.pc, t.run, t.cycles)) =
    some (0x10000010, .halted .haltInstr, 1) := by decide

/-- A machine with STATUS as given. -/
def withStatus (s : State) (v : Word) : State := { s with status := statusOfWord v }

/-- A machine whose Timer has STAT.CMP = 1 and CTRL = 3, so that line 0 is high. -/
def lineHigh (s : State) : State := { s with devs := [.timer ⟨0, 0, 3, 1, 0⟩] }

theorem test_syscall : seen (stepWith (withStatus (at10 7 7 7 7) 1) 0x03000000) trapSeen =
    some (0x10000100, 0x10000010, .syscall, 0, 6) := by decide
/-- SYSCALL at EXL = 1 halts with Fatal and keeps pc, EPC, CAUSE and STATUS. -/
theorem test_syscall_fatal : seen (stepWith (withStatus (at10 7 7 7 7) 6) 0x03000000) (fun t => (t.run, trapSeen t)) =
    some (.halted (.fatal .syscall 0x10000010 0), (0x10000010, 0, .interrupt, 0, 6)) := by decide
theorem test_break : seen (stepWith (at10 7 7 7 7) 0x04000000) trapSeen =
    some (0x10000100, 0x10000010, .brk, 0, 2) := by decide
theorem test_eret : seen (stepWith { withStatus (at10 7 7 7 7) 6 with epc := 0x10000014 } 0x05000000)
    (fun t => (t.pc, statusWord t.status)) = some (0x10000014, 5) := by decide
theorem test_mfc_cycle : seen (stepWith { at10 7 7 7 7 with cycles := 1234, frame := 1 } 0x06100004)
    (fun t => (t.readReg 1, t.cycles)) = some (1234, 1235) := by decide
theorem test_mfc_cause : seen (stepWith (lineHigh { at10 7 7 7 7 with causeCode := .syscall }) 0x06100001) (regPc 1) =
    some (0x108, 0x10000014) := by decide
theorem test_mtc_evec : seen (stepWith (at10 7 7 0x10000043 7) 0x07020006) (fun t => (t.evec, t.pc)) =
    some (0x10000040, 0x10000014) := by decide
/-- MTC STATUS takes the pending interrupt in the same step. -/
theorem test_mtc_status : seen (stepWith (lineHigh (at10 7 7 0x101 7)) 0x07020000) trapSeen =
    some (0x10000100, 0x10000014, .interrupt, 0, 0x106) := by decide

/-! ### Traps, interrupts, the Timer and the scheduler (95_test_vectors.md section 7) -/

theorem test_fetch_misaligned : seen (step { at10 7 7 7 7 with pc := 0x10000012 }) trapSeen =
    some (0x10000100, 0x10000012, .fetchMisaligned, 0x10000012, 2) := by decide
theorem test_fetch_device : seen (step { at10 7 7 7 7 with pc := 0x20000000 }) trapSeen =
    some (0x10000100, 0x20000000, .fetchBus, 0x20000000, 2) := by decide
theorem test_fetch_past_rom : seen (step { at10 7 7 7 7 with pc := 0x10001000 }) trapSeen =
    some (0x10000100, 0x10001000, .fetchBus, 0x10001000, 2) := by decide
theorem test_reserved_word : seen (stepWith (at10 7 7 7 7) 0x10400000) trapSeen =
    some (0x10000100, 0x10000010, .reservedInstruction, 0x10400000, 2) := by decide
theorem test_interrupt : seen (stepWith (lineHigh (withStatus (at10 0 7 7 7) 0x101)) 0x20000001)
    (fun t => (t.readReg 0, trapSeen t)) = some (1, (0x10000100, 0x10000014, .interrupt, 0, 0x106)) := by decide
/-- SYSCALL comes before the pending interrupt, which stays pending. -/
theorem test_syscall_first : seen (stepWith (lineHigh (withStatus (at10 7 7 7 7) 0x101)) 0x03000000)
    (fun t => (trapSeen t, t.ip)) = some ((0x10000100, 0x10000010, .syscall, 0, 0x106), 1) := by decide
theorem test_interrupt_masked : seen (stepWith (lineHigh (withStatus (at10 7 7 7 7) 1)) 0x01000000)
    (fun t => (t.pc, t.ip)) = some (0x10000014, 1) := by decide

/-- The Timer tick table. -/
theorem test_tick :
    Timer.tick ⟨0, 500, 1, 0, 0⟩ 1000 = ⟨1000, 500, 1, 3, 1⟩ ∧ Timer.tick ⟨0, 0, 1, 0, 0⟩ 1000 = ⟨1000, 0, 1, 2, 1⟩ ∧
    Timer.tick ⟨0, 1000, 1, 0, 0⟩ 1000 = ⟨1000, 1000, 1, 3, 1⟩ ∧
    Timer.tick ⟨0, 1001, 1, 0, 0⟩ 1000 = ⟨1000, 1001, 1, 2, 1⟩ ∧
    Timer.tick ⟨1000, 500, 1, 0, 0⟩ 0 = ⟨1000, 500, 1, 2, 1⟩ ∧
    Timer.tick ⟨0xFFFFFFF0, 5, 1, 0, 0⟩ 0x20 = ⟨0x100000010, 5, 1, 3, 1⟩ ∧
    Timer.tick ⟨0, 500, 0, 0, 0⟩ 1000 = ⟨1000, 500, 0, 2, 1⟩ := by decide
/-- STAT is write-1-to-clear, and only v[1:0] counts. -/
theorem test_stat_clear : Timer.write ⟨0, 0, 0, 3, 0⟩ 0x10 .b4 0x101 = some ⟨0, 0, 0, 2, 0⟩ := by decide
/-- A halted CPU idles to the target (HALT reached at cycle 32). -/
theorem test_idle : seen (step { at10 7 7 7 7 with run := .halted .haltInstr, cycles := 32 }) (fun t => t.cycles) =
    some 1000 := by decide
/-- The patch table of section 9, by validity. -/
theorem test_patch_valid :
    patchValid Profile.ref1 ⟨.memory 0x10, 0x55, 0⟩ = true ∧ patchValid Profile.ref1 ⟨.memory 0x10, 0x100, 0⟩ = false ∧
    patchValid Profile.ref1 ⟨.memory 0x10000000, 1, 0⟩ = false ∧
    patchValid Profile.ref1 ⟨.memory 0x20000000, 1, 0⟩ = false ∧
    patchValid Profile.ref1 ⟨.memory 0x30000000, 1, 0⟩ = false ∧ patchValid Profile.ref1 ⟨.register 3, 7, 0⟩ = true ∧
    patchValid Profile.ref1 ⟨.register 4, 1, 0⟩ = false ∧
    patchValid Profile.ref1 ⟨.register 64, 0x10000000, 0⟩ = true ∧
    patchValid Profile.ref1 ⟨.register 64, 0x100000000, 0⟩ = false ∧
    patchValid Profile.ref1 ⟨.register 5, 0, 0⟩ = false := by decide
/-- The last of two patches to x1 wins, and the one of cycle 3000 waits. -/
theorem test_patch_order :
    let s := { at10 7 7 7 7 with cycles := 1000, queue := [⟨.register 1, 7, 0⟩, ⟨.register 1, 9, 0⟩, ⟨.register 0, 0, 3000⟩] }
    (s.applyEligible.readReg 1, s.applyEligible.readReg 0, s.applyEligible.queue) =
      (9, 7, [⟨.register 0, 0, 3000⟩]) := by decide

/-! ### Assembler text and pseudo-instructions (R79 to R81) -/

theorem test_text : (Instr.add 1 2 3).text = "ADD r1, r2, r3" ∧ (Instr.addi 1 1 (-1)).text = "ADDI r1, r1, -1" ∧
    (Instr.sw 1 2 8).text = "SW r1, 8(r2)" ∧ (Instr.j (-2)).text = "J -2" ∧ (Instr.jr 3 0).text = "JR 0(r3)" ∧
    (Instr.mtc .evec 2).text = "MTC EVEC, r2" := by decide
/-- A backward label of one instruction, and one out of range. -/
theorem test_label : labelField 16 0x1000000C 0x10000010 = some 0xFFFF ∧ labelField 16 0x20000 0 = none ∧
    labelField 16 0x1FFFC 0 = some 0x7FFF ∧ labelField 16 2 0 = none := by decide
/-- LI r1, 0x80000001 gives the sign-extended immediate. -/
theorem test_li : (Pseudo.li 1 0x80000001).expand = [.lui 1 0x8000, .ori 1 1 1] ∧
    seen (exec (.lui 1 0x8000) (at10 7 7 7 7)) (fun t => seen (exec (.ori 1 1 1) t) (fun u => u.readReg 1)) =
      some (some 0xFFFFFFFF80000001) := by decide

/-! ### Witnesses: a state and operands that meet the hypotheses of each statement, and of each of its clauses -/

/-- A machine of REF-1 with something in it: a register, a RAM byte, a Timer event. -/
def demo : State := { at10 1 2 3 4 with devs := [.timer ⟨5, 9, 3, 1, 0⟩], cStart := 5, cycles := 6 }

/-- Tolerant alignment. -/
def tolerant (s : State) : State := { s with profile := { s.profile with align := .tolerant } }

/-- REF-1's 16-byte sibling: one RAM range, a ROM of one word, the Timer. -/
def mini : Profile :=
  { Profile.ref1 with
    nregs     := 2
    ranges    := [⟨0, 16, .ram⟩, ⟨0x1000, 4, .rom⟩, ⟨0x2000, 0x20, .device 0⟩]
    cpf       := 3
    evecReset := 0x1000
    resetPc   := 0x1000
    romBase   := 0x1000
    romSizes  := [4]
    devices   := [⟨.timer, 0x2000, 0x20, 0, 0⟩] }

/-- The constructed machine of `mini` over NOP. -/
def miniReset : State := resetState mini (wordBytes 0x01000000)

/-- A machine of `mini` at a boundary after some work. -/
def miniDemo : State :=
  { miniReset with
    regs := #v[3, 0xFFFFFFFFFFFFFFFF, 0, 0, 0, 0, 0, 0, 0, 0, 0, 0, 0, 0, 0, 0]
    mem := [(2, 5), (0x1003, 1)], cycles := 3, frame := 1, devs := [.timer ⟨3, 0, 1, 2, 1⟩], stopReq := true }

theorem witness_constructs : State.construct mini (wordBytes 0x01000000) = .ok miniReset := by decide

theorem witness_mini_registers : miniDemo.registersFit := by unfold State.registersFit; decide
theorem witness_mini_control : miniDemo.controlFits := by unfold State.controlFits; decide

/-- A legal machine at a boundary, with an empty queue. -/
theorem witness_Inv : miniDemo.Inv where
  profileLegal    := by decide
  registersFit    := witness_mini_registers
  controlFits     := witness_mini_control
  vectorAligned   := by unfold State.vectorAligned; decide
  memoryCanonical := by unfold State.memoryCanonical; decide
  memoryMapped    := by unfold State.memoryMapped inMemory; decide
  devicesFit      := .cons rfl .nil
  queueValid      := by unfold State.queueValid; decide
  frameBounded    := by intro h; cases h

theorem witness_DecodeOfEncode : (Instr.jal 3 (-4)).wellFormed Profile.ref1 = true := by decide
theorem witness_EncodeOfDecode : decode Profile.ref1 0x0703FFFF = .error .controlReg ∧
    decode Profile.ref1 0x07030005 = .ok (.mtc .scratch 3) := by decide
theorem witness_XlenGate : ref32.xlen = .x32 ∧ opField 0x3B000000 = 0x3B ∧ Profile.ref1.xlen = .x64 ∧
    1 ≤ Profile.ref1.nregs ∧ ¬ reservedOpcode 0x4B ∧ ¬ reservedOpcode 0x01 := by unfold reservedOpcode; decide
/-- Both sides of ReservedOpcodes and ZeroFieldCheck occur, at the ends of the ranges. -/
theorem witness_ReservedOpcodes : reservedOpcode 0x08 ∧ reservedOpcode 0x0F ∧ reservedOpcode 0x4C ∧ reservedOpcode 0xFF ∧
    ¬ reservedOpcode 0x07 ∧ ¬ reservedOpcode 0x10 := by simp [reservedOpcode]
theorem witness_ZeroFieldCheck : ¬ reservedOpcode (opField 0x24110040) ∧ ¬ zeroFieldsOk 0x24110040 ∧
    zeroFieldsOk 0x2411003F ∧ decode Profile.ref1 0x24110040 = .error .mustBeZero := by
  unfold reservedOpcode zeroFieldsOk; decide
theorem witness_ShiftImmediateResults : opField 0x24110040 = 0x24 ∧ (0x24110040 : BitVec 32).extractLsb' 6 10 ≠ 0 ∧
    opField 0x26000020 = 0x26 ∧ ref32.xlen.bits ≤ ((0x26000020 : BitVec 32).extractLsb' 0 6).toNat := by decide
theorem witness_SignedDivisionResults : demo.sval 2 ≠ 0 ∧ State.reset.sval 2 = 0 := by decide

/-- Loads: misaligned; unmapped; the last RAM word; a Timer register; a Timer access it refuses. -/
theorem witness_LoadOutcomes_misaligned : ¬ alignedFor demo.profile (effAddr demo.profile 0x20 1).toNat 2 := by
  unfold alignedFor; decide
theorem witness_LoadOutcomes_unmapped : alignedFor demo.profile 0x10000 4 ∧
    ¬ insideRange demo.profile (fun _ => True) 0x10000 4 := by
  refine ⟨by unfold alignedFor; decide, ?_⟩
  rintro ⟨r, h, _⟩
  exact absurd h (by decide +revert)
theorem witness_LoadOutcomes_memory : memoryAccess demo.profile 0xFFF8 8 :=
  ⟨by unfold alignedFor; decide, _, rfl, .inl rfl, by decide⟩
theorem witness_LoadOutcomes_rom : memoryAccess demo.profile 0x10000FFC 4 :=
  ⟨by unfold alignedFor; decide, _, rfl, .inr rfl, by decide⟩
theorem witness_LoadOutcomes_device : deviceAccess demo.profile 0x20000010 4 0 0x20000000 ∧
    demo.devs[0]? = some (.timer ⟨5, 9, 3, 1, 0⟩) ∧
    (DevState.timer ⟨5, 9, 3, 1, 0⟩).read 0x10 .b4 = some (1, .timer ⟨5, 9, 3, 1, 0⟩) ∧
    deviceAccess demo.profile 0x20000010 8 0 0x20000000 ∧ (DevState.timer ⟨5, 9, 3, 1, 0⟩).read 0x10 .b8 = none :=
  ⟨⟨by unfold alignedFor; decide, _, rfl, rfl, rfl, by decide⟩, rfl, by decide,
    ⟨by unfold alignedFor; decide, _, rfl, rfl, rfl, by decide⟩, by decide⟩
theorem witness_LoadOutcomes_widths : demo.profile.xlen = .x64 ∧ { demo with profile := ref32 }.profile.xlen = .x32 := by
  decide

theorem witness_StoreOutcomes : demo.memoryCanonical ∧ ramAccess demo.profile 0xFFF8 8 ∧
    ¬ alignedFor demo.profile 0x21 2 ∧
    (DevState.timer ⟨5, 9, 3, 1, 0⟩).write 8 .b4 7 = some (.timer ⟨5, 7, 3, 1, 0⟩) ∧
    (DevState.timer ⟨5, 9, 3, 1, 0⟩).write 8 .b2 7 = none ∧ deviceAccess demo.profile 0x20000008 4 0 0x20000000 :=
  ⟨by unfold State.memoryCanonical; decide, ⟨by unfold alignedFor; decide, _, rfl, rfl, by decide⟩,
    by unfold alignedFor; decide, by decide, by decide, ⟨by unfold alignedFor; decide, _, rfl, rfl, rfl, by decide⟩⟩
theorem witness_StoreOutcomes_rom : alignedFor demo.profile 0x10000000 4 ∧
    ¬ insideRange demo.profile (fun k => k ≠ .rom) 0x10000000 4 := by
  refine ⟨by unfold alignedFor; decide, ?_⟩
  rintro ⟨r, h, hk, _⟩
  cases h
  exact hk rfl
/-- A misaligned RAM access under Tolerant reaches RAM. -/
theorem witness_StoreOutcomes_tolerant : ramAccess (tolerant demo).profile 0x21 4 :=
  ⟨by unfold alignedFor; decide, _, rfl, rfl, by decide⟩

theorem witness_EffectiveAddresses : addressesFit demo.profile ∧ addressesFit { ref32 with addrBits := 32 } := by
  unfold addressesFit; decide
theorem witness_BusErrorsRaise :
    (demo.memRead (effAddr demo.profile (demo.readReg 1) 1) .b2).toOption = none ∧
    demo.memRead (effAddr demo.profile (demo.readReg 1) 1) .b2 = .error .misaligned ∧
    demo.memWrite (effAddr demo.profile (demo.readReg 0) 0xFFFF) .b1 7 = .ok { demo with mem := (0, 7) :: demo.mem } ∧
    demo.memWrite (effAddr demo.profile (demo.readReg 0) 0xFFFE) .b1 7 = .error .unmapped := by decide
/-- Each of the four error kinds of a write, and the success, occurs. -/
theorem witness_BusErrorOrder :
    demo.memWrite 0x10000001 .b4 0 = .error .misaligned ∧ demo.memWrite 0x30000000 .b4 0 = .error .unmapped ∧
    demo.memWrite 0x10000000 .b4 0 = .error .readOnly ∧ demo.memWrite 0x20000000 .b8 0 = .error .device ∧
    demo.memRead 0x20000000 .b8 = .error .device ∧ demo.memRead 0x2000001E .b4 = .error .misaligned ∧
    (tolerant demo).memRead 0x2000001E .b4 = .error .unmapped := by decide
theorem witness_ReadAfterWrite : demo.memoryCanonical ∧ ramAccess demo.profile 0xFFFC (widthBytes .b4) :=
  ⟨by unfold State.memoryCanonical; decide, ⟨by unfold alignedFor; decide, _, rfl, rfl, by decide⟩⟩
theorem witness_FetchSeesStore : demo.memoryCanonical ∧ (0x100 : Addr).toNat % 4 = 0 ∧ ramAccess demo.profile 0x100 4 :=
  ⟨by unfold State.memoryCanonical; decide, by decide, ⟨by unfold alignedFor; decide, _, rfl, rfl, by decide⟩⟩

theorem witness_BranchOutcomes : addressesFit demo.profile ∧ demo.uval 1 ≠ demo.uval 2 ∧ demo.uval 1 = demo.uval 1 ∧
    demo.sval 1 < demo.sval 2 := by unfold addressesFit; decide
theorem witness_JumpOutcomes : addressesFit ({ demo with profile := ref32 } : State).profile := by
  unfold addressesFit; decide
theorem witness_RelativeTargetsAligned : demo.pc.toNat % 4 = 0 ∧ 2 ≤ demo.profile.addrBits ∧ addressesFit demo.profile ∧
    classOf (.bgeu 1 2 0x8000) = .branch ∧ (∃ rd imm, Instr.jal 3 0x80000 = .jal rd imm) ∧
    (∃ imm, Instr.j 0x7FFFF = .j imm) :=
  ⟨by decide, by decide, by unfold addressesFit; decide, rfl, ⟨_, _, rfl⟩, ⟨_, rfl⟩⟩

theorem witness_NopOutcome : opField 0x01000001 = 0x01 ∧ (0x01000001 : BitVec 32).extractLsb' 0 24 ≠ 0 := by decide
theorem witness_HaltOutcome :
    let s := { demo with run := .halted .haltInstr }
    let t := { demo with run := .halted (.fatal .syscall 0 0), cycles := 1000 }
    s.run = .halted .haltInstr ∧ s.phase = .inBurst ∧ s.cycles.toNat < s.frameTarget ∧
      t.run = .halted (.fatal .syscall 0 0) ∧ t.phase = .inBurst ∧ t.frameTarget ≤ t.cycles.toNat := by decide
theorem witness_EretOutcome :
    let s := { demo with status := ⟨false, true, true, 1⟩ }
    s.run = .running ∧ s.profile.hasVector = true ∧ s.status.pie = true ∧ s.ip &&& s.status.im ≠ 0 := by decide
theorem witness_MfcOutcome : addressesFit demo.profile ∧ demo.controlFits ∧ opField 0x06100007 = 0x06 ∧
    7 ≤ ((0x06100007 : BitVec 32).extractLsb' 0 16).toNat := by unfold addressesFit State.controlFits; decide
theorem witness_MtcOutcome : demo.run = .running ∧ opField 0x07010001 = 0x07 ∧
    (0x07010001 : BitVec 32).extractLsb' 0 16 ≠ 0#16 ∧ (0x07010001 : BitVec 32).extractLsb' 0 16 ≠ 2#16 ∧
    (0x07010001 : BitVec 32).extractLsb' 0 16 ≠ 5#16 ∧ (0x07010001 : BitVec 32).extractLsb' 0 16 ≠ 6#16 := by decide

theorem witness_TrapEntry :
    let s := { demo with status := ⟨true, true, false, 0⟩ }
    (demo.profile.hasVector = true ∧ demo.status.exl = false) ∧ (s.profile.hasVector = true ∧ s.status.exl = true) ∧
    Cause.brk ≠ .interrupt ∧
    ({ demo with profile := { demo.profile with hasVector := false } } : State).profile.hasVector = false := by decide
theorem witness_InterruptCheckRule :
    let s := { demo with status := ⟨true, false, false, 1⟩ }
    (s.profile.hasVector = true ∧ s.status.ie = true ∧ s.status.exl = false ∧
      ∃ k < 8, s.ip.getLsbD k = true ∧ s.status.im.getLsbD k = true) ∧
    demo.status.ie = false ∧ demo.run = .running ∧
    ({ demo with run := .halted .haltInstr } : State).run = .halted .haltInstr := by
  exact ⟨⟨by decide, by decide, by decide, 0, by decide, by decide, by decide⟩, by decide, by decide, by decide⟩
theorem witness_SynchronousFirst : Cause.syscall ≠ .interrupt := by decide
theorem witness_InterruptLines : (0 : Nat) < 8 ∧ demo.ip.getLsbD 0 = true ∧ State.reset.ip.getLsbD 0 = false := by decide

/-- A machine about to run the NOP at its pc in a burst. -/
def miniBurst : State := { miniReset with phase := .inBurst }

theorem witness_cpuIsNext : miniBurst.cpuIsNext := by unfold State.cpuIsNext; decide
theorem witness_StepRunsDecoded : miniBurst.cpuIsNext ∧ miniBurst.pc.toNat % 4 = 0 ∧
    fetchable miniBurst.profile miniBurst.pc.toNat ∧ decode miniBurst.profile (miniBurst.wordAt miniBurst.pc.toNat) = .ok .nop :=
  ⟨witness_cpuIsNext, by decide, ⟨_, rfl, .inr rfl, by decide⟩, by decide⟩
/-- An odd pc; a pc in the Timer's range; a reserved word in RAM. -/
theorem witness_StepTrapsAtFetch :
    { miniBurst with pc := 0x1001 }.pc.toNat % 4 ≠ 0 ∧
    ({ miniBurst with pc := 0x2000 }.pc.toNat % 4 = 0 ∧ ¬ fetchable mini 0x2000) ∧
    ({ miniBurst with pc := 0xC }.pc.toNat % 4 = 0 ∧ fetchable mini 0xC ∧
      decode mini ({ miniBurst with pc := 0xC }.wordAt 0xC) = .error .opcode) := by
  refine ⟨by decide, ⟨by decide, ?_⟩, by decide, ⟨_, rfl, .inl rfl, by decide⟩, by decide⟩
  rintro ⟨r, h, hk, _⟩
  cases h
  rcases hk with hk | hk <;> cases hk
/-- Instructions outside each exception of the frame. -/
theorem witness_InstructionFrame : destOf (.add 1 2 3) ≠ some 2 ∧ classOf (.add 1 2 3) ≠ .store ∧
    classOf (.add 1 2 3) ≠ .load ∧ Instr.nop ≠ .halt ∧ Instr.nop ≠ .eret ∧ ¬ mayRaise .nop ∧
    (∀ cr, ¬ writesControl cr .nop) ∧ ¬ mayRaise .eret ∧ (∀ cr, ¬ writesControl cr .eret) ∧
    ¬ mayRaise (.mtc .epc 0) ∧ ¬ writesControl .scratch (.mtc .epc 0) := by
  refine ⟨by decide, by decide, by decide, by decide, by decide, ?_, ?_, ?_, ?_, ?_, ?_⟩
  · rintro (h | h | h | h) <;> cases h
  · rintro _ ⟨_, h⟩; cases h
  · rintro (h | h | h | h) <;> cases h
  · rintro _ ⟨_, h⟩; cases h
  · rintro (h | h | h | h) <;> cases h
  · rintro ⟨_, h⟩; cases h
/-- The bytes just below and just above a store; a store to ROM; an access that reaches no device. -/
theorem witness_InstructionFrame_access : accessOf (.sw 2 1 8) = some (.b4, 1, 8) ∧
    (effAddr demo.profile (demo.readReg 1) 8).toNat = 10 ∧ (9 < 10 ∨ 10 + widthBytes .b4 ≤ 9) ∧
    (14 < 10 ∨ 10 + widthBytes .b4 ≤ 14) ∧ ¬ ramAccess demo.profile 0x10000000 4 ∧
    (∀ start, ¬ deviceAccess demo.profile 0x10000000 4 0 start) := by
  refine ⟨by decide, by decide, by decide, by decide, ?_, ?_⟩
  · rintro ⟨_, r, h, hk, _⟩; cases h; cases hk
  · rintro _ ⟨_, r, h, hk, _⟩; cases h; cases hk

theorem witness_TimerRegisterMap : (DevState.timer ⟨5, 9, 3, 1, 0⟩).read 0x1C .b4 = some (0, .timer ⟨5, 9, 3, 1, 0⟩) ∧
    (0x1C : Nat) < 0x20 ∧ Timer.read ⟨5, 9, 3, 1, 0⟩ 0x1C .b4 = some 0 ∧ Timer.write ⟨5, 9, 3, 1, 0⟩ 0x1C .b4 1 = some ⟨5, 9, 3, 1, 0⟩ := by decide

theorem witness_TimerSerialization : mini.devices[0]? = some ⟨.timer, 0x2000, 0x20, 0, 0⟩ ∧
    (⟨.timer, 0x2000, 0x20, 0, 0⟩ : DeviceDecl).kind = .timer ∧
    DevState.deserialize ⟨.timer, 0x2000, 0x20, 0, 0⟩ (Timer.serialize ⟨5, 9, 3, 1, 0⟩) = some (.timer ⟨5, 9, 3, 1, 0⟩) := by
  decide

theorem witness_SchedulerSteps :
    miniDemo.phase = .boundary ∧ miniDemo.frameTarget < 2 ^ 64 ∧
    (let s := { miniDemo with frame := 0xFFFFFFFFFFFFFFFF }; s.phase = .boundary ∧ 2 ^ 64 ≤ s.frameTarget) ∧
    (let s := { miniBurst with cycles := 3 }; s.phase = .inBurst ∧ s.frameTarget ≤ s.cycles.toNat ∧ s.captureReq = false) ∧
    (let s := { miniBurst with cycles := 3, captureReq := true }; s.phase = .inBurst ∧ s.captureReq = true) := by decide

/-- A cost can wrap the counter (R155): from cycle 600 a NOP of cost 2^64 - 500 leaves cycle 100 of the frame with target
1000, so the frame has not returned (R161). -/
theorem test_burst_goes_on :
    let p := { mini with cpf := 1000, costs := { mini.costs with system := 0xFFFFFFFFFFFFFE0C } }
    let s := { miniReset with profile := p, cycles := 600 }
    seen (s.runFrame 1) (fun t => (t.cycles, t.phase, t.frame)) = some (100, .inBurst, 0) := by decide

/-- A boundary whose cycles are at its frame's target: the burst executes no step. -/
def miniLate : State := { miniDemo with cycles := 6 }

/-- Its frame returns, watched for no iteration. -/
theorem witness_frameReturns : miniLate.phase = .boundary ∧
    ∃ t, miniLate.runFrame 0 = .next t ∧ t.phase = .boundary :=
  ⟨rfl, _, rfl, (endFrame_fields _).2.2.2.2.2.2.2.2.2.2.2.1⟩
/-- A frame below its target has not, watched for no iteration. -/
theorem witness_frameGoesOn : miniDemo.runFrame 0 = .next miniDemo.beginFrame ∧ miniDemo.beginFrame.phase = .inBurst :=
  ⟨rfl, rfl⟩
theorem witness_FrameReachesTarget : miniDemo.phase = .boundary ∧ 1 ≤ miniDemo.profile.cpf ∧ costsLegal miniDemo.profile ∧
    miniDemo.frameTarget + maxCost miniDemo.profile ≤ 2 ^ 64 ∧ miniDemo.cycles.toNat < miniDemo.frameTarget ∧
    miniDemo.frameTarget ≤ miniDemo.cycles.toNat + 3 ∧ miniLate.frameTarget ≤ miniLate.cycles.toNat + 0 ∧
    miniLate.frameTarget ≤ miniLate.cycles.toNat :=
  ⟨by decide, by decide, ⟨by decide, fun c => by cases c <;> decide⟩, by decide, by decide, by decide, by decide, by decide⟩
theorem witness_RunFrameIsItsSteps : State.reset.phase = .boundary := by decide
theorem witness_TimersCountEveryCycle : miniDemo.timersInStep ∧ step miniDemo = .next miniDemo.beginFrame := by
  refine ⟨?_, rfl⟩
  intro d hd t ht
  simp only [miniDemo, List.mem_singleton] at hd
  subst hd
  cases ht
  decide

theorem witness_InvKeptByStep : miniDemo.Inv ∧ step miniDemo = .next miniDemo.beginFrame := ⟨witness_Inv, rfl⟩
theorem witness_InvAtConstruction : State.construct mini (wordBytes 0x01000000) = .ok miniReset := witness_constructs
/-- A profile and an image that meet R8 and the legal values of R6. -/
theorem witness_LegalProfile : LegalProfile mini (wordBytes 0x01000000) where
  apart        := (noOverlap_iff _ (by decide)).mp (by decide)
  inside       := by decide
  oneRom       := by decide
  romStart     := by decide
  romSize      := by decide
  deviceRanges := fun n d h => by
    cases n with
    | zero => cases h; decide
    | succ n => cases h
  rangeDevices := fun r hr n h => by
    have hn : r = ⟨0x2000, 0x20, .device 0⟩ := by
      revert h
      revert r
      simp [mini]
    subst hn
    cases h
    exact ⟨_, rfl, rfl, rfl⟩
  irqLines     := by decide
  regions      := by rintro g (h | h) <;> cases h
  addrBits     := by decide
  nregs        := by decide
  noFp         := by decide
  cycles       := ⟨by decide, by decide, fun c => by cases c <;> decide⟩
  aligned      := by decide
  addresses    := by decide
theorem witness_InvKeptByHostCalls : miniDemo.Inv := witness_Inv
theorem witness_RomNeverChanges : miniDemo.Inv ∧ step miniDemo = .next miniDemo.beginFrame ∧
    (⟨0x1000, 4, .rom⟩ : Range) ∈ miniDemo.profile.ranges ∧ (0x1000 : Nat) ≤ 0x1003 ∧ 0x1003 < 0x1000 + 4 :=
  ⟨witness_Inv, rfl, by decide, by decide, by decide⟩
theorem witness_HaltedIsTerminal :
    let s := { miniDemo with run := .halted .haltInstr }
    s.run = .halted .haltInstr ∧ step s = .next s.beginFrame ∧ (∀ b, HostCall.requestStop ≠ .restore b) :=
  ⟨rfl, rfl, fun _ => by simp⟩
/-- Each alternative of StepAndHostCallOutcomes occurs: a step; a refused step; a call out of phase; a frame refused, not
returned, returned with a stop, and returned without one. -/
theorem witness_StepAndHostCallOutcomes :
    step { miniDemo with frame := 0xFFFFFFFFFFFFFFFF } = .refused .counterOverflow ∧
    step miniDemo = .next miniDemo.beginFrame ∧ miniBurst.phase = .inBurst ∧ miniDemo.phase = .boundary ∧
    (let s := { miniDemo with frame := 0xFFFFFFFFFFFFFFFF }; s.phase = .boundary ∧ s.hostCall (.runFrame ⟨true, true⟩ 0) = (.refused .counterOverflow [], s)) ∧
    (∃ t, miniDemo.hostCall (.runFrame ⟨false, false⟩ 0) = (.running [], t)) := by
  refine ⟨rfl, rfl, rfl, rfl, ⟨rfl, rfl⟩, _, rfl⟩
/-- RunFrame at the target returns at once, with the stop that was requested before or meanwhile. -/
theorem frameCall_of_late {s : State} (q : Requests) (hp : s.phase = .boundary) (h1 : s.frameTarget < 2 ^ 64)
    (h2 : s.frameTarget ≤ s.cycles.toNat) :
    ∃ rep t, s.hostCall (.runFrame q 0) = (.returned [rep], t) ∧ rep.stopped = (s.stopReq || q.stop) ∧ rep.status = s.run := by
  rcases runFrame_cases 0 (s := s.arrive q) hp with ⟨h, _⟩ | ⟨_, u, hb, _, e⟩
  · rw [arrive_frameTarget] at h
    omega
  · simp only [State.burst] at hb
    cases hb
    have hT : ¬ (s.arrive q).beginFrame.cycles.toNat < (s.arrive q).beginFrame.frameTarget :=
      not_lt.mpr h2
    obtain ⟨rep, hr, hs, ht, _⟩ := endFrame_report (s.arrive q).beginFrame
    have hf := (endFrame_fields (s.arrive q).beginFrame).2.2.2.2.2.2.2.2.2.2.2.1
    refine ⟨rep, (s.arrive q).beginFrame.endFrame, ?_, hs, ht⟩
    simp only [State.hostCall, State.runFrameCall, e, State.afterBurst, if_neg hT, hf, hr]
    rfl
theorem witness_runUntilStop_returns : miniLate.phase = .boundary ∧
    ∃ rep t, miniLate.hostCall (.runFrame ⟨false, false⟩ 0) = (.returned [rep], t) ∧ endsRun rep := by
  obtain ⟨rep, t, h, hs, _⟩ := frameCall_of_late (s := miniLate) ⟨false, false⟩ rfl (by decide) (by decide)
  exact ⟨rfl, rep, t, h, .inl hs⟩
theorem witness_runUntilStop_goes_on :
    let s := { miniReset with cycles := 3 }
    s.phase = .boundary ∧ ∃ rep t, s.hostCall (.runFrame ⟨false, true⟩ 0) = (.returned [rep], t) ∧ ¬ endsRun rep := by
  obtain ⟨rep, t, h, hs, ht⟩ :=
    frameCall_of_late (s := { miniReset with cycles := 3 }) ⟨false, true⟩ rfl (by decide) (by decide)
  refine ⟨rfl, rep, t, h, ?_⟩
  rintro (h' | h')
  · rw [hs] at h'
    cases h'
  · exact h' ht
/-- An output region of three bytes. -/
theorem witness_outputViews :
    let s := { miniDemo with profile := { mini with fbRegion := some ⟨1, 3⟩ } }
    s.hostCall .outputViews = (.views (some [0, 5, 0]) none, s) := rfl
theorem witness_ResetValues : State.construct mini (wordBytes 0x01000000) = .ok miniReset ∧
    (⟨0, 16, .ram⟩ : Range) ∈ miniReset.profile.ranges ∧ (wordBytes 0x01000000)[3]? = some 1 ∧
    mini.devices[0]? = some ⟨.timer, 0x2000, 0x20, 0, 0⟩ ∧ (⟨.timer, 0x2000, 0x20, 0, 0⟩ : DeviceDecl).kind = .timer ∧
    ({ mini with devices := [⟨.video, 0x2000, 0x20, 0, 0⟩] } : Profile).devices[0]? = some ⟨.video, 0x2000, 0x20, 0, 0⟩ ∧
    (⟨.video, 0x2000, 0x20, 0, 0⟩ : DeviceDecl).kind ≠ .timer :=
  ⟨witness_constructs, by decide, by decide, by decide, by decide, by decide, by decide⟩
/-- A profile for each of R8's ten reasons, at the edge of its range, and what construction answers. -/
theorem witness_InvalidProfilesRefused :
    let rom := wordBytes 0x01000000
    State.construct { mini with ranges := ⟨0x1003, 1, .ram⟩ :: mini.ranges } rom = .error .overlap ∧
    State.construct { mini with ranges := ⟨0xFFFFFFFF, 2, .ram⟩ :: mini.ranges } rom = .error .outsideAddressSpace ∧
    State.construct { mini with romBase := 0x1004 } rom = .error .romRange ∧
    State.construct { mini with ranges := [⟨0, 16, .ram⟩, ⟨0x2000, 0x20, .device 0⟩] } rom = .error .romRange ∧
    State.construct mini [] = .error .romSize ∧
    State.construct { mini with devices := [⟨.timer, 0x2000, 0x1F, 0, 0⟩] } rom = .error .deviceRange ∧
    State.construct { mini with devices := [⟨.timer, 0x2000, 0x20, 8, 0⟩] } rom = .error .irqLine ∧
    State.construct { mini with fbRegion := some ⟨8, 9⟩ } rom = .error .region ∧
    State.construct { mini with xlen := .x32, addrBits := 33 } rom = .error .addrBits ∧
    State.construct { mini with nregs := 0 } rom = .error .nregs ∧
    State.construct { mini with nregs := 17 } rom = .error .nregs ∧
    State.construct { mini with fpCap := true } rom = .error .fpCap := by decide

theorem witness_RestoreOfCapture : miniDemo.Inv ∧ miniDemo.phase = .boundary ∧ miniDemo.queue = [] ∧
    (∀ d ∈ miniDemo.devs, d.serialize.length < 2 ^ 32) ∧ (∀ r ∈ miniDemo.profile.ranges, r.length < 2 ^ 64) :=
  ⟨witness_Inv, by decide, by decide, by decide, by decide⟩
set_option maxRecDepth 20000 in
theorem witness_restore : miniReset.restore miniDemo.capture.toBlob = .ok { miniDemo with stopReq := false } := by decide
set_option maxRecDepth 20000 in
theorem witness_CaptureOfRestore : miniDemo.Inv ∧ (∀ d ∈ miniDemo.profile.devices, d.kind = .timer) ∧
    miniDemo.restore miniDemo.capture.toBlob = .ok { miniDemo with stopReq := false } :=
  ⟨witness_Inv, by decide, by decide⟩
theorem witness_RunsAfterRestoreAgree : miniDemo.Inv ∧ miniDemo.phase = .boundary ∧ miniDemo.queue = [] ∧
    (∀ d ∈ miniDemo.devs, d.serialize.length < 2 ^ 32) ∧ (∀ r ∈ miniDemo.profile.ranges, r.length < 2 ^ 64) ∧
    miniReset.profile = miniDemo.profile ∧
    miniReset.restore miniDemo.capture.toBlob = .ok { miniDemo with stopReq := false } :=
  ⟨witness_Inv, by decide, by decide, by decide, by decide, by decide, witness_restore⟩
set_option maxRecDepth 20000 in
/-- A burst; a blob of 23 bytes; a blob of another version; a blob of the right version, cut short after its header. -/
theorem witness_SnapshotErrors :
    let blob := miniDemo.capture.toBlob
    miniBurst.phase = .inBurst ∧ miniDemo.phase = .boundary ∧ (blob.take 23).length < 24 ∧
    24 ≤ (blob.set 0 2).length ∧ leNatAt (blob.set 0 2) 0 4 ≠ miniDemo.profile.snapshotVersion.toNat ∧
    24 ≤ (blob.take 24).length ∧ leNatAt (blob.take 24) 0 4 = miniDemo.profile.snapshotVersion.toNat ∧
    leNatAt (blob.take 24) 4 4 = miniDemo.profile.profileId.toNat ∧
    miniDemo.restore (blob.set 0 2) = .error .versionMismatch ∧ miniDemo.restore (blob.take 24) = .error .malformed ∧
    miniBurst.hostCapture = .error .unsafePoint := by decide
/-- That last blob fails the later checks: it has no registers. -/
theorem witness_SnapshotErrors_fails : ¬ passesChecks mini (miniDemo.capture.toBlob.take 24) := by
  rintro ⟨head, devs, mems, h, hl, _⟩
  have := congrArg List.length h
  simp only [List.length_append, List.length_take] at this
  omega
set_option maxRecDepth 20000 in
/-- A captured blob passes them. -/
theorem witness_SnapshotErrors_passes : passesChecks mini miniDemo.capture.toBlob := by
  refine ⟨miniDemo.capture.toBlob.take 128, [(miniDemo.capture.toBlob.drop 128).take 32],
    [(miniDemo.capture.toBlob.drop 160).take 32, (miniDemo.capture.toBlob.drop 192).take 20], by decide, by decide,
    ⟨by decide, by decide, by decide, by decide, by decide, by decide, by decide, by decide, by decide, by decide, by decide⟩,
    .cons ⟨by decide, _, rfl⟩ .nil, .cons (by unfold memoryRecordPasses; decide) (.cons (by unfold memoryRecordPasses; decide) .nil)⟩
/-- What Restore answers for the captured blob with one byte changed. -/
def restoreChanged (s : State) (offset : Nat) (v : Byte) : Option SnapshotError :=
  match s.restore (s.capture.toBlob.set offset v) with
  | .ok _    => none
  | .error e => some e
set_option maxRecDepth 20000 in
/-- Check 3 of R179, field by field: pc, STATUS bit 3, CODE 10, EPC, EVEC twice, run kind 3, a fatal field of a CPU that is
not fatal. STATUS bit 15 and CODE 9 pass. -/
theorem test_restore_fields :
    restoreChanged miniDemo 44 1 = some .malformed ∧ restoreChanged miniDemo 48 8 = some .malformed ∧
    restoreChanged miniDemo 56 10 = some .malformed ∧ restoreChanged miniDemo 68 1 = some .malformed ∧
    restoreChanged miniDemo 92 1 = some .malformed ∧ restoreChanged miniDemo 88 1 = some .malformed ∧
    restoreChanged miniDemo 96 3 = some .malformed ∧ restoreChanged miniDemo 120 1 = some .malformed ∧
    restoreChanged miniDemo 49 0x80 = none ∧ restoreChanged miniDemo 56 9 = none := by decide
set_option maxRecDepth 20000 in
/-- Check 3 at XLEN = 32: x1, BADADDR and SCRATCH of 2^32 or more. And a fatal code of 10; one of 9 passes. -/
theorem test_restore_registers :
    (let s := { miniDemo with profile := { mini with xlen := .x32 }, regs := Vector.replicate 16 7 };
      restoreChanged s 36 1 = some .malformed ∧ restoreChanged s 76 1 = some .malformed ∧
      restoreChanged s 84 1 = some .malformed ∧ restoreChanged s 35 1 = none) ∧
    (let s := { miniDemo with run := .halted (.fatal .syscall 4 0) };
      restoreChanged s 104 10 = some .malformed ∧ restoreChanged s 104 9 = none) := by decide
set_option maxRecDepth 20000 in
/-- Checks 4 to 6 of R179: a device length, a CTRL of 8, a range's start, a range's length, a byte too many, one too few. -/
theorem test_restore_records :
    restoreChanged miniDemo 128 27 = some .malformed ∧ restoreChanged miniDemo 144 8 = some .malformed ∧
    restoreChanged miniDemo 160 1 = some .malformed ∧ restoreChanged miniDemo 200 5 = some .malformed ∧
    miniDemo.restore (miniDemo.capture.toBlob ++ [0]) = .error .malformed ∧
    miniDemo.restore miniDemo.capture.toBlob.dropLast = .error .malformed := by decide
theorem witness_PatchValidation : patchValid mini ⟨.register 64, 0xFFFFFFFF, 0⟩ = true ∧
    patchValid mini ⟨.register 1, 0xFFFFFFFFFFFFFFFF, 0⟩ = true ∧ patchValid mini ⟨.memory 15, 255, 0⟩ = true ∧
    patchValid mini ⟨.memory 16, 255, 0⟩ = false := by decide
/-- A queue with a target written twice, pc, a byte, and one request that waits. -/
def patched : State :=
  { miniDemo with
    queue := [⟨.register 1, 7, 0⟩, ⟨.memory 2, 9, 3⟩, ⟨.register 64, 4, 0⟩, ⟨.register 1, 8, 0⟩, ⟨.register 0, 1, 4⟩] }
theorem witness_PatchApplication : patched.memoryCanonical ∧ patched.profile.nregs ≤ 16 ∧ addressesFit patched.profile ∧
    patched.queueValid ∧
    patched.queue = [⟨.register 1, 7, 0⟩, ⟨.memory 2, 9, 3⟩, ⟨.register 64, 4, 0⟩] ++
      ⟨.register 1, 8, 0⟩ :: [⟨.register 0, 1, 4⟩] ∧
    (∀ q ∈ patched.queue, q.applyAtCycle.toNat ≤ patched.cycles.toNat → q.target ≠ .memory 3) ∧
    (∀ q ∈ patched.queue, q.applyAtCycle.toNat ≤ patched.cycles.toNat → q.target ≠ .register (0 : Reg).toNat) ∧
    (∀ q ∈ ({ patched with queue := [⟨.memory 2, 9, 3⟩] } : State).queue,
      q.applyAtCycle.toNat ≤ patched.cycles.toNat → q.target ≠ .register 64) := by
  unfold State.memoryCanonical addressesFit State.queueValid; decide

end Sys2Proof.Machine
end

section
/-! Construction: when a profile is accepted (R6, R8), that an accepted one is a legal one and conversely, and that the
machine it gives is legal (R40, R170). -/

namespace Sys2Proof.Machine

/-! ### The checks of construction as one proposition -/

/-- R42's condition on a range: if its kind is Device k, it is the range of device k of the profile. -/
theorem rangeNamesDevice_iff (p : Profile) (r : Range) :
    rangeNamesDevice p r = true ↔
      ∀ n, r.kind = .device n → ∃ d, p.devices[n]? = some d ∧ d.start = r.start ∧ d.length = r.length := by
  unfold rangeNamesDevice
  cases hk : r.kind with
  | ram => simp
  | rom => simp
  | device k => cases hd : p.devices[k]? <;> simp [hd]

/-- Each instruction class has a cost of at least 1 exactly when each entry of the table is at least 1 (R6). -/
theorem costs_positive_iff (c : Costs) :
    (∀ k, 1 ≤ c.of k) ↔
      1 ≤ c.system ∧ 1 ≤ c.alu ∧ 1 ≤ c.muldiv ∧ 1 ≤ c.load ∧ 1 ≤ c.store ∧ 1 ≤ c.branch ∧ 1 ≤ c.jump :=
  ⟨fun h => ⟨h .system, h .alu, h .muldiv, h .load, h .store, h .branch, h .jump⟩, by
    rintro ⟨hsystem, halu, hmuldiv, hload, hstore, hbranch, hjump⟩ k
    cases k <;> assumption⟩

/-- What profileError checks, each check as the condition it stands for (R8, and the legal values of R6). -/
structure ProfileValid (p : Profile) : Prop where
  noOverlap    : noOverlap p.ranges = true
  inside       : ∀ r ∈ p.ranges, r.start + r.length ≤ 2 ^ p.addrBits
  oneRom       : p.ranges.countP (fun r => decide (r.kind = .rom)) = 1
  romStart     : ∀ r ∈ p.ranges, r.kind = .rom → r.start = p.romBase
  romSize      : ∀ r ∈ p.ranges, r.kind = .rom → r.length ∈ p.romSizes
  deviceRanges : ∀ (n : Nat) (d : DeviceDecl), p.devices[n]? = some d → ⟨d.start, d.length, .device n⟩ ∈ p.ranges
  rangeDevices : ∀ r ∈ p.ranges, ∀ n, r.kind = .device n →
                   ∃ d, p.devices[n]? = some d ∧ d.start = r.start ∧ d.length = r.length
  irqLines     : ∀ d ∈ p.devices, d.irqLine ≤ 7
  regions      : ∀ g, p.fbRegion = some g ∨ p.audioRegion = some g →
                   ∃ r ∈ p.ranges, r.kind = .ram ∧ r.start ≤ g.start ∧ g.start + g.length ≤ r.start + r.length
  addrBitsLe   : p.addrBits ≤ p.xlen.bits
  nregs        : 1 ≤ p.nregs ∧ p.nregs ≤ 16
  noFp         : p.fpCap = false
  legalValues  : legalValues p = true

/-- The legal values of R6 that R8 does not list (log 8), each as the condition it stands for. -/
theorem legalValues_iff (p : Profile) :
    legalValues p = true ↔
      16 ≤ p.addrBits ∧ (∀ r ∈ p.ranges, 1 ≤ r.length) ∧ (1 ≤ p.cpf ∧ 1 ≤ p.faultCost ∧ ∀ k, 1 ≤ p.costs.of k) ∧
      (p.evecReset.toNat % 4 = 0 ∧ p.resetPc.toNat % 4 = 0 ∧ p.romBase % 4 = 0) ∧
      (p.evecReset.toNat < 2 ^ p.addrBits ∧ p.resetPc.toNat < 2 ^ p.addrBits) := by
  simp only [legalValues, costs_positive_iff, Bool.and_eq_true, List.all_eq_true, decide_eq_true_eq]
  tauto

/-- Construction finds no error exactly when every check passes. -/
theorem profileError_eq_none_iff (p : Profile) : profileError p = none ↔ ProfileValid p := by
  have regions : (regionOk p p.fbRegion = true ∧ regionOk p p.audioRegion = true) ↔
      ∀ g, p.fbRegion = some g ∨ p.audioRegion = some g →
        ∃ r ∈ p.ranges, r.kind = .ram ∧ r.start ≤ g.start ∧ g.start + g.length ≤ r.start + r.length := by
    simp only [regionOk_iff, or_imp, forall_and]
  have devices := deviceRangesOk_iff p p.devices 0
  simp only [Nat.zero_add] at devices
  simp only [profileError, ite_eq_iff, reduceCtorEq, and_false, false_or, and_true, not_or, Bool.not_eq_true',
    Bool.not_eq_false, Bool.not_eq_true, not_not, ne_eq, not_lt, List.all_eq_true, decide_eq_true_eq,
    List.contains_iff_mem, rangeNamesDevice_iff, regions, devices]
  constructor
  · rintro ⟨noOverlap, inside, ⟨oneRom, romStart⟩, romSize, ⟨deviceRanges, rangeDevices⟩, irqLines, regions,
      addrBitsLe, nregs, noFp, legalValues⟩
    constructor <;> assumption
  · intro h
    exact ⟨h.noOverlap, h.inside, ⟨h.oneRom, h.romStart⟩, h.romSize, ⟨h.deviceRanges, h.rangeDevices⟩, h.irqLines,
      h.regions, h.addrBitsLe, h.nregs, h.noFp, h.legalValues⟩

/-! ### The image's length in the ROM range (R8, R170) -/

/-- The ROM ranges of the profile with the image size are those of the profile, with that length. -/
theorem rom_mem_withRomLength {p : Profile} {n : Nat} {r : Range} (hk : r.kind = .rom) :
    r ∈ (withRomLength p n).ranges ↔ r.length = n ∧ ∃ q ∈ p.ranges, q.kind = .rom ∧ q.start = r.start := by
  simp only [withRomLength, List.mem_map]
  constructor
  · rintro ⟨q, hq, rfl⟩
    by_cases h : q.kind = .rom
    · rw [if_pos h]
      exact ⟨rfl, q, hq, h, rfl⟩
    · rw [if_neg h] at hk
      exact absurd hk h
  · rintro ⟨rfl, q, hq, h, hs⟩
    refine ⟨q, hq, ?_⟩
    rw [if_pos h, hs, h, ← hk]

/-- The image size changes no range's kind, so it keeps how many ROM ranges there are. -/
theorem countP_rom_withRomLength (p : Profile) (n : Nat) :
    (withRomLength p n).ranges.countP (fun r => decide (r.kind = .rom)) =
      p.ranges.countP (fun r => decide (r.kind = .rom)) := by
  rw [withRomLength, List.countP_map]
  congr 1
  funext r
  simp only [Function.comp_apply]
  split <;> rfl

/-- A valid profile has a ROM range. -/
theorem ProfileValid.exists_rom {p : Profile} (h : ProfileValid p) : ∃ r ∈ p.ranges, r.kind = .rom := by
  have hpos : 0 < p.ranges.countP (fun r => decide (r.kind = .rom)) := by rw [h.oneRom]; norm_num
  simpa using List.countP_pos_iff.mp hpos

/-- The checks pass on the profile with the image's length exactly when the profile and the image are legal. -/
theorem profileValid_iff_legalProfile (p : Profile) (rom : List Byte) :
    ProfileValid (withRomLength p rom.length) ↔ LegalProfile p rom := by
  have hdevice : ∀ (r : Range) (k : Nat), r.kind = .device k →
      (r ∈ (withRomLength p rom.length).ranges ↔ r ∈ p.ranges) := fun r k hk => mem_withRomLength (by simp [hk])
  have hram : ∀ r : Range, r.kind = .ram → (r ∈ (withRomLength p rom.length).ranges ↔ r ∈ p.ranges) :=
    fun r hk => mem_withRomLength (by simp [hk])
  constructor
  · intro h
    obtain ⟨addrBits, nonempty, cycles, aligned, addresses⟩ := (legalValues_iff _).mp h.legalValues
    exact {
      apart := (noOverlap_iff _ nonempty).mp h.noOverlap
      inside := fun r hr => ⟨nonempty r hr, h.inside r hr⟩
      oneRom := countP_rom_withRomLength p rom.length ▸ h.oneRom
      romStart := fun r hr hk =>
        h.romStart ⟨r.start, rom.length, .rom⟩ ((rom_mem_withRomLength rfl).mpr ⟨rfl, r, hr, hk, rfl⟩) rfl
      romSize := by
        obtain ⟨r, hr, hk⟩ := h.exists_rom
        have hlen := ((rom_mem_withRomLength hk).mp hr).1
        exact hlen ▸ h.romSize r hr hk
      deviceRanges := fun n d hd => (hdevice _ n rfl).mp (h.deviceRanges n d hd)
      rangeDevices := fun r hr n hk => h.rangeDevices r ((hdevice r n hk).mpr hr) n hk
      irqLines := h.irqLines
      regions := fun g hg => by
        obtain ⟨r, hr, hk, hin⟩ := h.regions g hg
        exact ⟨r, (hram r hk).mp hr, hk, hin⟩
      addrBits := ⟨addrBits, h.addrBitsLe⟩
      nregs := h.nregs
      noFp := h.noFp
      cycles := cycles
      aligned := aligned
      addresses := addresses }
  · intro h
    have nonempty : ∀ r ∈ (withRomLength p rom.length).ranges, 1 ≤ r.length := fun r hr => (h.inside r hr).1
    exact {
      noOverlap := (noOverlap_iff _ nonempty).mpr h.apart
      inside := fun r hr => (h.inside r hr).2
      oneRom := (countP_rom_withRomLength p rom.length).trans h.oneRom
      romStart := fun r hr hk => by
        obtain ⟨-, q, hq, hqk, hstart⟩ := (rom_mem_withRomLength hk).mp hr
        exact hstart.symm.trans (h.romStart q hq hqk)
      romSize := fun r hr hk => ((rom_mem_withRomLength hk).mp hr).1.symm ▸ h.romSize
      deviceRanges := fun n d hd => (hdevice _ n rfl).mpr (h.deviceRanges n d hd)
      rangeDevices := fun r hr n hk => h.rangeDevices r ((hdevice r n hk).mp hr) n hk
      irqLines := h.irqLines
      regions := fun g hg => by
        obtain ⟨r, hr, hk, hin⟩ := h.regions g hg
        exact ⟨r, (hram r hk).mpr hr, hk, hin⟩
      addrBitsLe := h.addrBits.2
      nregs := h.nregs
      noFp := h.noFp
      legalValues := (legalValues_iff _).mpr ⟨h.addrBits.1, nonempty, h.cycles, h.aligned, h.addresses⟩ }

/-! ### What construction answers -/

/-- Construction answers the reset state of every legal profile and image, and no other machine. -/
theorem construct_eq_ok_iff (p : Profile) (rom : List Byte) (s : State) :
    State.construct p rom = .ok s ↔ LegalProfile p rom ∧ s = resetState (withRomLength p rom.length) rom := by
  rw [← profileValid_iff_legalProfile, ← profileError_eq_none_iff, State.construct]
  cases profileError (withRomLength p rom.length) with
  | none => simp [eq_comm]
  | some e => simp

/-- Construction answers a ProfileError whenever the profile and the image are not legal. -/
theorem construct_error_of_not_legalProfile {p : Profile} {rom : List Byte} (h : ¬ LegalProfile p rom) :
    ∃ e, State.construct p rom = .error e := by
  cases hc : State.construct p rom with
  | error e => exact ⟨e, rfl⟩
  | ok s => exact absurd ((construct_eq_ok_iff p rom s).mp hc).1 h

/-! ### The reset state is legal (R40) -/

/-- A declared device's reset state is one it can be in (R58, R156). -/
theorem fits_reset (d : DeviceDecl) : DevState.fits d (DevState.reset d) = true := by
  unfold DevState.fits DevState.reset
  cases d.kind <;> simp [OpaqueHandler.reset_legal]

/-- The ROM range of the profile with the image size holds the whole image and nothing else (R55). -/
theorem LegalProfile.rom_range {p : Profile} {rom : List Byte} (h : LegalProfile p rom) {r : Range}
    (hr : r ∈ (withRomLength p rom.length).ranges) (hk : r.kind = .rom) :
    r.start = p.romBase ∧ r.length = rom.length :=
  ⟨((profileValid_iff_legalProfile p rom).mpr h).romStart r hr hk, ((rom_mem_withRomLength hk).mp hr).1⟩

/-- Every address of the image lies in memory (R55, R170). -/
theorem LegalProfile.image_inMemory {p : Profile} {rom : List Byte} (h : LegalProfile p rom) {a : Nat}
    (ha : p.romBase ≤ a ∧ a < p.romBase + rom.length) : inMemory (withRomLength p rom.length) a := by
  obtain ⟨r, hr, hk⟩ := ((profileValid_iff_legalProfile p rom).mpr h).exists_rom
  obtain ⟨hstart, hlen⟩ := h.rom_range hr hk
  exact ⟨r, hr, .inr hk, by omega, by omega⟩

/-- The machine in the reset state of a legal profile and image is legal (R40, R170). -/
theorem LegalProfile.resetState_inv {p : Profile} {rom : List Byte} (h : LegalProfile p rom) :
    (resetState (withRomLength p rom.length) rom).Inv where
  profileLegal    := (profileError_eq_none_iff _).mpr ((profileValid_iff_legalProfile p rom).mpr h)
  registersFit    := fun i => by simp [resetState, State.reset]
  controlFits     := by
    obtain ⟨hevec, hpc⟩ := h.addresses
    exact ⟨hpc, Nat.two_pow_pos _, hevec, Nat.two_pow_pos _, Nat.two_pow_pos _⟩
  vectorAligned   := h.aligned.1
  memoryCanonical := wf_writeBytes wf_nil p.romBase rom
  memoryMapped    := fun c hc => (mem_writeBytes hc).elim (fun hnil => absurd hnil List.not_mem_nil) h.image_inMemory
  devicesFit      := List.forall₂_map_right_iff.mpr (List.forall₂_same.mpr fun d _ => fits_reset d)
  queueValid      := fun r hr => absurd hr List.not_mem_nil
  frameBounded    := nofun

/-! ### The obligations -/

/-- Settles O48: a constructed machine is the reset state of a legal profile, and that state is legal. -/
theorem invAtConstruction : Obligations.InvAtConstruction := by
  intro p rom s hs
  obtain ⟨hlegal, rfl⟩ := (construct_eq_ok_iff p rom s).mp hs
  exact ⟨hlegal.resetState_inv, hlegal⟩

/-- Settles O54: each of R8's reasons contradicts one field of LegalProfile, and construction answers a machine exactly
for the legal profiles. -/
theorem invalidProfilesRefused : Obligations.InvalidProfilesRefused := by
  refine ⟨?reasons, ?romLength, fun p rom hlegal => ⟨_, (construct_eq_ok_iff p rom _).mpr ⟨hlegal, rfl⟩⟩⟩
  case reasons =>
    intro p rom q hreason
    refine construct_error_of_not_legalProfile fun h => ?_
    rcases hreason with ⟨j, k, r1, r2, a, hjk, hj, hk, hshared⟩ | ⟨r, hr, hout⟩ | hcount | ⟨r, hr, hk, hstart⟩ | hsize |
      ⟨n, d, hd, hrange⟩ | ⟨d, hd, hirq⟩ | ⟨g, hg, hout⟩ | haddr | hfew | hmany | hfp
    · exact h.apart j k r1 r2 a hjk hj hk hshared
    · exact absurd (h.inside r hr).2 (Nat.not_le.mpr hout)
    · exact hcount h.oneRom
    · exact hstart (h.romStart r hr hk)
    · exact hsize h.romSize
    · exact hrange (h.deviceRanges n d hd)
    · exact absurd (h.irqLines d hd) (Nat.not_le.mpr hirq)
    · exact hout (h.regions g hg)
    · exact absurd h.addrBits.2 (Nat.not_le.mpr haddr)
    · exact absurd h.nregs.1 (Nat.not_le.mpr hfew)
    · exact absurd h.nregs.2 (Nat.not_le.mpr hmany)
    · exact absurd h.noFp (by simp [hfp])
  case romLength =>
    intro p rom s hs r hr hk
    obtain ⟨hlegal, rfl⟩ := (construct_eq_ok_iff p rom s).mp hs
    exact hlegal.rom_range hr hk

end Sys2Proof.Machine
end

section
/-! The whole-machine frame: what each instruction may write, over all 53 instructions (R18, R39, R53, R82, R109, R111,
R123, R136, R141, R143). -/

namespace Sys2Proof.Machine

/-! ### What a bus access leaves -/

/-- An access that passes the checks and finds a device reaches that device (R52, R53). -/
theorem deviceAccess_of_busCheck {p : Profile} {a : Addr} {w : Width} {r : Range} {d : Nat}
    (h : busCheck p a w = .ok r) (hk : r.kind = .device d) : deviceAccess p a (widthBytes w) d r.start := by
  obtain ⟨haligned, hfind, hinside⟩ := busCheck_ok.mp h
  exact ⟨fun hs => by_contra fun hm => haligned ⟨hs, hm⟩, r, hfind, hk, rfl, hinside⟩

/-- An access that passes the checks and finds RAM reaches RAM (R53). -/
theorem ramAccess_of_busCheck {p : Profile} {a : Addr} {w : Width} {r : Range}
    (h : busCheck p a w = .ok r) (hk : r.kind = .ram) : ramAccess p a (widthBytes w) := by
  obtain ⟨haligned, hfind, hinside⟩ := busCheck_ok.mp h
  exact ⟨fun hs => by_contra fun hm => haligned ⟨hs, hm⟩, r, hfind, hk, hinside⟩

/-- No device but the one that an n-byte access at a reaches has another state in `ds` (R58). -/
def onlyDeviceAt (s : State) (a : Addr) (n : Nat) (ds : List DevState) : Prop :=
  ∀ d, (∀ start, ¬ deviceAccess s.profile a n d start) → ds[d]? = s.devs[d]?

/-- `m` is the memory but for the n bytes at a, and these differ only if a write there reaches RAM (R53). -/
def onlyBytesAt (s : State) (a : Addr) (n : Nat) (m : Memory) : Prop :=
  (∀ b, b < a.toNat ∨ a.toNat + n ≤ b → m.read b = s.mem.read b) ∧ (¬ ramAccess s.profile a n → m = s.mem)

/-- A new state of the device that an access reaches is a change of that device only. -/
theorem onlyDeviceAt_set {s : State} {a : Addr} {w : Width} {r : Range} {d : Nat} (h : busCheck s.profile a w = .ok r)
    (hk : r.kind = .device d) (st : DevState) : onlyDeviceAt s a (widthBytes w) (s.devs.set d st) := by
  intro e he
  have hne : d ≠ e := fun heq => he r.start (heq ▸ deviceAccess_of_busCheck h hk)
  exact List.getElem?_set_ne hne

/-- A read changes nothing but the state of the device it reaches (R52). -/
theorem memRead_frame {s s' : State} {a : Addr} {w : Width} {v : Word} (h : s.memRead a w = .ok (v, s')) :
    ∃ ds, s' = { s with devs := ds } ∧ onlyDeviceAt s a (widthBytes w) ds := by
  obtain ⟨r, hr, ⟨-, -, rfl⟩ | ⟨d, st, st', hk, -, -, rfl⟩⟩ := memRead_cases h
  · exact ⟨s'.devs, rfl, fun _ _ => rfl⟩
  · exact ⟨_, rfl, onlyDeviceAt_set hr hk st'⟩

/-- A write changes nothing but the bytes of the RAM, or the state of the device, that it reaches (R53). -/
theorem memWrite_frame {s s' : State} {a : Addr} {w : Width} {v : Word} (h : s.memWrite a w v = .ok s') :
    ∃ m ds, s' = { s with mem := m, devs := ds } ∧ onlyBytesAt s a (widthBytes w) m ∧
      onlyDeviceAt s a (widthBytes w) ds := by
  obtain ⟨r, hr, ⟨hk, rfl⟩ | ⟨d, st, st', hk, -, -, rfl⟩⟩ := memWrite_cases h
  · refine ⟨_, s.devs, rfl, ⟨fun b hb => ?_, fun hram => ?_⟩, fun _ _ => rfl⟩
    · exact read_writeBytes_outside s.mem (by rwa [leBytes_length])
    · exact absurd (ramAccess_of_busCheck hr hk) hram
  · exact ⟨s.mem, _, rfl, ⟨fun _ _ => rfl, fun _ => rfl⟩, onlyDeviceAt_set hr hk st'⟩

/-! ### What each instruction can do

`Effect` says what some instruction can do; here each effect names the instructions that have it. -/

/-- What the execution of the instruction i can do to a machine, by i's destination, class and access. -/
inductive InstrEffect (i : Instr) (s : State) : State → Prop where
  | register (rd : Reg) (v : Word) (a : Addr) (hd : destOf i = some rd) : InstrEffect i s ((s.writeReg rd v).jumpTo a)
  | jump (a : Addr) : InstrEffect i s (s.jumpTo a)
  | control (cr : WritableReg) (rs1 : Reg) (hi : i = .mtc cr rs1) (v : Word) :
      InstrEffect i s (s.writeControl cr v).advance
  | trapReturn (hi : i = .eret) : InstrEffect i s s.returnFromTrap
  | halted (hi : i = .halt) : InstrEffect i s (s.halt .haltInstr)
  | raised (c : Cause) (info : Word) (hi : mayRaise i) : InstrEffect i s (s.raise c info)
  | loaded (w : Width) (rd rs1 : Reg) (imm : BitVec 16) (x : Word) (ds : List DevState)
      (hd : destOf i = some rd) (hc : classOf i = .load) (ha : accessOf i = some (w, rs1, imm))
      (hds : onlyDeviceAt s (effAddr s.profile (s.readReg rs1) imm) (widthBytes w) ds) :
      InstrEffect i s (({ s with devs := ds } : State).writeReg rd x).advance
  | stored (w : Width) (rs1 : Reg) (imm : BitVec 16) (m : Memory) (ds : List DevState)
      (hc : classOf i = .store) (ha : accessOf i = some (w, rs1, imm))
      (hm : onlyBytesAt s (effAddr s.profile (s.readReg rs1) imm) (widthBytes w) m)
      (hds : onlyDeviceAt s (effAddr s.profile (s.readReg rs1) imm) (widthBytes w) ds) :
      InstrEffect i s ({ s with mem := m, devs := ds } : State).advance

/-- A load of its width at its EA writes its destination, or raises (R109, R110). -/
theorem load_instrEffect {i : Instr} {w : Width} {rd rs1 : Reg} {imm : BitVec 16} (ext : Word → Word) (s : State)
    (hd : destOf i = some rd) (hc : classOf i = .load) (ha : accessOf i = some (w, rs1, imm)) :
    ∃ t, load w ext rd rs1 imm s = .next t ∧ InstrEffect i s t := by
  rcases h : s.memRead (effAddr s.profile (s.readReg rs1) imm) w with e | ⟨v, s'⟩
  · exact ⟨_, load_of_error h, .raised _ _ (.inl hc)⟩
  · obtain ⟨ds, rfl, hds⟩ := memRead_frame h
    exact ⟨_, load_of_ok h, .loaded _ _ _ _ _ _ hd hc ha hds⟩

/-- A store of its width at its EA writes there, or raises (R109, R110). -/
theorem store_instrEffect {i : Instr} {w : Width} {rs1 : Reg} {imm : BitVec 16} (rs2 : Reg) (s : State)
    (hc : classOf i = .store) (ha : accessOf i = some (w, rs1, imm)) :
    ∃ t, store w rs2 rs1 imm s = .next t ∧ InstrEffect i s t := by
  rcases h : s.memWrite (effAddr s.profile (s.readReg rs1) imm) w (s.readReg rs2) with e | s'
  · exact ⟨_, store_of_error h, .raised _ _ (.inr (.inl hc))⟩
  · obtain ⟨m, ds, rfl, hm, hds⟩ := memWrite_frame h
    exact ⟨_, store_of_ok h, .stored _ _ _ _ _ hc ha hm hds⟩

/-- A branch only sets pc (R126). -/
theorem branch_instrEffect {i : Instr} (b : Bool) (imm : BitVec 16) (s : State) :
    ∃ t, branch b imm s = .next t ∧ InstrEffect i s t := by
  cases b
  · exact ⟨_, rfl, .jump _⟩
  · exact ⟨_, rfl, .jump _⟩

/-- Every instruction answers a next state, and its effect is one of those above. -/
theorem exec_instrEffect (i : Instr) (s : State) : ∃ t, exec i s = .next t ∧ InstrEffect i s t := by
  cases i
  case lb | lbu | lh | lhu | lw | lwu | ld => exact load_instrEffect _ s rfl rfl rfl
  case sb | sh | sw | sd => exact store_instrEffect _ s rfl rfl
  case beq | bne | blt | bge | bltu | bgeu => exact branch_instrEffect _ _ s
  case nop | j | jr => exact ⟨_, rfl, .jump _⟩
  case halt => exact ⟨_, rfl, .halted rfl⟩
  case syscall => exact ⟨_, rfl, .raised _ _ (.inr (.inr (.inl rfl)))⟩
  case brk => exact ⟨_, rfl, .raised _ _ (.inr (.inr (.inr rfl)))⟩
  case eret => exact ⟨_, rfl, .trapReturn rfl⟩
  case mtc => exact ⟨_, rfl, .control _ _ rfl _⟩
  all_goals exact ⟨_, rfl, .register _ _ _ rfl⟩

/-! ### What each effect leaves -/

section
variable {i : Instr} {s t : State}

/-- Only the destination register is written (R18). -/
theorem InstrEffect.regs_eq (h : InstrEffect i s t) (r : Reg) (hr : destOf i ≠ some r) :
    t.regs[r.toNat] = s.regs[r.toNat] := by
  have hset : ∀ (rd : Reg) (v : Word), destOf i = some rd →
      (s.regs.set rd.toNat (fitX s.profile v) rd.isLt)[r.toNat] = s.regs[r.toNat] := fun rd v hd =>
    Vector.getElem_set_ne _ _ fun he => hr (BitVec.eq_of_toNat_eq he ▸ hd)
  cases h
  case register rd v _ hd => exact hset rd v hd
  case loaded rd _ _ x _ hd _ _ _ => exact hset rd x hd
  all_goals simp

/-- Only a store writes memory (R53). -/
theorem InstrEffect.mem_eq (h : InstrEffect i s t) (hc : classOf i ≠ .store) : t.mem = s.mem := by
  cases h
  case stored hstore _ _ _ => exact absurd hstore hc
  all_goals simp

/-- Only a load or a store changes a device (R39, R109). -/
theorem InstrEffect.devs_eq (h : InstrEffect i s t) (hl : classOf i ≠ .load) (hs : classOf i ≠ .store) :
    t.devs = s.devs := by
  cases h
  case loaded hload _ _ => exact absurd hload hl
  case stored hstore _ _ _ => exact absurd hstore hs
  all_goals simp

/-- A load or a store changes only the bytes and the device that its access at EA reaches (R53, R109). -/
theorem InstrEffect.access (h : InstrEffect i s t) {w : Width} {rs1 : Reg} {imm : BitVec 16}
    (ha : accessOf i = some (w, rs1, imm)) :
    onlyBytesAt s (effAddr s.profile (s.readReg rs1) imm) (widthBytes w) t.mem ∧
      onlyDeviceAt s (effAddr s.profile (s.readReg rs1) imm) (widthBytes w) t.devs := by
  cases h
  case loaded hload hds =>
    cases hload.symm.trans ha
    exact ⟨⟨fun _ _ => rfl, fun _ => rfl⟩, hds⟩
  case stored hstore hm hds =>
    cases hstore.symm.trans ha
    exact ⟨hm, hds⟩
  all_goals simp [onlyBytesAt, onlyDeviceAt]

/-- Only HALT and what can raise changes the run state (R21). -/
theorem InstrEffect.run_eq (h : InstrEffect i s t) (hh : i ≠ .halt) (hr : ¬ mayRaise i) : t.run = s.run := by
  cases h
  case halted hi => exact absurd hi hh
  case raised hi => exact absurd hi hr
  all_goals simp

/-- Only MTC STATUS, ERET and what can raise changes STATUS (R26, R141, R143). -/
theorem InstrEffect.status_eq (h : InstrEffect i s t) (he : i ≠ .eret) (hw : ¬ writesControl .status i)
    (hr : ¬ mayRaise i) : t.status = s.status := by
  cases h
  case control cr rs1 hi v =>
    cases cr
    case status => exact absurd ⟨rs1, hi⟩ hw
    all_goals rfl
  case trapReturn hi => exact absurd hi he
  case raised hi => exact absurd hi hr
  all_goals simp

/-- Only MTC EPC and what can raise changes EPC (R28, R143). -/
theorem InstrEffect.epc_eq (h : InstrEffect i s t) (hw : ¬ writesControl .epc i) (hr : ¬ mayRaise i) :
    t.epc = s.epc := by
  cases h
  case control cr rs1 hi v =>
    cases cr
    case epc => exact absurd ⟨rs1, hi⟩ hw
    all_goals rfl
  case raised hi => exact absurd hi hr
  all_goals simp

/-- Only what can raise changes CAUSE.CODE and BADADDR (R27, R29). -/
theorem InstrEffect.cause_eq (h : InstrEffect i s t) (hr : ¬ mayRaise i) :
    t.causeCode = s.causeCode ∧ t.badaddr = s.badaddr := by
  cases h
  case raised hi => exact absurd hi hr
  all_goals simp

/-- Only MTC SCRATCH changes SCRATCH (R31, R143). -/
theorem InstrEffect.scratch_eq (h : InstrEffect i s t) (hw : ¬ writesControl .scratch i) : t.scratch = s.scratch := by
  cases h
  case control cr rs1 hi v =>
    cases cr
    case scratch => exact absurd ⟨rs1, hi⟩ hw
    all_goals rfl
  all_goals simp

/-- Only MTC EVEC changes EVEC (R32, R143). -/
theorem InstrEffect.evec_eq (h : InstrEffect i s t) (hw : ¬ writesControl .evec i) : t.evec = s.evec := by
  cases h
  case control cr rs1 hi v =>
    cases cr
    case evec => exact absurd ⟨rs1, hi⟩ hw
    all_goals rfl
  all_goals simp

/-- No instruction changes the scheduler's state (R39). -/
theorem InstrEffect.scheduler (h : InstrEffect i s t) : sameScheduler s t := by
  cases h <;> simp [sameScheduler]

end

/-- Settles O38: by what each instruction can do, field by field. -/
theorem instructionFrame : Obligations.InstructionFrame := by
  intro i s
  obtain ⟨t, ht, h⟩ := exec_instrEffect i s
  refine ⟨t, ht, h.regs_eq, h.mem_eq, fun w rs1 imm ha => ?_, h.devs_eq, h.run_eq, h.status_eq, h.epc_eq, h.cause_eq,
    h.scratch_eq, h.evec_eq, h.scheduler⟩
  obtain ⟨⟨houtside, hram⟩, hdevs⟩ := h.access ha
  exact ⟨houtside, hram, hdevs⟩

end Sys2Proof.Machine
end

section
/-! Every step keeps the machine legal: the state operations one by one, then the instruction, the CPU step and the end of
a frame (R16, R17, R20, R32, R39, R42, R55). -/

namespace Sys2Proof.Machine

/-! ### Decoded instructions name registers that exist -/

/-- Every instruction that `x` answers uses only registers of the profile (R76 check 3). -/
def checksRegs (p : Profile) (x : Except Reserved Instr) : Prop := ∀ i, x = .ok i → ∀ r ∈ i.usedRegs, r.toNat < p.nregs

section
variable (p : Profile) (w : BitVec 32)

theorem checksRegs_error (e : Reserved) : checksRegs p (.error e) := nofun

theorem checksRegs_ok {i : Instr} (h : ∀ r ∈ i.usedRegs, regOk p r = true) : checksRegs p (.ok i) := by
  rintro _ ⟨⟩ r hr
  exact of_decide_eq_true (h r hr)

/-- A check that passes on to x, or else answers y. -/
theorem checksRegs_ite {c : Prop} [Decidable c] {x y : Except Reserved Instr} (hx : c → checksRegs p x)
    (hy : checksRegs p y) : checksRegs p (if c then x else y) := by
  split
  · exact hx ‹c›
  · exact hy

theorem decodeN_checksRegs {i : Instr} (h : i.usedRegs = []) : checksRegs p (decodeN w i) :=
  checksRegs_ite p (fun _ => checksRegs_ok p (by simp [h])) (checksRegs_error p _)

theorem decodeR_checksRegs {mk : Reg → Reg → Reg → Instr} (h : ∀ a b c, (mk a b c).usedRegs = [a, b, c]) :
    checksRegs p (decodeR p w mk) :=
  checksRegs_ite p (fun _ => checksRegs_ite p (fun hr => checksRegs_ok p (by simpa [h, and_assoc] using hr))
    (checksRegs_error p _)) (checksRegs_error p _)

theorem decodeI_checksRegs {mk : Reg → Reg → BitVec 16 → Instr} (h : ∀ a b n, (mk a b n).usedRegs = [a, b]) :
    checksRegs p (decodeI p w mk) :=
  checksRegs_ite p (fun hr => checksRegs_ok p (by simpa [h] using hr)) (checksRegs_error p _)

theorem decodeI64_checksRegs {mk : Reg → Reg → BitVec 16 → Instr} (h : ∀ a b n, (mk a b n).usedRegs = [a, b]) :
    checksRegs p (decodeI64 p w mk) :=
  checksRegs_ite p (fun hr => checksRegs_ite p (fun _ => checksRegs_ok p (by simpa [h] using hr))
    (checksRegs_error p _)) (checksRegs_error p _)

theorem decodeShift_checksRegs {mk : Reg → Reg → BitVec 6 → Instr} (h : ∀ a b n, (mk a b n).usedRegs = [a, b]) :
    checksRegs p (decodeShift p w mk) :=
  checksRegs_ite p (fun _ => checksRegs_ite p (fun hr => checksRegs_ite p
    (fun _ => checksRegs_ok p (by simpa [h] using hr)) (checksRegs_error p _)) (checksRegs_error p _))
    (checksRegs_error p _)

theorem decodeI0_checksRegs {mk : Reg → BitVec 16 → Instr} (h : ∀ a n, (mk a n).usedRegs = [a]) :
    checksRegs p (decodeI0 p w mk) :=
  checksRegs_ite p (fun _ => checksRegs_ite p (fun hr => checksRegs_ok p (by simpa [h] using hr))
    (checksRegs_error p _)) (checksRegs_error p _)

theorem decodeIJ_checksRegs {mk : Reg → BitVec 16 → Instr} (h : ∀ b n, (mk b n).usedRegs = [b]) :
    checksRegs p (decodeIJ p w mk) :=
  checksRegs_ite p (fun _ => checksRegs_ite p (fun hr => checksRegs_ok p (by simpa [h] using hr))
    (checksRegs_error p _)) (checksRegs_error p _)

theorem decodeJ_checksRegs {mk : Reg → BitVec 20 → Instr} (h : ∀ a n, (mk a n).usedRegs = [a]) :
    checksRegs p (decodeJ p w mk) :=
  checksRegs_ite p (fun hr => checksRegs_ok p (by simpa [h] using hr)) (checksRegs_error p _)

theorem decodeJ0_checksRegs {mk : BitVec 20 → Instr} (h : ∀ n, (mk n).usedRegs = []) : checksRegs p (decodeJ0 w mk) :=
  checksRegs_ite p (fun _ => checksRegs_ok p (by simp [h])) (checksRegs_error p _)

theorem decodeMfc_checksRegs : checksRegs p (decodeMfc p w) := by
  refine checksRegs_ite p (fun _ => checksRegs_ite p (fun hr => ?_) (checksRegs_error p _)) (checksRegs_error p _)
  split
  · exact checksRegs_ok p (by simpa [Instr.usedRegs] using hr)
  · exact checksRegs_error p _

theorem decodeMtc_checksRegs : checksRegs p (decodeMtc p w) := by
  refine checksRegs_ite p (fun _ => checksRegs_ite p (fun hr => ?_) (checksRegs_error p _)) (checksRegs_error p _)
  split
  · exact checksRegs_ok p (by simpa [Instr.usedRegs] using hr)
  · exact checksRegs_error p _

/-- Each opcode is decoded by its format's function, which checks the registers that the instruction uses (R75, R76). The
cases are the opcodes of R75's map in its order. -/
theorem decode_checksRegs : checksRegs p (decode p w) := by
  unfold decode decodeOp
  split
  case h_1 | h_2 | h_3 | h_4 | h_5 => exact decodeN_checksRegs p w rfl
  case h_6 => exact decodeMfc_checksRegs p w
  case h_7 => exact decodeMtc_checksRegs p w
  case h_8 | h_9 | h_10 | h_11 | h_12 | h_13 | h_14 | h_15 | h_16 | h_17 | h_18 | h_19 | h_20 | h_21 | h_22 =>
    exact decodeR_checksRegs p w fun _ _ _ => rfl
  case h_27 | h_28 | h_29 => exact decodeShift_checksRegs p w fun _ _ _ => rfl
  case h_32 => exact decodeI0_checksRegs p w fun _ _ => rfl
  case h_38 | h_39 | h_43 => exact decodeI64_checksRegs p w fun _ _ _ => rfl
  case h_50 => exact decodeJ_checksRegs p w fun _ _ => rfl
  case h_52 => exact decodeJ0_checksRegs p w fun _ => rfl
  case h_53 => exact decodeIJ_checksRegs p w fun _ _ => rfl
  case h_54 => exact checksRegs_error p _
  all_goals exact decodeI_checksRegs p w fun _ _ _ => rfl

end

/-! ### What a legal profile gives -/

section
variable {s : State}

theorem State.Inv.profileValid (h : s.Inv) : ProfileValid s.profile := (profileError_eq_none_iff _).mp h.profileLegal

/-- An address of ADDR_BITS bits fits in XLEN bits (R8). -/
theorem State.Inv.addr_fits_xlen (h : s.Inv) {n : Nat} (hn : n < 2 ^ s.profile.addrBits) : n < 2 ^ s.profile.xlen.bits :=
  lt_of_lt_of_le hn (Nat.pow_le_pow_right (by norm_num) h.profileValid.addrBitsLe)

end

/-- A 32-bit word fits in XLEN bits. -/
theorem word_fits_xlen (p : Profile) (w : BitVec 32) : (w.setWidth 64).toNat < 2 ^ p.xlen.bits := by
  have hw := w.isLt
  cases hx : p.xlen <;> simp [XLen.bits] <;> omega

/-- EVEC[1:0] are cleared (R32). -/
theorem and_not_three_mod_four (v : Word) : (v &&& ~~~3#64).toNat % 4 = 0 := by
  rw [BitVec.toNat_and, show (4 : Nat) = 2 ^ 2 from rfl, Nat.and_mod_two_pow]
  simp

/-- Clearing bits does not make a number larger. -/
theorem and_toNat_le (v m : Word) : (v &&& m).toNat ≤ v.toNat := by
  rw [BitVec.toNat_and]
  exact Nat.and_le_left

/-! ### What an accepted patch names and does (R184, R185) -/

theorem applyPatch_memory (s : State) (a value : Nat) (cycle : Counter) :
    s.applyPatch ⟨.memory a, value, cycle⟩ = { s with mem := s.mem.write a (BitVec.ofNat 8 value) } := rfl

theorem applyPatch_register (s : State) (i value : Nat) (cycle : Counter) :
    s.applyPatch ⟨.register i, value, cycle⟩ =
      if i = pcIndex then s.jumpTo (BitVec.ofNat 64 value) else s.writeReg (BitVec.ofNat 4 i) (BitVec.ofNat 64 value) :=
  rfl

/-- A byte to patch lies in RAM. -/
theorem inMemory_of_patchValid {p : Profile} {a value : Nat} {cycle : Counter}
    (hv : patchValid p ⟨.memory a, value, cycle⟩ = true) : inMemory p a := by
  simp only [patchValid, Bool.and_eq_true, decide_eq_true_eq] at hv
  obtain ⟨⟨-, hram⟩, -⟩ := hv
  obtain ⟨g, hfind, hk⟩ := Option.map_eq_some_iff.mp hram
  obtain ⟨hmem, hstart, hend⟩ := findRange_some hfind
  exact ⟨g, hmem, .inl hk, hstart, hend⟩

/-- A register to patch exists, or it is pc; the value fits it. -/
theorem register_of_patchValid {p : Profile} {i value : Nat} {cycle : Counter}
    (hv : patchValid p ⟨.register i, value, cycle⟩ = true) :
    (i < p.nregs ∧ value < 2 ^ p.xlen.bits) ∨ (i = pcIndex ∧ value < 2 ^ p.addrBits) := by
  simpa [patchValid] using hv

/-! ### Each operation on the state keeps it legal -/

/-- Replacing an element by one that stands in every relation the old one stood in. -/
theorem forall₂_set {α β : Type} {R : α → β → Prop} {l : List α} {m : List β} (h : List.Forall₂ R l m) {n : Nat}
    {x y : β} (hx : m[n]? = some x) (hxy : ∀ a, R a x → R a y) : List.Forall₂ R l (m.set n y) := by
  induction h generalizing n with
  | nil => exact .nil
  | cons hab hrest ih =>
    cases n with
    | zero =>
      cases hx
      exact .cons (hxy _ hab) hrest
    | succ n => exact .cons hab (ih hx)

namespace State.Inv
variable {s : State} (h : s.Inv)
include h

/-- A register of the profile may take any value (R17). -/
theorem writeReg {r : Reg} (hr : r.toNat < s.profile.nregs) (v : Word) : (s.writeReg r v).Inv :=
  { h with
    registersFit := fun i => by
      rw [regs_writeReg]
      split
      · rename_i hi
        exact ⟨fitX_lt _ _, fun hn => absurd hr (not_lt.mpr (hi ▸ hn))⟩
      · exact h.registersFit i }

theorem jumpTo {a : Addr} (ha : a.toNat < 2 ^ s.profile.addrBits) : (s.jumpTo a).Inv :=
  { h with controlFits := ⟨ha, h.controlFits.2⟩ }

theorem advance : s.advance.Inv := h.jumpTo (truncAddr_lt _ _)

theorem halt (r : HaltReason) : (s.halt r).Inv := { h with }

theorem addCycles (n : Nat) : (s.addCycles n).Inv := { h with }

/-- MTC narrows what it writes to the register's width, and clears EVEC[1:0] (R28, R31, R32, R143). -/
theorem writeControl (cr : WritableReg) (v : Word) : (s.writeControl cr v).Inv := by
  obtain ⟨hpc, hepc, hevec, hbad, hscratch⟩ := h.controlFits
  cases cr with
  | status => exact { h with }
  | epc => exact { h with controlFits := ⟨hpc, truncAddr_lt _ _, hevec, hbad, hscratch⟩ }
  | scratch => exact { h with controlFits := ⟨hpc, hepc, hevec, hbad, fitX_lt _ _⟩ }
  | evec =>
    exact { h with
      controlFits := ⟨hpc, hepc, lt_of_le_of_lt (and_toNat_le _ _) (truncAddr_lt _ _), hbad, hscratch⟩
      vectorAligned := and_not_three_mod_four _ }

/-- ERET sets pc to EPC, which fits ADDR_BITS bits (R141). -/
theorem returnFromTrap : s.returnFromTrap.Inv := by
  obtain ⟨-, hcontrol⟩ := h.controlFits
  exact { h with controlFits := ⟨hcontrol.1, hcontrol⟩ }

/-- Trap entry sets pc to EVEC; what it saves fits (R150). -/
theorem takeTrap (c : Cause) {epc : Addr} {info : Word} (he : epc.toNat < 2 ^ s.profile.addrBits)
    (hinfo : info.toNat < 2 ^ s.profile.xlen.bits) : (s.takeTrap c epc info).Inv := by
  obtain ⟨-, -, hevec, -, hscratch⟩ := h.controlFits
  cases hf : s.trapIsFatal c with
  | true =>
    rw [takeTrap_fatal hf]
    exact h.halt _
  | false =>
    rw [takeTrap_delivered hf]
    exact { h with controlFits := ⟨hevec, he, hevec, hinfo, hscratch⟩ }

theorem raise (c : Cause) {info : Word} (hinfo : info.toNat < 2 ^ s.profile.xlen.bits) : (s.raise c info).Inv :=
  h.takeTrap c h.controlFits.1 hinfo

theorem interruptCheck : s.interruptCheck.Inv := by
  unfold State.interruptCheck
  split
  · exact h.raise .interrupt (Nat.two_pow_pos _)
  · exact h

theorem retire (n : Nat) : (s.retire n).Inv := by
  unfold State.retire
  split
  · exact (h.addCycles n).interruptCheck
  · exact h.addCycles n

/-- A device that goes to a state it can be in (R58). -/
theorem setDevice {d : Nat} {st st' : DevState} (hd : s.devs[d]? = some st)
    (hfit : ∀ decl, DevState.fits decl st = true → DevState.fits decl st' = true) :
    ({ s with devs := s.devs.set d st' } : State).Inv :=
  { h with devicesFit := forall₂_set h.devicesFit hd hfit }

/-- Bytes written in RAM or ROM (R16, R42). -/
theorem writeBytes {a : Nat} {bs : List Byte} (hin : ∀ b, a ≤ b → b < a + bs.length → inMemory s.profile b) :
    ({ s with mem := s.mem.writeBytes a bs } : State).Inv :=
  { h with
    memoryCanonical := wf_writeBytes h.memoryCanonical a bs
    memoryMapped := fun c hc => (mem_writeBytes hc).elim (h.memoryMapped c) fun hb => hin c.1 hb.1 hb.2 }

theorem memRead {s' : State} {a : Addr} {w : Width} {v : Word} (hr : s.memRead a w = .ok (v, s')) : s'.Inv := by
  obtain ⟨r, -, ⟨-, -, rfl⟩ | ⟨d, st, st', -, hd, hread, rfl⟩⟩ := memRead_cases hr
  · exact h
  · exact h.setDevice hd fun _ hfit => fits_read hfit hread

theorem memWrite {s' : State} {a : Addr} {w : Width} {v : Word} (hw : s.memWrite a w v = .ok s') : s'.Inv := by
  obtain ⟨r, hr, ⟨hk, rfl⟩ | ⟨d, st, st', -, hd, hwrite, rfl⟩⟩ := memWrite_cases hw
  · obtain ⟨-, hfind, hfits⟩ := busCheck_ok.mp hr
    obtain ⟨hmem, hstart, -⟩ := findRange_some hfind
    refine h.writeBytes fun b hb hlt => ⟨r, hmem, .inl hk, by omega, ?_⟩
    rw [leBytes_length] at hlt
    omega
  · exact h.setDevice hd fun _ hfit => fits_write hfit hwrite

/-! ### The CPU step -/

/-- What an instruction that uses only registers of the profile does keeps the machine legal. -/
theorem effect {i : Instr} {t : State} (hi : ∀ r ∈ i.usedRegs, r.toNat < s.profile.nregs) (he : Effect i s t) :
    t.Inv := by
  cases he with
  | regAndPc rd v n hrd => exact (h.writeReg (hi rd hrd) v).jumpTo (truncAddr_lt _ _)
  | pcOnly n => exact h.jumpTo (truncAddr_lt _ _)
  | control cr v => exact (h.writeControl cr v).advance
  | trapReturn => exact h.returnFromTrap
  | halted => exact h.halt _
  | raised c n => exact h.raise c (h.addr_fits_xlen (truncAddr_lt _ _))
  | raisedZero c => exact h.raise c (Nat.two_pow_pos _)
  | loaded rd a w v x s' hrd hr =>
    obtain ⟨ds, rfl, -⟩ := memRead_frame hr
    exact ((h.memRead hr).writeReg (hi rd hrd) x).advance
  | stored a w v s' hw => exact (h.memWrite hw).advance

theorem faultStep (c : Cause) {info : Word} (hinfo : info.toNat < 2 ^ s.profile.xlen.bits) : (s.faultStep c info).Inv :=
  (h.raise c hinfo).retire _

theorem cpuStep {t : State} (ht : s.cpuStep = .next t) : t.Inv := by
  rcases cpuStep_cases s with ⟨c, -, hs⟩ | ⟨w, e, -, -, hs⟩ | ⟨w, i, u, -, hdecode, -, he, hs⟩ <;> cases hs.symm.trans ht
  · exact h.faultStep c (h.addr_fits_xlen h.controlFits.1)
  · exact h.faultStep _ (word_fits_xlen _ w)
  · exact (h.effect (decode_checksRegs _ w i hdecode) he).retire _

/-! ### The end of a frame -/

theorem accept (rs : List PatchRequest) : (s.accept rs).Inv :=
  { h with
    queueValid := fun r hr => (List.mem_append.mp hr).elim (h.queueValid r) fun hnew => (List.mem_filter.mp hnew).2 }

/-- An accepted patch writes a byte of RAM, pc, or a register of the profile (R184, R185). -/
theorem applyPatch {r : PatchRequest} (hv : patchValid s.profile r = true) : (s.applyPatch r).Inv := by
  obtain ⟨target, value, cycle⟩ := r
  cases target with
  | memory a =>
    have hbyte := inMemory_of_patchValid hv
    rw [applyPatch_memory]
    refine h.writeBytes (bs := [_]) fun b hb hlt => ?_
    rwa [show b = a by rw [List.length_singleton] at hlt; omega]
  | register i =>
    rw [applyPatch_register]
    obtain ⟨hi, -⟩ | ⟨hi, hvalue⟩ := register_of_patchValid hv
    · have hn := h.profileValid.nregs.2
      rw [if_neg (by rw [pcIndex]; omega)]
      exact h.writeReg (by rw [BitVec.toNat_ofNat]; omega) _
    · rw [if_pos hi]
      exact h.jumpTo (lt_of_le_of_lt (by rw [BitVec.toNat_ofNat]; exact Nat.mod_le _ _) hvalue)

theorem applyEligible : s.applyEligible.Inv := by
  have happlied := foldl_applyPatch_induct (P := fun t => t.Inv ∧ t.profile = s.profile)
    (s.queue.filter (patchEligible s.cycles)) s ⟨h, rfl⟩ fun t r hr ⟨hinv, hprofile⟩ =>
      ⟨hinv.applyPatch (hprofile ▸ h.queueValid r (List.mem_filter.mp hr).1),
        (congrArg State.profile (applyPatch_frame t r)).trans hprofile⟩
  exact { happlied.1 with
    queueValid := fun r hr => happlied.2 ▸ h.queueValid r (List.mem_filter.mp hr).1 }

end State.Inv

/-- The machine with its phase set to Boundary. The end of a frame sets the phase last (R162); the proof sets it first,
since in between the next frame's target is not yet known to be below 2^64. -/
def State.atBoundary (s : State) : State := { s with phase := .boundary }

/-- A patch neither reads nor writes the phase (R185). -/
theorem applyPatch_atBoundary (s : State) (r : PatchRequest) :
    s.atBoundary.applyPatch r = (s.applyPatch r).atBoundary := by
  unfold State.applyPatch
  split
  · rfl
  · split <;> rfl

/-- ApplyEligible neither reads nor writes the phase (R185). -/
theorem applyEligible_atBoundary (s : State) : s.atBoundary.applyEligible = s.applyEligible.atBoundary := by
  have hfold := List.foldl_hom (l := s.queue.filter (patchEligible s.cycles)) (init := s) State.atBoundary
    applyPatch_atBoundary
  exact congrArg (fun t : State => { t with queue := s.queue.filter fun r => !patchEligible s.cycles r }) hfold

namespace State.Inv

/-- The boundary sequence keeps the machine legal, the phase apart (R162). -/
theorem boundaryWith {s : State} (h : s.atBoundary.Inv) (rs : List PatchRequest) : (s.boundaryWith rs).Inv := by
  obtain ⟨t, rep, rfl, heq, -⟩ := boundaryWith_eq s rs
  have hpatched : (s.accept rs).atBoundary.applyEligible.Inv := (h.accept rs).applyEligible
  rw [applyEligible_atBoundary] at hpatched
  rw [heq]
  exact { hpatched with }

variable {s : State} (h : s.Inv)
include h

theorem tickFrame_atBoundary : s.tickFrame.atBoundary.Inv :=
  { h with
    devicesFit := List.forall₂_map_right_iff.mpr (h.devicesFit.imp fun _ _ => fits_tick _)
    frameBounded := nofun }

theorem endFrame : s.endFrame.Inv := h.tickFrame_atBoundary.boundaryWith _

theorem beginFrame (ht : s.frameTarget < 2 ^ 64) : s.beginFrame.Inv := { h with frameBounded := fun _ => ht }

theorem idle : s.idle.Inv := { h with }

end State.Inv

/-! ### The step -/

/-- No step changes the profile (R6). -/
theorem step_profile {s t : State} (ht : step s = .next t) : t.profile = s.profile := by
  rcases step_cases s with ⟨-, -, hs⟩ | ⟨-, -, hs⟩ | ⟨-, -, -, hs⟩ | ⟨-, -, -, hs⟩ | ⟨-, -, hs⟩ <;> rw [hs] at ht
  · cases ht
    rfl
  · cases ht
  · obtain ⟨u, hu, hsame⟩ := cpuStep_scheduler s
    cases hu.symm.trans ht
    exact hsame.1
  · cases ht
    rfl
  · cases ht
    exact (endFrame_fields s).1

/-- Every step keeps the machine legal. -/
theorem State.Inv.step {s t : State} (h : s.Inv) (ht : step s = .next t) : t.Inv := by
  rcases step_cases s with ⟨-, htarget, hs⟩ | ⟨-, -, hs⟩ | ⟨-, -, -, hs⟩ | ⟨-, -, -, hs⟩ | ⟨-, -, hs⟩ <;> rw [hs] at ht
  · cases ht
    exact h.beginFrame htarget
  · cases ht
  · exact h.cpuStep ht
  · cases ht
    exact h.idle
  · cases ht
    exact h.endFrame

/-- Settles O46: the parts of a step are operations that keep the machine legal, and none changes the profile. -/
theorem invKeptByStep : Obligations.InvKeptByStep := fun _ _ h ht => ⟨h.step ht, step_profile ht⟩

end Sys2Proof.Machine
end

section
/-! The interrupt lines (R27, R34, R159). -/

namespace Sys2Proof.Machine

/-- A device's own contribution to the lines: bit k of its level is its level if it is wired to k. -/
theorem getLsbD_deviceLevel (b : Bool) {line k : Nat} (hk : k < 8) :
    (if b then 1#8 <<< line else 0#8).getLsbD k = true ↔ line = k ∧ b = true := by
  cases b with
  | false => simp
  | true =>
    simp only [if_true, BitVec.getLsbD_shiftLeft, BitVec.getLsbD_one, Bool.and_eq_true, decide_eq_true_eq,
      Bool.not_eq_true', decide_eq_false_iff_not, and_true]
    omega

/-- Line k is the OR of the levels of the devices wired to it (R34). -/
theorem getLsbD_lineLevels {k : Nat} (hk : k < 8) (decls : List DeviceDecl) (devs : List DevState) :
    (lineLevels decls devs).getLsbD k = true ↔
      ∃ (n : Nat) (decl : DeviceDecl) (dev : DevState),
        decls[n]? = some decl ∧ devs[n]? = some dev ∧ decl.irqLine = k ∧ dev.irq = true := by
  induction decls generalizing devs with
  | nil => simp [lineLevels]
  | cons d ds ih =>
    cases devs with
    | nil => simp [lineLevels]
    | cons s ss =>
      rw [lineLevels, BitVec.getLsbD_or, Bool.or_eq_true, getLsbD_deviceLevel _ hk, ih ss]
      constructor
      · rintro (⟨hline, hirq⟩ | ⟨n, decl, dev, hrest⟩)
        · exact ⟨0, d, s, rfl, rfl, hline, hirq⟩
        · exact ⟨n + 1, decl, dev, hrest⟩
      · rintro ⟨_ | n, decl, dev, hdecl, hdev, hwired⟩
        · cases hdecl
          cases hdev
          exact .inl hwired
        · exact .inr ⟨n, decl, dev, hdecl, hdev, hwired⟩

/-- Settles O34: the lines by induction on the devices; the Timer's level is its rule. -/
theorem interruptLines : Obligations.InterruptLines := by
  refine ⟨fun s k hk => getLsbD_lineLevels hk s.profile.devices s.devs, fun t => ?_⟩
  simp [DevState.irq, Timer.irq, Timer.cmp, Timer.cmpIe, Timer.vbl, Timer.vblIe]

end Sys2Proof.Machine
end

section
/-! Nothing but Restore leaves Halted (R21, R168, R185). -/

namespace Sys2Proof.Machine

/-- One iteration of Burst's loop on a halted CPU is the idle jump (R161). -/
theorem burstStep_of_halted {s : State} {r : HaltReason} (h : s.run = .halted r) : s.burstStep = .next s.idle := by
  rw [State.burstStep, h]

/-- A step of a halted machine leaves its run state (R21). -/
theorem step_run_of_halted {s t : State} {r : HaltReason} (h : s.run = .halted r) (ht : step s = .next t) :
    t.run = .halted r := by
  rcases step_cases s with ⟨-, -, hs⟩ | ⟨-, -, hs⟩ | ⟨-, -, hrun, -⟩ | ⟨-, -, -, hs⟩ | ⟨-, -, hs⟩
  · cases hs.symm.trans ht
    exact h
  · cases hs.symm.trans ht
  · cases hrun.symm.trans h
  · cases hs.symm.trans ht
    exact h
  · cases hs.symm.trans ht
    exact (endFrame_fields s).2.1.trans h

/-- Burst's loop of a halted machine leaves its run state (R161). -/
theorem burst_run_of_halted {k : Nat} {s t : State} {r : HaltReason} (h : s.run = .halted r)
    (ht : State.burst k s = .next t) : t.run = .halted r := by
  induction k generalizing s with
  | zero =>
    cases ht
    exact h
  | succ k ih =>
    rw [State.burst, burstStep_of_halted h] at ht
    split at ht
    · exact ih (s := s.idle) h ht
    · cases ht
      exact h

/-- RunFrame of a halted machine leaves its run state, at the frame's end too (R162, R185). -/
theorem runFrame_run_of_halted {k : Nat} {s t : State} {r : HaltReason} (h : s.run = .halted r)
    (ht : s.runFrame k = .next t) : t.run = .halted r := by
  cases hp : s.phase with
  | inBurst => simp [State.runFrame, hp] at ht
  | boundary =>
    obtain ⟨-, hs⟩ | ⟨-, u, hburst, -, hs⟩ := runFrame_cases k hp
    · cases hs.symm.trans ht
    · cases hs.symm.trans ht
      have hu : u.run = .halted r := burst_run_of_halted (s := s.beginFrame) h hburst
      unfold State.afterBurst
      split
      · exact hu
      · exact (endFrame_fields u).2.1.trans hu

/-- RunFrame as a host call, with the requests that arrive meanwhile (R172). -/
theorem runFrameCall_run_of_halted {s : State} {r : HaltReason} (h : s.run = .halted r) (k : Nat) (q : Requests) :
    (s.runFrameCall k q).2.run = .halted r := by
  unfold State.runFrameCall
  cases hs : (s.arrive q).runFrame k with
  | refused => exact h
  | fault f => exact nomatch f
  | next t =>
    have ht := runFrame_run_of_halted (s := s.arrive q) h hs
    cases hp : t.phase <;> simpa [hp] using ht

/-- RunUntilStop, frame by frame (R165). -/
theorem runUntilStop_run_of_halted {s : State} {r : HaltReason} (h : s.run = .halted r) (k : Nat) (qs : List Requests) :
    (s.runUntilStop k qs).2.run = .halted r := by
  induction qs generalizing s with
  | nil => exact h
  | cons q qs ih =>
    have hcall := runFrameCall_run_of_halted h k q
    rw [State.runUntilStop]
    split
    · rename_i heq
      rw [heq] at hcall
      split
      · exact hcall
      · exact ih hcall
    · rename_i heq
      rwa [heq] at hcall

/-- Settles O51: a step and each host call in turn. -/
theorem haltedIsTerminal : Obligations.HaltedIsTerminal := by
  intro s r h
  refine ⟨fun t ht => step_run_of_halted h ht, fun c hc => ?_⟩
  cases c with
  | runFrame q k => exact runFrameCall_run_of_halted h k q
  | runUntilStop qs k =>
    rw [State.hostCall]
    split
    · exact h
    · exact runUntilStop_run_of_halted h k qs
  | requestStop => exact h
  | requestCapture => exact h
  | capture =>
    rw [State.hostCall]
    split <;> exact h
  | restore b => exact absurd rfl (hc b)
  | outputViews =>
    rw [State.hostCall]
    split <;> exact h

end Sys2Proof.Machine
end

section
/-! The reset values (R40, R170). -/

namespace Sys2Proof.Machine

/-- A fresh memory with an image at `base` holds the image's bytes and 0 elsewhere (R54, R55). -/
theorem read_image (base : Nat) (rom : List Byte) (a : Nat) :
    (Memory.writeBytes [] base rom).read a = if base ≤ a ∧ a < base + rom.length then rom.getD (a - base) 0 else 0 :=
  read_writeBytes wf_nil base rom a

/-- A RAM range of a legal profile has no address of the image (R8, R41). -/
theorem LegalProfile.ram_outside_image {p : Profile} {rom : List Byte} (h : LegalProfile p rom) {r : Range}
    (hr : r ∈ (withRomLength p rom.length).ranges) (hk : r.kind = .ram) {a : Nat} (ha : r.start ≤ a)
    (ha' : a < r.start + r.length) : ¬ (p.romBase ≤ a ∧ a < p.romBase + rom.length) := by
  rintro ⟨hge, hlt⟩
  obtain ⟨q, hq, hqk⟩ := ((profileValid_iff_legalProfile p rom).mpr h).exists_rom
  obtain ⟨hstart, hlen⟩ := h.rom_range hq hqk
  obtain ⟨j, hj⟩ := List.mem_iff_getElem?.mp hr
  obtain ⟨k, hk'⟩ := List.mem_iff_getElem?.mp hq
  have hjk : j ≠ k := by
    rintro rfl
    cases hj.symm.trans hk'
    cases hk.symm.trans hqk
  refine h.apart j k r q a hjk hj hk' ⟨?_, ?_⟩ <;>
    simp only [rangeHas, Bool.and_eq_true, decide_eq_true_eq] <;> omega

/-- A Timer's reset state has all fields 0 (R156). -/
theorem reset_timer {d : DeviceDecl} (h : d.kind = .timer) : DevState.reset d = .timer ⟨0, 0, 0, 0, 0⟩ := by
  rw [DevState.reset, h]
  rfl

/-- Every other device resets to its handler's own reset state (R61). -/
theorem reset_foreign {d : DeviceDecl} (h : d.kind ≠ .timer) :
    DevState.reset d = .foreign d.handler (Config.handler d.handler).reset := by
  unfold DevState.reset
  cases hk : d.kind with
  | timer => exact absurd hk h
  | video | audio | controller | generic => rfl

/-- Settles O53: construction answers resetState, whose fields are the table's; memory holds the image, which no RAM range
meets. -/
theorem resetValues : Obligations.ResetValues := by
  intro p rom s hs
  obtain ⟨hlegal, rfl⟩ := (construct_eq_ok_iff p rom s).mp hs
  refine ⟨?cpu, ?ram, ?image, ?devices, rfl, rfl, rfl, rfl, rfl, rfl⟩
  case cpu =>
    refine ⟨fun r => ?_, rfl, rfl, rfl, rfl, rfl, rfl, rfl, rfl, rfl⟩
    simp only [State.readReg, resetState, State.reset, Vector.getElem_replicate]
    exact fitX_of_lt (Nat.two_pow_pos _)
  case ram =>
    intro r hr hk a ha ha'
    exact (read_image p.romBase rom a).trans (if_neg (hlegal.ram_outside_image hr hk ha ha'))
  case image =>
    intro k b hb
    obtain ⟨hk, -⟩ := List.getElem?_eq_some_iff.mp hb
    refine (read_image p.romBase rom (p.romBase + k)).trans ?_
    rw [if_pos (by omega), Nat.add_sub_cancel_left, List.getD_eq_getElem?_getD, hb, Option.getD_some]
  case devices =>
    intro n d hd
    have hdev : (p.devices.map DevState.reset)[n]? = some (DevState.reset d) := by rw [List.getElem?_map, hd]; rfl
    exact ⟨fun hk => hdev.trans (congrArg some (reset_timer hk)), fun hk => hdev.trans (congrArg some (reset_foreign hk))⟩

/-! ### The reset state of REF-1 -/

/-- Zero bytes written to a fresh memory leave it empty, since an unlisted byte reads 0 (R54). -/
theorem writeBytes_zeros (a n : Nat) : Memory.writeBytes [] a (List.replicate n 0) = [] := by
  induction n generalizing a with
  | zero => rfl
  | succ n ih => exact ih (a + 1)

/-- REF-1's ROM range already has the length of a 4 KiB image. -/
theorem ref1_withRomLength : withRomLength Profile.ref1 4096 = Profile.ref1 := by decide

/-- Settles O47: REF-1 passes every check with a 4 KiB image, whose zero bytes leave memory empty. -/
theorem invAtReset : Obligations.InvAtReset := by
  have hreset : resetState Profile.ref1 (List.replicate 4096 0) = State.reset := by
    rw [resetState, writeBytes_zeros]
    rfl
  have hconstruct : State.construct Profile.ref1 (List.replicate 4096 0) = .ok State.reset := by
    rw [State.construct, List.length_replicate, ref1_withRomLength, hreset,
      show profileError Profile.ref1 = none by decide]
  exact ⟨hconstruct, (invAtConstruction _ _ _ hconstruct).1⟩

end Sys2Proof.Machine
end

section
/-! The memory bus: which error an access answers (R51), and reads and fetches after a write (R57, R68). -/

namespace Sys2Proof.Machine

/-! ### The checks, by their outcome -/

/-- The alignment test of the bus in the terms of R48. -/
theorem alignedFor_iff {p : Profile} {a n : Nat} : alignedFor p a n ↔ ¬ (p.align = .strict ∧ a % n ≠ 0) := by
  simp [alignedFor]

section
variable {p : Profile} {a : Addr} {w : Width}

/-- The checks pass, on a range of one of the given kinds, exactly when the access is aligned and inside such a range. -/
theorem busCheck_ok_kind_iff (kinds : RangeKind → Prop) :
    (∃ r, busCheck p a w = .ok r ∧ kinds r.kind) ↔
      alignedFor p a.toNat (widthBytes w) ∧ insideRange p kinds a.toNat (widthBytes w) := by
  simp only [busCheck_ok, alignedFor_iff, insideRange]
  constructor
  · rintro ⟨r, ⟨haligned, hfind, hinside⟩, hk⟩
    exact ⟨haligned, r, hfind, hk, hinside⟩
  · rintro ⟨haligned, r, hfind, hk, hinside⟩
    exact ⟨r, ⟨haligned, hfind, hinside⟩, hk⟩

/-- An access reaches a device exactly when the checks pass on the device's range (R52, R53). -/
theorem deviceAccess_iff {d start : Nat} :
    deviceAccess p a (widthBytes w) d start ↔ ∃ r, busCheck p a w = .ok r ∧ r.kind = .device d ∧ r.start = start := by
  constructor
  · rintro ⟨haligned, r, hfind, hk, hstart, hinside⟩
    exact ⟨r, busCheck_of_inside haligned hfind hinside, hk, hstart⟩
  · rintro ⟨r, hr, hk, rfl⟩
    exact deviceAccess_of_busCheck hr hk

/-- The checks answer Misaligned exactly on a misaligned access (R48, R51). -/
theorem busCheck_misaligned_iff :
    busCheck p a w = .error .misaligned ↔ ¬ alignedFor p a.toNat (widthBytes w) := by
  refine ⟨fun h haligned => ?_, busCheck_of_not_aligned⟩
  obtain ⟨-, hmisaligned⟩ | ⟨he, -⟩ := busCheck_error h
  · exact alignedFor_iff.mp haligned hmisaligned
  · cases he

/-- The checks answer Unmapped exactly on an aligned access that lies in no range (R44, R51). -/
theorem busCheck_unmapped_iff :
    busCheck p a w = .error .unmapped ↔
      alignedFor p a.toNat (widthBytes w) ∧ ¬ insideRange p (fun _ => True) a.toNat (widthBytes w) := by
  refine ⟨fun h => ?_, fun ⟨haligned, houtside⟩ => busCheck_of_outside haligned houtside⟩
  obtain ⟨he, -⟩ | ⟨-, haligned, houtside⟩ := busCheck_error h
  · cases he
  · refine ⟨alignedFor_iff.mpr haligned, ?_⟩
    rintro ⟨r, hfind, -, hinside⟩
    exact absurd hinside (not_le.mpr (houtside r hfind))

/-- The checks do not answer ReadOnly, which comes after them (R51). -/
@[simp] theorem busCheck_ne_readOnly : busCheck p a w ≠ .error .readOnly := by
  intro h
  obtain ⟨he, -⟩ | ⟨he, -⟩ := busCheck_error h <;> cases he

/-- The checks do not answer Device, which comes after them (R51). -/
@[simp] theorem busCheck_ne_device : busCheck p a w ≠ .error .device := by
  intro h
  obtain ⟨he, -⟩ | ⟨he, -⟩ := busCheck_error h <;> cases he

end

/-! ### Every error of a read and of a write -/

section
variable {s : State} {a : Addr} {w : Width} {e : BusError}

/-- A read of a device fails exactly when its handler refuses, with Device (R50, R52). -/
theorem memRead_device_error_iff {r : Range} {d : Nat} (hr : busCheck s.profile a w = .ok r) (hk : r.kind = .device d) :
    s.memRead a w = .error e ↔
      e = .device ∧ (s.devs[d]?.bind fun dev => dev.read (a.toNat - r.start) w) = none := by
  simp only [State.memRead, hr, hk]
  split
  · rename_i hd
    simp [hd]
  · rename_i hd
    simp only [hd, Except.error.injEq, and_true, eq_comm]

/-- A write of a device fails exactly when its handler refuses, with Device (R50, R53). -/
theorem memWrite_device_error_iff {r : Range} {d : Nat} {v : Word} (hr : busCheck s.profile a w = .ok r)
    (hk : r.kind = .device d) :
    s.memWrite a w v = .error e ↔
      e = .device ∧ (s.devs[d]?.bind fun dev => dev.write (a.toNat - r.start) w v) = none := by
  simp only [State.memWrite, hr, hk]
  split
  · rename_i hd
    simp [hd]
  · rename_i hd
    simp only [hd, Except.error.injEq, and_true, eq_comm]

/-- A read fails in the checks, or with Device in the handler of the device it reaches (R51, R52). -/
theorem memRead_error_iff :
    s.memRead a w = .error e ↔
      busCheck s.profile a w = .error e ∨
        e = .device ∧ ∃ d start, deviceAccess s.profile a (widthBytes w) d start ∧
          (s.devs[d]?.bind fun dev => dev.read (a.toNat - start) w) = none := by
  simp only [deviceAccess_iff (w := w)]
  cases hr : busCheck s.profile a w with
  | error e' => simp [memRead_check_error hr]
  | ok r =>
    cases hk : r.kind with
    | ram => simp [memRead_memory hr (.inl hk), hk]
    | rom => simp [memRead_memory hr (.inr hk), hk]
    | device d => simp [memRead_device_error_iff hr hk, hk]

/-- A write fails in the checks, with ReadOnly on ROM, or with Device in the handler of the device it reaches (R51, R53). -/
theorem memWrite_error_iff {v : Word} :
    s.memWrite a w v = .error e ↔
      busCheck s.profile a w = .error e ∨
        e = .readOnly ∧ (∃ r, busCheck s.profile a w = .ok r ∧ r.kind = .rom) ∨
        e = .device ∧ ∃ d start, deviceAccess s.profile a (widthBytes w) d start ∧
          (s.devs[d]?.bind fun dev => dev.write (a.toNat - start) w v) = none := by
  simp only [deviceAccess_iff (w := w)]
  cases hr : busCheck s.profile a w with
  | error e' => simp [memWrite_check_error hr]
  | ok r =>
    cases hk : r.kind with
    | ram => simp [memWrite_ram hr hk, hk]
    | rom => simp [memWrite_rom hr hk, hk, eq_comm]
    | device d => simp [memWrite_device_error_iff hr hk, hk]

end

/-- Settles O19: the errors of a write and of a read, kind by kind, each error kind being answered in one place. -/
theorem busErrorOrder : Obligations.BusErrorOrder := by
  intro s a w v n
  refine ⟨?writeMisaligned, ?writeUnmapped, ?writeReadOnly, ?writeDevice, ?readMisaligned, ?readUnmapped, ?readReadOnly,
    ?readDevice⟩
  case writeMisaligned => simp [memWrite_error_iff, busCheck_misaligned_iff, n]
  case writeUnmapped => simp [memWrite_error_iff, busCheck_unmapped_iff, n]
  case writeReadOnly =>
    rw [memWrite_error_iff, ← busCheck_ok_kind_iff]
    simp
  case writeDevice => simp [memWrite_error_iff, n]
  case readMisaligned => simp [memRead_error_iff, busCheck_misaligned_iff, n]
  case readUnmapped => simp [memRead_error_iff, busCheck_unmapped_iff, n]
  case readReadOnly => simp [memRead_error_iff]
  case readDevice => simp [memRead_error_iff, n]

/-! ### Reads after writes -/

/-- An access that reaches RAM passes the checks on a RAM range (R53). -/
theorem ramAccess_iff {p : Profile} {a : Addr} {w : Width} :
    ramAccess p a (widthBytes w) ↔ ∃ r, busCheck p a w = .ok r ∧ r.kind = .ram :=
  (busCheck_ok_kind_iff _).symm

/-- The low bytes of a word fit in a word. -/
theorem mod_widthBytes_lt (w : Width) (v : Nat) : v % 256 ^ widthBytes w < 2 ^ 64 := by
  refine lt_of_lt_of_le (Nat.mod_lt _ (by positivity)) ?_
  cases w <;> norm_num [widthBytes]

/-- Settles O20: both accesses pass the same checks on the same range, and memory gives back the bytes written. -/
theorem readAfterWrite : Obligations.ReadAfterWrite := by
  intro s a w v hwf hram
  obtain ⟨r, hr, hk⟩ := ramAccess_iff.mp hram
  refine ⟨_, _, memWrite_ram hr hk, memRead_memory hr (.inl hk), ?_⟩
  rw [readLE_writeLE hwf, BitVec.toNat_ofNat, Nat.mod_eq_of_lt (mod_widthBytes_lt w v.toNat)]

/-- A fetch at an aligned pc whose four bytes lie in RAM or ROM gives the word there (R56). -/
theorem fetch_of_findRange {s : State} {r : Range} (hpc : s.pc.toNat % 4 = 0)
    (hfind : findRange s.profile s.pc.toNat = some r) (hinside : s.pc.toNat + 4 ≤ r.start + r.length)
    (hk : r.kind = .ram ∨ r.kind = .rom) : s.fetch = .ok (BitVec.ofNat 32 (s.mem.readLE s.pc.toNat 4)) := by
  rw [State.fetch, if_neg (by omega), hfind]
  simp only
  rw [if_neg (by omega)]
  rcases hk with hk | hk <;> simp [hk]

/-- Settles O21: the fetch reads the memory that the store wrote. -/
theorem fetchSeesStore : Obligations.FetchSeesStore := by
  intro s a v hwf ha hram
  obtain ⟨r, hr, hk⟩ := (ramAccess_iff (w := .b4)).mp hram
  obtain ⟨-, hfind, hinside⟩ := busCheck_ok.mp hr
  refine ⟨_, memWrite_ram hr hk, (fetch_of_findRange ha hfind hinside (.inl hk)).trans ?_⟩
  simp only [jumpTo_mem, jumpTo_pc, widthBytes, readLE_writeLE hwf]
  congr 1
  apply BitVec.eq_of_toNat_eq
  simp

end Sys2Proof.Machine
end

section
/-! No step changes a ROM byte (R53, R55, R184): a store and a patch write only RAM, and no RAM range shares an address
with a ROM range. -/

namespace Sys2Proof.Machine

/-! ### Ranges of a valid profile -/

/-- Two ranges of a valid profile that hold one address are the same range (R41). -/
theorem ProfileValid.eq_of_rangeHas {p : Profile} (h : ProfileValid p) {r q : Range} (hr : r ∈ p.ranges)
    (hq : q ∈ p.ranges) {a : Nat} (hra : rangeHas r a = true) (hqa : rangeHas q a = true) : r = q := by
  obtain ⟨-, nonempty, -⟩ := (legalValues_iff p).mp h.legalValues
  obtain ⟨j, hj⟩ := List.mem_iff_getElem?.mp hr
  obtain ⟨k, hk⟩ := List.mem_iff_getElem?.mp hq
  by_contra hne
  have hjk : j ≠ k := by
    rintro rfl
    exact hne (Option.some.inj (hj.symm.trans hk))
  exact (noOverlap_iff _ nonempty).mp h.noOverlap j k r q a hjk hj hk ⟨hra, hqa⟩

/-- An address lies in a ROM range. -/
def inRom (p : Profile) (a : Nat) : Prop := ∃ r ∈ p.ranges, r.kind = .rom ∧ r.start ≤ a ∧ a < r.start + r.length

/-- No address of a RAM range lies in ROM (R41). -/
theorem ProfileValid.not_inRom_of_ram {p : Profile} (h : ProfileValid p) {r : Range} (hr : r ∈ p.ranges)
    (hk : r.kind = .ram) {a : Nat} (hstart : r.start ≤ a) (hend : a < r.start + r.length) : ¬ inRom p a := by
  rintro ⟨q, hq, hrom, hqstart, hqend⟩
  cases h.eq_of_rangeHas hr hq (a := a) (by simp [rangeHas, hstart, hend]) (by simp [rangeHas, hqstart, hqend])
  cases hk.symm.trans hrom

/-- A byte to patch does not lie in ROM (R184). -/
theorem ProfileValid.not_inRom_of_patchValid {p : Profile} (h : ProfileValid p) {a value : Nat} {cycle : Counter}
    (hv : patchValid p ⟨.memory a, value, cycle⟩ = true) : ¬ inRom p a := by
  simp only [patchValid, Bool.and_eq_true, decide_eq_true_eq] at hv
  obtain ⟨⟨-, hram⟩, -⟩ := hv
  obtain ⟨r, hfind, hk⟩ := Option.map_eq_some_iff.mp hram
  obtain ⟨hmem, hstart, hend⟩ := findRange_some hfind
  exact h.not_inRom_of_ram hmem hk hstart hend

/-! ### What keeps the ROM bytes -/

/-- Every byte of the ROM ranges of s reads in t as in s. -/
def romKept (s t : State) : Prop := ∀ a, inRom s.profile a → t.mem.read a = s.mem.read a

/-- What leaves memory alone keeps the ROM bytes. -/
theorem romKept_of_mem_eq {s t : State} (h : t.mem = s.mem) : romKept s t := fun a _ => by rw [h]

section
variable {s t : State} (hp : ProfileValid s.profile)
include hp

/-- A write through the bus changes only bytes of the RAM range that holds the whole access (R53). -/
theorem memWrite_romKept {a : Addr} {w : Width} {v : Word} (h : s.memWrite a w v = .ok t) : romKept s t := by
  obtain ⟨r, hr, ⟨hk, rfl⟩ | ⟨d, st, st', -, -, -, rfl⟩⟩ := memWrite_cases h
  · obtain ⟨-, hfind, hinside⟩ := busCheck_ok.mp hr
    obtain ⟨hmem, hstart, -⟩ := findRange_some hfind
    intro b hb
    refine read_writeBytes_outside s.mem ?_
    rw [leBytes_length]
    by_contra hin
    exact hp.not_inRom_of_ram hmem hk (by omega) (by omega) hb
  · exact romKept_of_mem_eq rfl

/-- Of what an instruction can do, only a store writes memory (R53). -/
theorem effect_romKept {i : Instr} (h : Effect i s t) : romKept s t := by
  cases h with
  | stored a w v s' hw => exact (memWrite_romKept hp hw : romKept s s')
  | loaded rd a w v x s' hrd hr =>
    obtain ⟨ds, rfl, -⟩ := memRead_frame hr
    exact romKept_of_mem_eq rfl
  | regAndPc | pcOnly | control | trapReturn | halted | raised | raisedZero => exact romKept_of_mem_eq (by simp)

/-- A CPU step keeps the ROM bytes: traps and the end of the step leave memory alone (R145). -/
theorem cpuStep_romKept (h : s.cpuStep = .next t) : romKept s t := by
  rcases cpuStep_cases s with ⟨c, -, hs⟩ | ⟨w, e, -, -, hs⟩ | ⟨w, i, u, -, -, -, he, hs⟩ <;> cases hs.symm.trans h
  · exact romKept_of_mem_eq (by simp [State.faultStep])
  · exact romKept_of_mem_eq (by simp [State.faultStep])
  · intro a ha
    rw [retire_mem]
    exact effect_romKept hp he a ha

/-- An accepted patch writes no ROM byte (R184, R185). -/
theorem applyPatch_romKept {r : PatchRequest} (hv : patchValid s.profile r = true) : romKept s (s.applyPatch r) := by
  obtain ⟨target, value, cycle⟩ := r
  cases target with
  | memory a =>
    have ha := hp.not_inRom_of_patchValid hv
    intro b hb
    exact read_write_ne s.mem _ fun heq => ha (heq ▸ hb)
  | register i =>
    rw [applyPatch_register]
    split <;> exact romKept_of_mem_eq rfl

/-- The accepted patches write no ROM byte (R184, R185). -/
theorem applyEligible_romKept (hq : s.queueValid) : romKept s s.applyEligible := by
  have happlied := foldl_applyPatch_induct (P := fun t => romKept s t ∧ t.profile = s.profile)
    (s.queue.filter (patchEligible s.cycles)) s ⟨fun _ _ => rfl, rfl⟩ fun t r hr ⟨hkept, hprofile⟩ => by
      have hstep : romKept t (t.applyPatch r) :=
        applyPatch_romKept (hprofile ▸ hp) (hprofile ▸ hq r (List.mem_filter.mp hr).1)
      exact ⟨fun a ha => (hstep a (hprofile ▸ ha)).trans (hkept a ha),
        (congrArg State.profile (applyPatch_frame t r)).trans hprofile⟩
  exact happlied.1

end

/-- The end of a frame changes memory only by the patches of the queue it accepted (R162). -/
theorem endFrame_romKept {s : State} (h : s.Inv) : romKept s s.endFrame := by
  obtain ⟨t, rep, rfl, heq, -⟩ := boundaryWith_eq s.tickFrame (Config.observe s.tickFrame.capture)
  have hqueue := (h.tickFrame_atBoundary.accept (Config.observe s.tickFrame.capture)).queueValid
  rw [State.endFrame, heq]
  exact applyEligible_romKept (s := s.tickFrame.accept _) h.profileValid hqueue

/-- No step of a legal machine changes a ROM byte. -/
theorem step_romKept {s t : State} (h : s.Inv) (ht : step s = .next t) : romKept s t := by
  rcases step_cases s with ⟨-, -, hs⟩ | ⟨-, -, hs⟩ | ⟨-, -, -, hs⟩ | ⟨-, -, -, hs⟩ | ⟨-, -, hs⟩ <;> rw [hs] at ht
  · cases ht
    exact romKept_of_mem_eq rfl
  · cases ht
  · exact cpuStep_romKept h.profileValid ht
  · cases ht
    exact romKept_of_mem_eq rfl
  · cases ht
    exact endFrame_romKept h

/-- Settles O50: each kind of step writes memory only where a RAM range lies. -/
theorem romNeverChanges : Obligations.RomNeverChanges := by
  intro s t h ht r hr hk a hstart hend
  exact step_romKept h ht a ⟨r, hr, hk, hstart, hend⟩

end Sys2Proof.Machine
end

section
/-! The decoder and the encoder (R71, R72, R75 to R78): each line of the opcode map as a row of its format, the checks of
R76 in their order, and the two round trips. -/

namespace Sys2Proof.Machine

/-! ### The rows of the opcode map -/

/-- What the tables say of an instruction: its word, the registers it uses, whether it needs XLEN = 64, and its shift
amount (R71, R75, R76). -/
structure Describes (i : Instr) (w : BitVec 32) (regs : List Reg) (gated : Bool) (shamt : Option (BitVec 6)) : Prop where
  word    : encode i = w
  regs    : i.usedRegs = regs
  needs64 : i.needs64 = gated
  shamt   : i.shamt? = shamt

/-- A line of R75's map: an opcode of one of the formats, the instructions that the format's fields stand for, and what the
format's function answers on the word w. -/
inductive OpcodeRow (p : Profile) (w : BitVec 32) : BitVec 8 → Except Reserved Instr → Prop
  | reserved {op : BitVec 8} (hop : reservedOpcode op) : OpcodeRow p w op (.error .opcode)
  | n {op : BitVec 8} {i : Instr} (hop : 0x01 ≤ op.toNat ∧ op.toNat ≤ 0x05)
      (hrow : Describes i (encodeN op) [] false none) : OpcodeRow p w op (decodeN w i)
  | mfc {op : BitVec 8} (hop : op.toNat = 0x06)
      (hrow : ∀ a cr, Describes (.mfc a cr) (encodeI op a 0#4 cr.number) [a] false none) :
      OpcodeRow p w op (decodeMfc p w)
  | mtc {op : BitVec 8} (hop : op.toNat = 0x07)
      (hrow : ∀ b cr, Describes (.mtc cr b) (encodeI op 0#4 b cr.number) [b] false none) :
      OpcodeRow p w op (decodeMtc p w)
  | r {op : BitVec 8} {mk : Reg → Reg → Reg → Instr} (hop : 0x10 ≤ op.toNat ∧ op.toNat ≤ 0x1E)
      (hrow : ∀ a b c, Describes (mk a b c) (encodeR op a b c) [a, b, c] false none) : OpcodeRow p w op (decodeR p w mk)
  | i {op : BitVec 8} {mk : Reg → Reg → BitVec 16 → Instr}
      (hop : (0x20 ≤ op.toNat ∧ op.toNat ≤ 0x23) ∨ op.toNat = 0x27 ∨ op.toNat = 0x28 ∨
        (0x30 ≤ op.toNat ∧ op.toNat ≤ 0x34) ∨ (0x38 ≤ op.toNat ∧ op.toNat ≤ 0x3A) ∨
        (0x40 ≤ op.toNat ∧ op.toNat ≤ 0x45) ∨ op.toNat = 0x49)
      (hrow : ∀ a b n, Describes (mk a b n) (encodeI op a b n) [a, b] false none) : OpcodeRow p w op (decodeI p w mk)
  | i64 {op : BitVec 8} {mk : Reg → Reg → BitVec 16 → Instr}
      (hop : op.toNat = 0x35 ∨ op.toNat = 0x36 ∨ op.toNat = 0x3B)
      (hrow : ∀ a b n, Describes (mk a b n) (encodeI op a b n) [a, b] true none) : OpcodeRow p w op (decodeI64 p w mk)
  | shift {op : BitVec 8} {mk : Reg → Reg → BitVec 6 → Instr} (hop : 0x24 ≤ op.toNat ∧ op.toNat ≤ 0x26)
      (hrow : ∀ a b n, Describes (mk a b n) (encodeShift op a b n) [a, b] false (some n)) :
      OpcodeRow p w op (decodeShift p w mk)
  | i0 {op : BitVec 8} {mk : Reg → BitVec 16 → Instr} (hop : op.toNat = 0x29)
      (hrow : ∀ a n, Describes (mk a n) (encodeI op a 0#4 n) [a] false none) : OpcodeRow p w op (decodeI0 p w mk)
  | ij {op : BitVec 8} {mk : Reg → BitVec 16 → Instr} (hop : op.toNat = 0x4B)
      (hrow : ∀ b n, Describes (mk b n) (encodeI op 0#4 b n) [b] false none) : OpcodeRow p w op (decodeIJ p w mk)
  | j {op : BitVec 8} {mk : Reg → BitVec 20 → Instr} (hop : op.toNat = 0x48)
      (hrow : ∀ a n, Describes (mk a n) (encodeJ op a n) [a] false none) : OpcodeRow p w op (decodeJ p w mk)
  | j0 {op : BitVec 8} {mk : BitVec 20 → Instr} (hop : op.toNat = 0x4A)
      (hrow : ∀ n, Describes (mk n) (encodeJ op 0#4 n) [] false none) : OpcodeRow p w op (decodeJ0 w mk)

/-- Every opcode is a row of R75's map, of the format whose function decodes it, or is reserved by R78's list. -/
theorem decodeOp_row (p : Profile) (w : BitVec 32) (op : BitVec 8) : OpcodeRow p w op (decodeOp p w op) := by
  unfold decodeOp
  split
  case h_54 =>
    simp only [imp_false, ← BitVec.toNat_inj, BitVec.toNat_ofNat, Nat.reducePow, Nat.reduceMod] at *
    exact .reserved (by unfold reservedOpcode; omega)
  all_goals
    constructor
    case hop => decide
    case hrow => intros; exact ⟨rfl, rfl, rfl, rfl⟩

/-! ### Checks 1 and 2 of R76 -/

/-- The word's opcode is defined, and c says that the fields its format requires to be zero are zero (R72, R76). -/
structure RequiresZero (w : BitVec 32) (c : Prop) : Prop where
  defined : ¬ reservedOpcode (opField w)
  fields  : zeroFieldsOk w ↔ c

section
variable {w : BitVec 32}

theorem requiresZero_n (hop : 0x01 ≤ (opField w).toNat ∧ (opField w).toNat ≤ 0x05) :
    RequiresZero w (low24 w = 0#24) where
  defined := by unfold reservedOpcode; omega
  fields := by unfold zeroFieldsOk low24; grind

theorem requiresZero_r (hop : 0x10 ≤ (opField w).toNat ∧ (opField w).toNat ≤ 0x1E) :
    RequiresZero w (low12 w = 0#12) where
  defined := by unfold reservedOpcode; omega
  fields := by unfold zeroFieldsOk low12; grind

theorem requiresZero_fieldA (hop : (opField w).toNat = 0x07 ∨ (opField w).toNat = 0x4A ∨ (opField w).toNat = 0x4B) :
    RequiresZero w (fieldA w = 0#4) where
  defined := by unfold reservedOpcode; omega
  fields := by unfold zeroFieldsOk fieldA; grind

theorem requiresZero_fieldB (hop : (opField w).toNat = 0x06 ∨ (opField w).toNat = 0x29) :
    RequiresZero w (fieldB w = 0#4) where
  defined := by unfold reservedOpcode; omega
  fields := by unfold zeroFieldsOk fieldB; grind

theorem requiresZero_shift (hop : 0x24 ≤ (opField w).toNat ∧ (opField w).toNat ≤ 0x26) :
    RequiresZero w (shamtHigh w = 0#10) where
  defined := by unfold reservedOpcode; omega
  fields := by unfold zeroFieldsOk shamtHigh; grind

/-- The other formats require no field to be zero. -/
theorem requiresZero_none (hop : (0x20 ≤ (opField w).toNat ∧ (opField w).toNat ≤ 0x23) ∨
      (0x27 ≤ (opField w).toNat ∧ (opField w).toNat ≤ 0x28) ∨ (0x30 ≤ (opField w).toNat ∧ (opField w).toNat ≤ 0x36) ∨
      (0x38 ≤ (opField w).toNat ∧ (opField w).toNat ≤ 0x3B) ∨ (0x40 ≤ (opField w).toNat ∧ (opField w).toNat ≤ 0x45) ∨
      (0x48 ≤ (opField w).toNat ∧ (opField w).toNat ≤ 0x49)) : RequiresZero w True where
  defined := by unfold reservedOpcode; omega
  fields := iff_true_intro (by
    refine ⟨?_, ?_, ?_, ?_, ?_⟩ <;> intro h <;> exfalso <;> omega)

end

/-! ### The checks in their order -/

/-- The answer to a word that passed checks 1 and 2: an instruction whose word it is and that checks 4 and 5 accept, or
a later check's error (R76). -/
inductive LaterChecks (p : Profile) (w : BitVec 32) : Except Reserved Instr → Prop
  | ok {i : Instr} (hword : encode i = w) (hxlen : i.xlenOk p = true) (hshamt : i.shamtOk p = true) :
      LaterChecks p w (.ok i)
  | error {e : Reserved} (hopcode : e ≠ .opcode) (hzero : e ≠ .mustBeZero) : LaterChecks p w (.error e)

/-- The answer to a word by R76's checks 1 and 2 in their order, then by the later ones. -/
inductive Checks (p : Profile) (w : BitVec 32) : Except Reserved Instr → Prop
  | opcode (h : reservedOpcode (opField w)) : Checks p w (.error .opcode)
  | mustBeZero (hdefined : ¬ reservedOpcode (opField w)) (hzero : ¬ zeroFieldsOk w) : Checks p w (.error .mustBeZero)
  | later {x : Except Reserved Instr} (hdefined : ¬ reservedOpcode (opField w)) (hzero : zeroFieldsOk w)
      (hlater : LaterChecks p w x) : Checks p w x

section
variable {p : Profile} {w : BitVec 32}

/-- A later check that passes on to x, or else answers its own error. -/
theorem laterChecks_ite {c : Prop} [Decidable c] {x : Except Reserved Instr} {e : Reserved}
    (hx : c → LaterChecks p w x) (he : e ≠ .opcode ∧ e ≠ .mustBeZero) :
    LaterChecks p w (if c then x else .error e) := by
  split
  · exact hx ‹c›
  · exact .error he.1 he.2

/-- Check 2, followed by the later ones. -/
theorem checks_ite {c : Prop} [Decidable c] {x : Except Reserved Instr} (h : RequiresZero w c)
    (hx : c → LaterChecks p w x) : Checks p w (if c then x else .error .mustBeZero) := by
  split
  · exact .later h.defined (h.fields.mpr ‹c›) (hx ‹c›)
  · exact .mustBeZero h.defined (mt h.fields.mp ‹¬ c›)

/-- Without a field to be zero, check 2 passes. -/
theorem checks_of_later {x : Except Reserved Instr} (h : RequiresZero w True) (hx : LaterChecks p w x) : Checks p w x :=
  .later h.defined (h.fields.mpr trivial) hx

/-- An instruction that a row describes by the word w, when the XLEN gate and the shift amount pass. -/
theorem Describes.laterChecks {i : Instr} {w' : BitVec 32} {regs : List Reg} {gated : Bool} {shamt : Option (BitVec 6)}
    (h : Describes i w' regs gated shamt) (hw : w' = w) (hgate : gated = true → p.xlen = .x64)
    (hshamt : ∀ n ∈ shamt, n.toNat < p.xlen.bits) : LaterChecks p w (.ok i) := by
  refine .ok (h.word.trans hw) ?_ ?_
  · cases gated <;> simp_all [Instr.xlenOk, h.needs64]
  · cases shamt <;> simp_all [Instr.shamtOk, h.shamt]

/-- Each row answers by R76's checks in their order. -/
theorem OpcodeRow.checks {x : Except Reserved Instr} (h : OpcodeRow p w (opField w) x) : Checks p w x := by
  cases h with
  | reserved hop => exact .opcode hop
  | n hop hrow => exact checks_ite (requiresZero_n hop) fun hz => hrow.laterChecks (encodeN_fields w hz) nofun nofun
  | mfc hop hrow =>
    refine checks_ite (requiresZero_fieldB (.inl hop)) fun hz => laterChecks_ite (fun _ => ?_) (by decide)
    split
    next cr hcr =>
      refine (hrow _ cr).laterChecks ?_ nofun nofun
      rw [← hz, number_of_controlRegOf hcr, encodeI_fields]
    next => exact .error nofun nofun
  | mtc hop hrow =>
    refine checks_ite (requiresZero_fieldA (.inl hop)) fun hz => laterChecks_ite (fun _ => ?_) (by decide)
    split
    next cr hcr =>
      refine (hrow _ cr).laterChecks ?_ nofun nofun
      rw [← hz, number_of_writableRegOf hcr, encodeI_fields]
    next => exact .error nofun nofun
  | r hop hrow =>
    exact checks_ite (requiresZero_r hop) fun hz =>
      laterChecks_ite (fun _ => (hrow _ _ _).laterChecks (encodeR_fields w hz) nofun nofun) (by decide)
  | i hop hrow =>
    exact checks_of_later (requiresZero_none (by omega))
      (laterChecks_ite (fun _ => (hrow _ _ _).laterChecks (encodeI_fields w) nofun nofun) (by decide))
  | i64 hop hrow =>
    exact checks_of_later (requiresZero_none (by omega)) (laterChecks_ite (fun _ =>
      laterChecks_ite (fun hx => (hrow _ _ _).laterChecks (encodeI_fields w) (fun _ => hx) nofun) (by decide)) (by decide))
  | shift hop hrow =>
    exact checks_ite (requiresZero_shift hop) fun hz => laterChecks_ite (fun _ => laterChecks_ite (fun hn =>
      (hrow _ _ _).laterChecks (encodeShift_fields w hz) nofun (by simpa using hn)) (by decide)) (by decide)
  | i0 hop hrow =>
    exact checks_ite (requiresZero_fieldB (.inr hop)) fun hz =>
      laterChecks_ite (fun _ => (hrow _ _).laterChecks (by rw [← hz, encodeI_fields]) nofun nofun) (by decide)
  | ij hop hrow =>
    exact checks_ite (requiresZero_fieldA (.inr (.inr hop))) fun hz =>
      laterChecks_ite (fun _ => (hrow _ _).laterChecks (by rw [← hz, encodeI_fields]) nofun nofun) (by decide)
  | j hop hrow =>
    exact checks_of_later (requiresZero_none (by omega))
      (laterChecks_ite (fun _ => (hrow _ _).laterChecks (encodeJ_fields w) nofun nofun) (by decide))
  | j0 hop hrow =>
    exact checks_ite (requiresZero_fieldA (.inr (.inl hop))) fun hz =>
      (hrow _).laterChecks (by rw [← hz, encodeJ_fields]) nofun nofun

/-- The decoder makes R76's checks in their order. -/
theorem decode_checks (p : Profile) (w : BitVec 32) : Checks p w (decode p w) := (decodeOp_row p w (opField w)).checks

end

/-- Settles O2: an accepted word passed every check, and its row's instruction has that word. -/
theorem encodeOfDecode : Obligations.EncodeOfDecode := by
  intro p w i h
  have hregs : i.regsOk p = true := by simpa [Instr.regsOk] using decode_checksRegs p w i h
  have hchecks := decode_checks p w
  rw [h] at hchecks
  cases hchecks with
  | later _ _ hlater =>
    cases hlater with
    | ok hword hxlen hshamt => exact ⟨by simp [Instr.wellFormed, hregs, hxlen, hshamt], hword⟩

/-- Check 1 fails exactly on the reserved opcodes (R76, R78). -/
theorem decode_opcode_iff (p : Profile) (w : BitVec 32) : decode p w = .error .opcode ↔ reservedOpcode (opField w) := by
  generalize hx : decode p w = x
  cases hx ▸ decode_checks p w with
  | opcode h => simpa using h
  | mustBeZero hdefined => simpa using hdefined
  | later hdefined _ hlater => cases hlater <;> simp_all

/-- Settles O4: check 1, and the two words, whose opcodes stand at the ends of the list. -/
theorem reservedOpcodes : Obligations.ReservedOpcodes := fun p =>
  ⟨decode_opcode_iff p, (decode_opcode_iff p _).mpr (.inl rfl),
    (decode_opcode_iff p _).mpr (by unfold reservedOpcode; decide)⟩

/-- Settles O6: check 2 answers only when check 1 passed, and before the later checks. -/
theorem zeroFieldCheck : Obligations.ZeroFieldCheck := by
  intro p w
  generalize hx : decode p w = x
  cases hx ▸ decode_checks p w with
  | opcode h => simp [h]
  | mustBeZero hdefined hzero => simp [hdefined, hzero]
  | later hdefined hzero hlater => cases hlater <;> simp_all

/-! ### Words of well-formed instructions -/

/-- An instruction exists on a machine when the registers it uses exist, the XLEN gate passes and its shift amount is below
XLEN (R76). -/
theorem wellFormed_iff (p : Profile) (i : Instr) :
    i.wellFormed p = true ↔ (∀ r ∈ i.usedRegs, regOk p r = true) ∧ (i.needs64 = true → p.xlen = .x64) ∧
      ∀ n ∈ i.shamt?, n.toNat < p.xlen.bits := by
  simp only [Instr.wellFormed, Instr.regsOk, Instr.xlenOk, Instr.shamtOk, regOk, Bool.and_eq_true, List.all_eq_true,
    Option.all_eq_true, Bool.or_eq_true, Bool.not_eq_true', decide_eq_true_eq, and_assoc]
  cases i.needs64 <;> simp

section
variable {p : Profile} {op : BitVec 8} {a b c : Reg}

theorem decode_encodeN {i : Instr} (hmap : decodeOp p (encodeN op) op = decodeN (encodeN op) i) :
    decode p (encodeN op) = .ok i := by
  rw [decode_of_op (opField_encodeN ..), hmap, decodeN_encodeN]

theorem decode_encodeR {mk : Reg → Reg → Reg → Instr}
    (hmap : decodeOp p (encodeR op a b c) op = decodeR p (encodeR op a b c) mk)
    (hregs : ∀ r ∈ [a, b, c], regOk p r = true) : decode p (encodeR op a b c) = .ok (mk a b c) := by
  rw [decode_of_op (opField_encodeR ..), hmap, decodeR_encodeR]
  simp [hregs]

theorem decode_encodeI {imm : BitVec 16} {mk : Reg → Reg → BitVec 16 → Instr}
    (hmap : decodeOp p (encodeI op a b imm) op = decodeI p (encodeI op a b imm) mk)
    (hregs : ∀ r ∈ [a, b], regOk p r = true) : decode p (encodeI op a b imm) = .ok (mk a b imm) := by
  rw [decode_of_op (opField_encodeI ..), hmap, decodeI_encodeI]
  simp [hregs]

theorem decode_encodeI64 {imm : BitVec 16} {mk : Reg → Reg → BitVec 16 → Instr}
    (hmap : decodeOp p (encodeI op a b imm) op = decodeI64 p (encodeI op a b imm) mk)
    (hregs : ∀ r ∈ [a, b], regOk p r = true) (hxlen : p.xlen = .x64) :
    decode p (encodeI op a b imm) = .ok (mk a b imm) := by
  rw [decode_of_op (opField_encodeI ..), hmap, decodeI64_encodeI]
  simp [hregs, hxlen]

theorem decode_encodeShift {n : BitVec 6} {mk : Reg → Reg → BitVec 6 → Instr}
    (hmap : decodeOp p (encodeShift op a b n) op = decodeShift p (encodeShift op a b n) mk)
    (hregs : ∀ r ∈ [a, b], regOk p r = true) (hshamt : n.toNat < p.xlen.bits) :
    decode p (encodeShift op a b n) = .ok (mk a b n) := by
  rw [decode_of_op (opField_encodeShift ..), hmap, decodeShift_encodeShift]
  simp [hregs, hshamt]

theorem decode_encodeJ {imm : BitVec 20} {mk : Reg → BitVec 20 → Instr}
    (hmap : decodeOp p (encodeJ op a imm) op = decodeJ p (encodeJ op a imm) mk)
    (hregs : ∀ r ∈ [a], regOk p r = true) : decode p (encodeJ op a imm) = .ok (mk a imm) := by
  rw [decode_of_op (opField_encodeJ ..), hmap, decodeJ_encodeJ]
  simp [hregs]

end

/-- Settles O1: the map sends the opcode of each instruction's word back to its format, whose checks are those that a
well-formed instruction meets. -/
theorem decodeOfEncode : Obligations.DecodeOfEncode := by
  intro p i h
  obtain ⟨hregs, hxlen, hshamt⟩ := (wellFormed_iff p i).mp h
  cases i with
  | nop | halt | syscall | brk | eret => exact decode_encodeN rfl
  | mfc rd cr =>
    exact (decode_of_op (op := 0x06#8) (opField_encodeI ..) p).trans
      ((decodeMfc_encodeI p _ rd cr).trans (if_pos (hregs rd (.head _))))
  | mtc cr rs1 =>
    exact (decode_of_op (op := 0x07#8) (opField_encodeI ..) p).trans
      ((decodeMtc_encodeI p _ rs1 cr).trans (if_pos (hregs rs1 (.head _))))
  | add | sub | and | or | xor | sll | srl | sra | slt | sltu | mul | div | divu | rem | remu =>
    exact decode_encodeR rfl hregs
  | addi | andi | ori | xori | slti | sltiu | lb | lbu | lh | lhu | lw | sb | sh | sw | beq | bne | blt | bge | bltu | bgeu
  | jalr => exact decode_encodeI rfl hregs
  | lwu | ld | sd => exact decode_encodeI64 rfl hregs (hxlen rfl)
  | slli | srli | srai => exact decode_encodeShift rfl hregs (hshamt _ rfl)
  | lui rd imm =>
    exact (decode_of_op (op := 0x29#8) (opField_encodeI ..) p).trans
      ((decodeI0_encodeI p _ rd imm _).trans (if_pos (hregs rd (.head _))))
  | jal => exact decode_encodeJ rfl hregs
  | j imm =>
    exact (decode_of_op (op := 0x4A#8) (opField_encodeJ ..) p).trans (decodeJ0_encodeJ _ imm _)
  | jr rs1 imm =>
    exact (decode_of_op (op := 0x4B#8) (opField_encodeI ..) p).trans
      ((decodeIJ_encodeI p _ rs1 imm _).trans (if_pos (hregs rs1 (.head _))))

/-- A well-formed instruction is what its word decodes to. -/
theorem decode_of_word {p : Profile} {i : Instr} {w : BitVec 32} (hword : encode i = w) (h : i.wellFormed p = true) :
    decode p w = .ok i := hword ▸ decodeOfEncode p i h

/-- Settles O3: each word is the word of its row's instruction, which exists on REF-1. -/
theorem exampleWords : Obligations.ExampleWords :=
  ⟨decode_of_word rfl rfl, decode_of_word rfl rfl, decode_of_word rfl rfl, decode_of_word rfl rfl, decode_of_word rfl rfl,
    decode_of_word rfl rfl, decode_of_word rfl rfl, decode_of_word rfl rfl, decode_of_word rfl rfl, decode_of_word rfl rfl,
    decode_of_word rfl rfl, decode_of_word rfl rfl, decode_of_word rfl rfl⟩

/-! ### The XLEN gate (R77) -/

/-- Behind the gate nothing decodes at XLEN = 32. -/
theorem decodeI64_x32 {p : Profile} (h : p.xlen = .x32) (w : BitVec 32) (mk : Reg → Reg → BitVec 16 → Instr) :
    ∃ e, decodeI64 p w mk = .error e := by
  unfold decodeI64
  split <;> simp [h]

/-- An instruction with the word w whose registers are all number 0 exists at XLEN = 64 on a machine with a register,
whatever its shift amount. -/
theorem Describes.exists_instr {p : Profile} {i : Instr} {w : BitVec 32} {op : BitVec 8} {regs : List Reg} {gated : Bool}
    {shamt : Option (BitVec 6)} (h : Describes i w regs gated shamt) (hop : opField w = op) (hx : p.xlen = .x64)
    (hn : 1 ≤ p.nregs) (hregs : ∀ r ∈ regs, r = 0#4) : ∃ i, i.wellFormed p = true ∧ opField (encode i) = op := by
  refine ⟨i, (wellFormed_iff p i).mpr ⟨fun r hr => ?_, fun _ => hx, fun n _ => ?_⟩, h.word ▸ hop⟩
  · rw [hregs r (h.regs ▸ hr)]
    exact decide_eq_true hn
  · rw [hx]
    exact n.isLt

/-- Every defined opcode is the opcode of an instruction that exists on a machine with XLEN = 64 and a register: the one
with every field 0. -/
theorem OpcodeRow.exists_instr {p : Profile} {w : BitVec 32} {op : BitVec 8} {x : Except Reserved Instr}
    (h : OpcodeRow p w op x) (hop : ¬ reservedOpcode op) (hx : p.xlen = .x64) (hn : 1 ≤ p.nregs) :
    ∃ i, i.wellFormed p = true ∧ opField (encode i) = op := by
  cases h with
  | reserved hres => exact absurd hres hop
  | n _ hrow => exact hrow.exists_instr (opField_encodeN _) hx hn (by simp)
  | mfc _ hrow | mtc _ hrow => exact (hrow 0 .status).exists_instr (opField_encodeI ..) hx hn (by simp)
  | r _ hrow => exact (hrow 0 0 0).exists_instr (opField_encodeR ..) hx hn (by simp)
  | i _ hrow | i64 _ hrow => exact (hrow 0 0 0).exists_instr (opField_encodeI ..) hx hn (by simp)
  | shift _ hrow => exact (hrow 0 0 0).exists_instr (opField_encodeShift ..) hx hn (by simp)
  | i0 _ hrow | ij _ hrow => exact (hrow 0 0).exists_instr (opField_encodeI ..) hx hn (by simp)
  | j _ hrow => exact (hrow 0 0).exists_instr (opField_encodeJ ..) hx hn (by simp)
  | j0 _ hrow => exact (hrow 0).exists_instr (opField_encodeJ ..) hx hn (by simp)

/-- Settles O5: at XLEN = 32 the three opcodes stand behind the gate; at XLEN = 64 each defined opcode has an instruction,
whose word decodes. -/
theorem xlenGate : Obligations.XlenGate := by
  refine fun p => ⟨fun hx w hop => ?_, fun hx hn op hop => ?_⟩
  · rcases hop with hop | hop | hop <;> rw [decode_of_op hop] <;> exact decodeI64_x32 hx w _
  · obtain ⟨i, hi, hiop⟩ := (decodeOp_row p 0 op).exists_instr hop hx hn
    exact ⟨encode i, i, hiop, decodeOfEncode p i hi⟩

end Sys2Proof.Machine
end

section
/-! The cost of an instruction by its opcode (R75, R189), and the effective address as a number (R74, R109). -/

namespace Sys2Proof.Machine

/-- The cost by the opcode of the instruction's word. -/
theorem costOf_of_op {p : Profile} {i : Instr} {op : BitVec 8} (hop : opField (encode i) = op)
    (hcost : costOf p i = opcodeCost p.costs op) : costOf p i = opcodeCost p.costs (opField (encode i)) := by
  rw [hop, hcost]

/-- Settles O37: the word's opcode, by its format, and the class column at that opcode. -/
theorem instructionCosts : Obligations.InstructionCosts := by
  intro p i
  cases i with
  | nop | halt | syscall | brk | eret => exact costOf_of_op (opField_encodeN _) rfl
  | add | sub | and | or | xor | sll | srl | sra | slt | sltu | mul | div | divu | rem | remu =>
    exact costOf_of_op (opField_encodeR ..) rfl
  | slli | srli | srai => exact costOf_of_op (opField_encodeShift ..) rfl
  | jal | j => exact costOf_of_op (opField_encodeJ ..) rfl
  | mfc | mtc | addi | andi | ori | xori | slti | sltiu | lui | lb | lbu | lh | lhu | lw | lwu | ld | sb | sh | sw | sd
  | beq | bne | blt | bge | bltu | bgeu | jalr | jr => exact costOf_of_op (opField_encodeI ..) rfl

/-- Settles O17: sign extension to XLEN bits adds a multiple of 2^XLEN, which is one of 2^ADDR_BITS. -/
theorem effectiveAddresses : Obligations.EffectiveAddresses := by
  intro rs1 imm s hfit
  have hbase : unsignedX s.profile (s.readReg rs1) = s.uval rs1 := by
    rw [unsignedX_eq, State.uval, State.readReg, Nat.mod_eq_of_lt (fitX_lt ..)]
  have himm : (unsignedX s.profile (simm s.profile imm) : Int) = imm.toInt % 2 ^ s.profile.xlen.bits := by
    rw [unsignedX, simm, sextX, fitX_truncX, truncX_toNat]
  have hdvd : (2 : Int) ^ s.profile.addrBits ∣ 2 ^ s.profile.xlen.bits := pow_dvd_pow 2 hfit
  rw [effAddr, truncAddr_toNat (hfit.trans (xlen_bits_le _)), hbase, State.baseDisp, wrapped]
  apply Int.natCast_inj.mp
  rw [Int.toNat_of_nonneg (Int.emod_nonneg _ (by positivity))]
  push_cast
  rw [himm, Int.add_emod, Int.emod_emod_of_dvd _ hdvd, ← Int.add_emod]

end Sys2Proof.Machine
end

section
/-! Integers as XLEN-bit numbers: the claims' `wrapped` and `signedValue`, and what the model's value primitives give in
their terms (R10, R73, R83). -/

namespace Sys2Proof.Machine

/-! ### Wrapping and the signed reading -/

/-- Wrapping keeps an integer up to multiples of 2^n (R10). -/
theorem wrapped_modEq (n : Nat) (i : Int) : (wrapped n i : Int) ≡ i [ZMOD 2 ^ n] := by
  rw [wrapped, Int.toNat_of_nonneg (Int.emod_nonneg _ (by positivity))]
  exact Int.mod_modEq i _

/-- Integers that differ by a multiple of 2^n wrap to the same number. -/
theorem wrapped_congr {n : Nat} {i j : Int} (h : i ≡ j [ZMOD 2 ^ n]) : wrapped n i = wrapped n j := congrArg Int.toNat h

theorem wrapped_lt (n : Nat) (i : Int) : wrapped n i < 2 ^ n := by
  have h := Int.emod_lt_of_pos i (show (0 : Int) < 2 ^ n by positivity)
  have hcast : ((2 ^ n : Nat) : Int) = 2 ^ n := by push_cast; rfl
  rw [wrapped]
  omega

/-- A number that fits n bits is left alone. -/
theorem wrapped_natCast {n v : Nat} (h : v < 2 ^ n) : wrapped n (v : Int) = v := by
  rw [wrapped, Int.emod_eq_of_lt (by positivity) (by exact_mod_cast h), Int.toNat_natCast]

/-- The signed reading of an n-bit number differs from it by 0 or 2^n (R10). -/
theorem signedValue_modEq (n v : Nat) : signedValue n v ≡ v [ZMOD 2 ^ n] := by
  rw [signedValue]
  split
  · rfl
  · simp [Int.ModEq]

/-- An n-bit number is its signed reading, wrapped. -/
theorem wrapped_signedValue {n v : Nat} (h : v < 2 ^ n) : wrapped n (signedValue n v) = v :=
  (wrapped_congr (signedValue_modEq n v)).trans (wrapped_natCast h)

/-! ### The value primitives -/

theorem xlen_bits_ge (p : Profile) : 32 ≤ p.xlen.bits := by cases p.xlen <;> decide

theorem truncX_eq_wrapped (p : Profile) (i : Int) : (truncX p i).toNat = wrapped p.xlen.bits i := by
  rw [wrapped, ← truncX_toNat, Int.toNat_natCast]

theorem unsignedX_truncX (p : Profile) (i : Int) : unsignedX p (truncX p i) = wrapped p.xlen.bits i := by
  rw [unsignedX, fitX_truncX, truncX_eq_wrapped]

/-- A number that fits XLEN bits is what trunc_XLEN leaves of it. -/
theorem truncX_natCast_of_lt {p : Profile} {v : Nat} (h : v < 2 ^ p.xlen.bits) : (truncX p (v : Int)).toNat = v := by
  rw [truncX_natCast_toNat, Nat.mod_eq_of_lt h]

/-- The signed reading of trunc_XLEN of an integer is that integer when it fits 32 bits as a signed number (R10). -/
theorem signedX_truncX {p : Profile} {i : Int} (hlo : -2 ^ 31 ≤ i) (hhi : i < 2 ^ 31) : signedX p (truncX p i) = i := by
  unfold signedX truncX
  cases p.xlen
  case x32 =>
    rw [BitVec.setWidth_setWidth_of_le _ (by decide), BitVec.setWidth_eq, BitVec.toInt_ofInt]
    exact Int.bmod_eq_of_le (by omega) (by omega)
  case x64 =>
    rw [BitVec.toInt_ofInt]
    exact Int.bmod_eq_of_le (by omega) (by omega)

/-- simm read as a signed number is the immediate so read (R73). -/
theorem signedX_simm (p : Profile) (imm : BitVec 16) : signedX p (simm p imm) = imm.toInt := by
  have hlo := imm.le_toInt
  have hhi := imm.toInt_lt
  exact signedX_truncX (by omega) (by omega)

/-- simm read as an unsigned number is the signed immediate, wrapped (R73, R107). -/
theorem unsignedX_simm (p : Profile) (imm : BitVec 16) : unsignedX p (simm p imm) = wrapped p.xlen.bits imm.toInt :=
  unsignedX_truncX p _

/-- An immediate fits XLEN bits. -/
theorem imm16_lt (p : Profile) (imm : BitVec 16) : imm.toNat < 2 ^ p.xlen.bits :=
  imm.isLt.trans_le (Nat.pow_le_pow_right (by decide) (Nat.le_trans (by decide) (xlen_bits_ge p)))

/-- uimm is the immediate as a number (R73). -/
theorem uimm_toNat (p : Profile) (imm : BitVec 16) : (uimm p imm).toNat = imm.toNat := by
  have hwide : (imm.setWidth 64).toNat = imm.toNat := by
    rw [BitVec.toNat_setWidth, Nat.mod_eq_of_lt (imm.isLt.trans (by decide))]
  rw [uimm, zextX, fitX_of_lt (hwide ▸ imm16_lt p imm), hwide]

/-- MASK_X is the largest XLEN-bit number (R7). -/
theorem maskX_toNat (p : Profile) : (maskX p).toNat = 2 ^ p.xlen.bits - 1 := by
  rw [maskX]
  unfold truncX
  cases p.xlen <;> decide

theorem boolWord_toNat (b : Bool) : (boolWord b).toNat = if b then 1 else 0 := by cases b <;> rfl

/-! ### Register values -/

section
variable (s : State) (r : Reg)

theorem width_ge : 32 ≤ s.width := xlen_bits_ge s.profile

theorem uval_lt : s.uval r < 2 ^ s.width := fitX_lt _ _

@[simp] theorem unsignedX_readReg : unsignedX s.profile (s.readReg r) = s.uval r := by
  rw [unsignedX, State.readReg, fitX_fitX, State.uval, State.readReg]

@[simp] theorem signedX_readReg : signedX s.profile (s.readReg r) = s.sval r := by
  rw [signedX_eq, unsignedX_readReg, State.sval, signedValue, State.width]

/-- The shift amount a register holds (R7, R89). -/
@[simp] theorem shiftAmount_readReg : shiftAmount s.profile (s.readReg r) = s.uval r % s.width := rfl

/-- A register is its signed value, wrapped (R10). -/
@[simp] theorem wrapped_sval : wrapped s.width (s.sval r) = s.uval r := wrapped_signedValue (uval_lt s r)

end

end Sys2Proof.Machine
end

section
/-! The integer instructions (R84 to R108): each has its word and writes its value to rd, as the spec's formulas give it. -/

namespace Sys2Proof.Machine

/-! ### Completion -/

/-- An instruction that writes back an XLEN-bit value completes with it (R82). -/
theorem wordCompletesWith_of_writeBack {w : BitVec 32} {i : Instr} {rd : Reg} {x : Word} {v : Nat} {s : State}
    (hword : encode i = w) (hexec : exec i s = writeBack rd x s) (hx : x.toNat = v) (hv : v < 2 ^ s.width) :
    wordCompletesWith w i rd v s := by
  refine ⟨hword, _, hexec, ?value, rfl, rfl, fun j hj => ?others⟩
  case value => rw [State.uval, readReg_advance, readReg_writeReg_self, fitX_of_lt (hx ▸ hv), hx]
  case others => exact (regs_writeReg s rd x j).trans (if_neg hj)

/-- An instruction that writes back trunc_XLEN of an integer completes with that integer, wrapped (R10, R82). -/
theorem wordCompletesWith_of_truncX {w : BitVec 32} {i : Instr} {rd : Reg} {j k : Int} {s : State}
    (hword : encode i = w) (hexec : exec i s = writeBack rd (truncX s.profile j) s) (hj : j = k) :
    wordCompletesWith w i rd (wrapped s.width k) s :=
  wordCompletesWith_of_writeBack hword hexec (hj ▸ truncX_eq_wrapped _ _) (wrapped_lt _ _)

/-- An instruction that writes back a number no larger than a register's value completes with it: it needs no wrapping. -/
theorem wordCompletesWith_of_le {w : BitVec 32} {i : Instr} {rd rs1 : Reg} {n v : Nat} {s : State}
    (hword : encode i = w) (hexec : exec i s = writeBack rd (truncX s.profile (n : Int)) s) (hn : n = v)
    (hle : v ≤ s.uval rs1) : wordCompletesWith w i rd v s :=
  have hv := hle.trans_lt (uval_lt s rs1)
  wordCompletesWith_of_writeBack hword hexec (hn ▸ truncX_natCast_of_lt (hn ▸ hv)) hv

/-- An instruction that writes back 1 or 0 by a comparison completes with that number (R24, R82). -/
theorem wordCompletesWith_of_boolWord {w : BitVec 32} {i : Instr} {rd : Reg} {b : Bool} {c : Prop} [Decidable c]
    {s : State} (hword : encode i = w) (hexec : exec i s = writeBack rd (boolWord b) s) (hb : b = true ↔ c) :
    wordCompletesWith w i rd (if c then 1 else 0) s := by
  refine wordCompletesWith_of_writeBack hword hexec (by simp only [boolWord_toNat, hb]) ?_
  have : 1 < 2 ^ s.width := Nat.one_lt_two_pow (by have := width_ge s; omega)
  split <;> omega

/-! ### The obligations -/

/-- Settles O7: registers read as unsigned numbers, and each writes back trunc_XLEN of the exact result. -/
theorem addSubMulResults : Obligations.AddSubMulResults := fun rd rs1 rs2 s =>
  ⟨wordCompletesWith_of_truncX rfl rfl (by simp only [unsignedX_readReg]),
    wordCompletesWith_of_truncX rfl rfl (by simp only [unsignedX_readReg]),
    wordCompletesWith_of_truncX rfl rfl (by simp only [unsignedX_readReg])⟩

/-- Settles O8: the operands are XLEN-bit numbers, and the bitwise operations make no longer ones. -/
theorem bitwiseResults : Obligations.BitwiseResults := by
  intro rd rs1 rs2 imm s
  have h1 := uval_lt s rs1
  have h2 := uval_lt s rs2
  have himm : imm.toNat < 2 ^ s.width := imm16_lt s.profile imm
  refine ⟨?and, ?or, ?xor, ?andi, ?ori, ?xori⟩
  case and => exact wordCompletesWith_of_writeBack rfl rfl (BitVec.toNat_and ..) (Nat.and_lt_two_pow _ h2)
  case or => exact wordCompletesWith_of_writeBack rfl rfl (BitVec.toNat_or ..) (Nat.or_lt_two_pow h1 h2)
  case xor => exact wordCompletesWith_of_writeBack rfl rfl (BitVec.toNat_xor ..) (Nat.xor_lt_two_pow h1 h2)
  case andi =>
    exact wordCompletesWith_of_writeBack rfl rfl (by rw [BitVec.toNat_and, uimm_toNat, State.uval])
      (Nat.and_lt_two_pow _ himm)
  case ori =>
    exact wordCompletesWith_of_writeBack rfl rfl (by rw [BitVec.toNat_or, uimm_toNat, State.uval])
      (Nat.or_lt_two_pow h1 himm)
  case xori =>
    exact wordCompletesWith_of_writeBack rfl rfl (by rw [BitVec.toNat_xor, uimm_toNat, State.uval])
      (Nat.xor_lt_two_pow h1 himm)

/-- Settles O9: each writes back its shift by the amount b modulo XLEN; a right shift makes the number no larger. -/
theorem shiftResults : Obligations.ShiftResults := fun rd rs1 rs2 s =>
  ⟨wordCompletesWith_of_truncX rfl rfl (by simp), wordCompletesWith_of_le rfl rfl (by simp) (Nat.div_le_self _ _),
    wordCompletesWith_of_truncX rfl rfl (by simp)⟩

/-- A shift-immediate with a high immediate bit, or with a shift amount of XLEN or more, is reserved (R76, R103). -/
theorem decodeShift_error {p : Profile} {w : BitVec 32} (mk : Reg → Reg → BitVec 6 → Instr)
    (h : shamtHigh w ≠ 0#10 ∨ p.xlen.bits ≤ (shamtField w).toNat) : ∃ e, decodeShift p w mk = .error e := by
  unfold decodeShift
  split_ifs with hhigh _ hshamt
  case pos => exact absurd h (not_or.mpr ⟨not_not_intro hhigh, Nat.not_le.mpr hshamt⟩)
  all_goals exact ⟨_, rfl⟩

/-- Settles O10: the same shifts by shamt; each of the three opcodes is decoded by the shift-immediate format. -/
theorem shiftImmediateResults : Obligations.ShiftImmediateResults := by
  refine ⟨fun rd rs1 shamt s => ⟨?slli, ?srli, ?srai⟩, fun p w hop h => ?reserved⟩
  case slli => exact wordCompletesWith_of_truncX rfl rfl (by simp)
  case srli => exact wordCompletesWith_of_le rfl rfl (by simp) (Nat.div_le_self _ _)
  case srai => exact wordCompletesWith_of_truncX rfl rfl (by simp)
  case reserved => rcases hop with hop | hop | hop <;> rw [decode_of_op hop] <;> exact decodeShift_error _ h

/-- Settles O11: the comparisons read registers and immediates as the numbers that the claim compares. -/
theorem comparisonResults : Obligations.ComparisonResults := by
  refine fun rd rs1 rs2 imm s => ⟨?slt, ?sltu, ?slti, ?sltiu⟩
  case slt => exact wordCompletesWith_of_boolWord rfl rfl (by simp [ltSigned])
  case sltu => exact wordCompletesWith_of_boolWord rfl rfl (by simp [ltUnsigned])
  case slti => exact wordCompletesWith_of_boolWord rfl rfl (by simp [ltSigned, signedX_simm])
  case sltiu => exact wordCompletesWith_of_boolWord rfl rfl (by simp [ltUnsigned, unsignedX_simm, State.width])

/-- 16 zero bits below an immediate multiply its signed value by 65536 (R73). -/
theorem toInt_append_zeros (imm : BitVec 16) : (imm ++ 0#16).toInt = imm.toInt * 65536 :=
  BitVec.toInt_append.trans (by simp [mul_comm])

/-- Settles O14: the sign-extended immediate is the signed immediate up to multiples of 2^XLEN; 16 zero bits below it
multiply it by 65536. -/
theorem addiLuiResults : Obligations.AddiLuiResults := by
  refine fun rd rs1 imm s => ⟨?addi, ?lui⟩
  case addi =>
    have hsum : (s.uval rs1 : Int) + imm.toInt ≡ s.uval rs1 + wrapped s.width imm.toInt [ZMOD 2 ^ s.width] :=
      (wrapped_modEq s.width imm.toInt).symm.add_left _
    rw [wrapped_congr hsum]
    exact wordCompletesWith_of_truncX rfl rfl (by simp [unsignedX_simm, State.width])
  case lui =>
    exact wordCompletesWith_of_truncX rfl rfl (toInt_append_zeros imm)

end Sys2Proof.Machine
end

section
/-! Division (R95 to R98): the quotient and the remainder of the spec's four instructions, their corner values, and that
they fit together. -/

namespace Sys2Proof.Machine

/-! ### Quotient and remainder of integers -/

/-- The quotient rounded toward zero, by signs and magnitudes (R14). -/
theorem quotT_eq (a b : Int) : quotT a b = a.sign * b.sign * (a.natAbs / b.natAbs : Nat) := by
  have hpos : |a|.tdiv |b| = |a| / |b| := Int.tdiv_eq_ediv_of_nonneg (abs_nonneg a)
  conv_lhs => rw [quotT, ← Int.sign_mul_natAbs a, ← Int.sign_mul_natAbs b]
  rcases lt_trichotomy a 0 with ha | rfl | ha <;> rcases lt_trichotomy b 0 with hb | rfl | hb <;>
    simp [Int.sign_eq_neg_one_of_neg, Int.sign_eq_one_of_pos, *]

/-- The remainder with the sign of the dividend, by signs and magnitudes (R14). -/
theorem remT_eq (a b : Int) : remT a b = a.sign * (a.natAbs % b.natAbs : Nat) := by
  have hdiv : (a.natAbs : Int) = b.natAbs * (a.natAbs / b.natAbs : Nat) + (a.natAbs % b.natAbs : Nat) := by
    exact_mod_cast (Nat.div_add_mod a.natAbs b.natAbs).symm
  calc remT a b = a - b * (a.sign * b.sign * (a.natAbs / b.natAbs : Nat)) := by rw [remT, quotT_eq]
    _ = a.sign * a.natAbs - a.sign * (b.sign * b) * (a.natAbs / b.natAbs : Nat) := by
      rw [Int.sign_mul_natAbs]; ring
    _ = a.sign * (a.natAbs % b.natAbs : Nat) := by rw [Int.sign_mul_self_eq_natAbs, hdiv]; ring

/-! ### The values of DIV and REM -/

/-- For b not 0, quotient times divisor plus remainder is the dividend modulo 2^n, in the corner case too (R95, R97). -/
theorem divValue_mul_add_remValue {n : Nat} {a b : Int} (hb : b ≠ 0) :
    (divValue n a b : Int) * b + remValue n a b ≡ a [ZMOD 2 ^ n] := by
  rw [divValue, remValue, if_neg hb, if_neg hb]
  split_ifs with hcorner
  · obtain ⟨rfl, rfl⟩ := hcorner
    simp [Int.ModEq]
  · rw [← quotT_eq, ← remT_eq]
    calc (wrapped n (quotT a b) : Int) * b + wrapped n (remT a b)
        ≡ quotT a b * b + remT a b [ZMOD 2 ^ n] := ((wrapped_modEq n _).mul_right b).add (wrapped_modEq n _)
      _ = a := by rw [remT]; ring

/-- DIV's value is an n-bit number. -/
theorem divValue_lt {n : Nat} (hn : 0 < n) (a b : Int) : divValue n a b < 2 ^ n := by
  rw [divValue]
  split_ifs
  · exact Nat.sub_one_lt (by positivity)
  · exact Nat.pow_lt_pow_right (by decide) (by omega)
  · exact wrapped_lt n _

/-- REM's value is an n-bit number. -/
theorem remValue_lt (n : Nat) (a b : Int) : remValue n a b < 2 ^ n := by
  rw [remValue]
  split_ifs
  · exact wrapped_lt n _
  · positivity
  · exact wrapped_lt n _

/-! ### The model's division of register values -/

/-- The register whose signed value is MIN holds the number 2^(XLEN - 1) (R83). -/
theorem uval_of_sval_min {s : State} {r : Reg} (h : s.sval r = -2 ^ (s.width - 1)) : s.uval r = 2 ^ (s.width - 1) := by
  have hpow : (2 : Int) ^ s.width = 2 * 2 ^ (s.width - 1) := by
    rw [← pow_succ', Nat.sub_one_add_one (by have := width_ge s; omega)]
  have hpos : (0 : Int) < 2 ^ (s.width - 1) := by positivity
  have hval : (s.uval r : Int) = 2 ^ (s.width - 1) := by
    rw [State.sval, signedValue] at h
    split at h <;> omega
  exact_mod_cast hval

section
variable (s : State) (rs1 rs2 : Reg)

/-- DIV on two registers is DIV's value on their signed numbers (R95). -/
theorem divSigned_readReg :
    (divSigned s.profile (s.readReg rs1) (s.readReg rs2)).toNat = divValue s.width (s.sval rs1) (s.sval rs2) := by
  have hmin : minX s.profile = -2 ^ (s.width - 1) := rfl
  simp only [divSigned, divValue, signedX_readReg, hmin]
  split_ifs with hzero hcorner
  · exact maskX_toNat s.profile
  · exact uval_of_sval_min hcorner.1
  · rw [truncX_eq_wrapped, quotT_eq, State.width]

/-- REM on two registers is REM's value on their signed numbers (R97). -/
theorem remSigned_readReg :
    (remSigned s.profile (s.readReg rs1) (s.readReg rs2)).toNat = remValue s.width (s.sval rs1) (s.sval rs2) := by
  have hmin : minX s.profile = -2 ^ (s.width - 1) := rfl
  simp only [remSigned, remValue, signedX_readReg, hmin]
  split_ifs with hzero hcorner
  · exact (wrapped_sval s rs1).symm
  · rfl
  · rw [truncX_eq_wrapped, remT_eq, State.width]

/-- DIVU on two registers, on their numbers (R96). -/
theorem divUnsigned_readReg :
    (divUnsigned s.profile (s.readReg rs1) (s.readReg rs2)).toNat =
      if s.uval rs2 = 0 then 2 ^ s.width - 1 else s.uval rs1 / s.uval rs2 := by
  simp only [divUnsigned, unsignedX_readReg]
  split_ifs with hzero
  · exact maskX_toNat s.profile
  · exact truncX_natCast_of_lt ((Nat.div_le_self _ _).trans_lt (uval_lt s rs1))

/-- REMU on two registers, on their numbers (R98). -/
theorem remUnsigned_readReg :
    (remUnsigned s.profile (s.readReg rs1) (s.readReg rs2)).toNat =
      if s.uval rs2 = 0 then s.uval rs1 else s.uval rs1 % s.uval rs2 := by
  simp only [remUnsigned, unsignedX_readReg]
  split_ifs with hzero
  · rfl
  · exact truncX_natCast_of_lt ((Nat.mod_le _ _).trans_lt (uval_lt s rs1))

end

/-! ### The obligations -/

/-- Settles O12: the quotient and the remainder are no larger than the dividend, so they fit. -/
theorem unsignedDivisionResults : Obligations.UnsignedDivisionResults := by
  refine fun rd rs1 rs2 s => ⟨?divu, ?remu⟩
  case divu =>
    refine wordCompletesWith_of_writeBack rfl rfl (divUnsigned_readReg s rs1 rs2) ?_
    split_ifs
    · exact Nat.sub_one_lt (by positivity)
    · exact (Nat.div_le_self _ _).trans_lt (uval_lt s rs1)
  case remu =>
    refine wordCompletesWith_of_writeBack rfl rfl (remUnsigned_readReg s rs1 rs2) ?_
    split_ifs
    · exact uval_lt s rs1
    · exact (Nat.mod_le _ _).trans_lt (uval_lt s rs1)

/-- Settles O13: the values case by case; quotient times divisor plus remainder is the signed dividend modulo 2^XLEN, which
wraps to the register's number. -/
theorem signedDivisionResults : Obligations.SignedDivisionResults := by
  refine ⟨fun rd rs1 rs2 s => ⟨?div, ?rem⟩, fun rs1 rs2 s hb => ?identity, fun rs1 rs2 s hb => ?remZero⟩
  case div =>
    exact wordCompletesWith_of_writeBack rfl rfl (divSigned_readReg s rs1 rs2)
      (divValue_lt (by have := width_ge s; omega) _ _)
  case rem => exact wordCompletesWith_of_writeBack rfl rfl (remSigned_readReg s rs1 rs2) (remValue_lt _ _ _)
  case identity => exact (wrapped_congr (divValue_mul_add_remValue hb)).trans (wrapped_sval s rs1)
  case remZero => rw [remValue, if_pos hb, wrapped_sval]

end Sys2Proof.Machine
end

section
/-! Loads and stores (R109 to R122): the numbers that accesses carry, failed accesses, and each outcome of a load and of a
store, for every width. -/

namespace Sys2Proof.Machine

/-! ### The numbers that accesses carry -/

@[simp] theorem lowBytes_toNat (w : Width) (v : Word) : (lowBytes w v).toNat = v.toNat % 256 ^ widthBytes w := by
  rw [lowBytes, BitVec.toNat_ofNat, Nat.mod_eq_of_lt (mod_widthBytes_lt w v.toNat)]

theorem littleEndian_lt (m : Memory) (a n : Nat) : littleEndian m a n < 256 ^ n :=
  readLE_eq_littleEndian m a n ▸ readLE_lt m a n

/-- The word that memory answers is the little-endian number of its bytes (R45, R52). -/
theorem ofNat_readLE_toNat (m : Memory) (a : Nat) (w : Width) :
    (BitVec.ofNat 64 (m.readLE a (widthBytes w))).toNat = littleEndian m a (widthBytes w) := by
  have hlt := mod_widthBytes_lt w (littleEndian m a (widthBytes w))
  rw [Nat.mod_eq_of_lt (littleEndian_lt ..)] at hlt
  rw [readLE_eq_littleEndian, BitVec.toNat_ofNat, Nat.mod_eq_of_lt hlt]

/-- The Timer answers reads of 4 bytes only (R157). -/
theorem timer_read_width {t : Timer} {off : Nat} {w : Width} {x : BitVec 32} (h : t.read off w = some x) : w = .b4 := by
  unfold Timer.read at h
  split at h
  · assumption
  · cases h

/-- What a device answers fits the width of the read (R58). -/
theorem device_read_lt {dev dev' : DevState} {off : Nat} {w : Width} {v : Word}
    (h : dev.read off w = some (v, dev')) : v.toNat < 256 ^ widthBytes w := by
  cases dev with
  | timer t =>
    simp only [DevState.read, Option.map_eq_some_iff, Prod.mk.injEq] at h
    obtain ⟨x, hx, rfl, -⟩ := h
    cases timer_read_width hx
    rw [BitVec.toNat_setWidth]
    exact (Nat.mod_le _ _).trans_lt x.isLt
  | foreign n b =>
    simp only [DevState.read, Option.map_eq_some_iff, Prod.mk.injEq] at h
    obtain ⟨x, -, rfl, -⟩ := h
    rw [lowBytes_toNat]
    exact Nat.mod_lt _ (by positivity)

/-- The claims' signed reading is the two's complement of BitVec (R10). -/
theorem toInt_eq_signedValue {n : Nat} (x : BitVec n) : x.toInt = signedValue n x.toNat := by
  rw [BitVec.toInt_eq_toNat_cond, signedValue]
  cases n with
  | zero => simp [BitVec.of_length_zero]
  | succ n =>
    simp only [Nat.add_sub_cancel, pow_succ', Nat.mul_lt_mul_left Nat.two_pos]
    push_cast
    rfl

/-- Sign extension of an n-bit value to XLEN bits, as a number (R10, R112, R114, R116). -/
theorem unsignedX_sextX {p : Profile} {n : Nat} {v : Word} (h : v.toNat < 2 ^ n) :
    unsignedX p (sextX p (v.setWidth n)) = wrapped p.xlen.bits (signedValue n v.toNat) := by
  rw [sextX, unsignedX_truncX, toInt_eq_signedValue, BitVec.toNat_setWidth, Nat.mod_eq_of_lt h]

/-- Zero extension leaves the number, when XLEN bits hold the width (R10, R113, R115, R117, R118). -/
theorem unsignedX_zextLoaded {p : Profile} {w : Width} {v : Word} (hw : 256 ^ widthBytes w ≤ 2 ^ p.xlen.bits)
    (h : v.toNat < 256 ^ widthBytes w) : unsignedX p (zextLoaded p w v) = v.toNat := by
  rw [zextLoaded, unsignedX, fitX_fitX, fitX_toNat, lowBytes_toNat, Nat.mod_eq_of_lt h, Nat.mod_eq_of_lt (h.trans_le hw)]

/-- The k-th little-endian byte (R45). -/
theorem leBytes_getD_toNat {n k : Nat} (v : Nat) (h : k < n) : ((leBytes n v).getD k 0).toNat = v / 256 ^ k % 256 := by
  induction n generalizing k v with
  | zero => omega
  | succ n ih =>
    cases k with
    | zero => simp [leBytes]
    | succ k =>
      rw [leBytes, List.getD_cons_succ, ih _ (by omega), Nat.div_div_eq_div_mul, pow_succ']

/-- A byte of memory inside a wide write is the byte of the value (R45, R53). -/
theorem read_writeLE_toNat {m : Memory} (hm : m.wf) (a n v : Nat) {k : Nat} (h : k < n) :
    ((m.writeLE a n v).read (a + k)).toNat = v / 256 ^ k % 256 := by
  rw [Memory.writeLE, read_writeBytes hm, leBytes_length, if_pos (by omega), Nat.add_sub_cancel_left,
    leBytes_getD_toNat v h]

/-! ### Device accesses that the device answers -/

/-- A read that a device answers gives the device's value and sets its state (R52). -/
theorem memRead_device {s : State} {a : Addr} {w : Width} {r : Range} {d : Nat} {dev dev' : DevState} {v : Word}
    (hr : busCheck s.profile a w = .ok r) (hk : r.kind = .device d) (hd : s.devs[d]? = some dev)
    (hread : dev.read (a.toNat - r.start) w = some (v, dev')) :
    s.memRead a w = .ok (v, { s with devs := s.devs.set d dev' }) := by
  simp [State.memRead, hr, hk, hd, hread]

/-- A write that a device answers sets its state (R53). -/
theorem memWrite_device {s : State} {a : Addr} {w : Width} {r : Range} {d : Nat} {dev dev' : DevState} {v : Word}
    (hr : busCheck s.profile a w = .ok r) (hk : r.kind = .device d) (hd : s.devs[d]? = some dev)
    (hwrite : dev.write (a.toNat - r.start) w v = some dev') :
    s.memWrite a w v = .ok { s with devs := s.devs.set d dev' } := by
  simp [State.memWrite, hr, hk, hd, hwrite]

/-! ### Failed accesses -/

theorem loadCause_eq (e : BusError) : loadCause e = if e = .misaligned then .loadMisaligned else .loadBus := by
  cases e <;> rfl

theorem storeCause_eq (e : BusError) : storeCause e = if e = .misaligned then .storeMisaligned else .storeBus := by
  cases e <;> rfl

section
variable {w : Width} {ext : Word → Word} {r rs1 : Reg} {imm : BitVec 16} {s : State} {e : BusError}

/-- A load whose read fails takes the exception of the error, with info EA (R110, R111). -/
theorem load_takes (h : s.memRead (effAddr s.profile (s.readReg rs1) imm) w = .error e) :
    ∃ t, load w ext r rs1 imm s = .next t ∧
      exceptionTaken (loadCause e) (effAddr s.profile (s.readReg rs1) imm) s t :=
  ⟨_, load_of_error h, raise_taken s _ _ (by cases e <;> decide)⟩

/-- A store whose write fails takes the exception of the error, with info EA (R110, R111). -/
theorem store_takes (h : s.memWrite (effAddr s.profile (s.readReg rs1) imm) w (s.readReg r) = .error e) :
    ∃ t, store w r rs1 imm s = .next t ∧
      exceptionTaken (storeCause e) (effAddr s.profile (s.readReg rs1) imm) s t :=
  ⟨_, store_of_error h, raise_taken s _ _ (by cases e <;> decide)⟩

end

/-- Settles O18: the failing access answers the machine with the exception of its error kind taken, and that machine only. -/
theorem busErrorsRaise : Obligations.BusErrorsRaise := fun _ _ _ _ _ _ e =>
  ⟨fun h => loadCause_eq e ▸ load_takes h, fun h => storeCause_eq e ▸ store_takes h⟩

/-! ### Loads -/

/-- rd after a write to it and an advance is the XLEN-bit value written (R11, R82). -/
theorem uval_writeReg_advance (s : State) (rd : Reg) (x : Word) :
    (s.writeReg rd x).advance.uval rd = unsignedX s.profile x := by
  rw [State.uval, readReg_advance, readReg_writeReg_self, unsignedX]

/-- An instruction that loads has each outcome of a load, when its extension of a number of the width is `value` of it. -/
theorem loadOutcome_of_load {i : Instr} {w : Width} {ext : Word → Word} {value : Nat → Nat} {rd rs1 : Reg}
    {imm : BitVec 16} {s : State} (hexec : exec i s = load w ext rd rs1 imm s)
    (hext : ∀ v : Word, v.toNat < 256 ^ widthBytes w → unsignedX s.profile (ext v) = value v.toNat) :
    loadOutcome i w value rd (effAddr s.profile (s.readReg rs1) imm) s := by
  unfold loadOutcome raises completesWith
  rw [hexec]
  refine ⟨fun hmis => ?misaligned, fun haligned hout => ?unmapped, fun hmem => ?memory, fun d start hacc dev hd => ?device⟩
  case misaligned => exact load_takes (memRead_check_error (busCheck_of_not_aligned hmis))
  case unmapped => exact load_takes (memRead_check_error (busCheck_of_outside haligned hout))
  case memory =>
    obtain ⟨r, hr, hk⟩ := (busCheck_ok_kind_iff _).mpr hmem
    refine ⟨_, load_of_ok (memRead_memory hr hk), ?_, rfl, rfl, fun j hj => (regs_writeReg s rd _ j).trans (if_neg hj)⟩
    have hword := ofNat_readLE_toNat s.mem (effAddr s.profile (s.readReg rs1) imm).toNat w
    rw [uval_writeReg_advance, hext _ (hword ▸ littleEndian_lt ..), hword]
  case device =>
    obtain ⟨r, hr, hk, rfl⟩ := deviceAccess_iff.mp hacc
    refine ⟨fun v dev' hread => ?answers, fun hread => ?refuses⟩
    case answers =>
      refine ⟨_, load_of_ok (memRead_device hr hk hd hread), ?_, rfl, rfl, rfl,
        fun j hj => (regs_writeReg _ rd _ j).trans (if_neg hj)⟩
      rw [uval_writeReg_advance]
      exact hext v (device_read_lt hread)
    case refuses => exact load_takes ((memRead_device_error_iff hr hk).mpr ⟨rfl, by simp [hd, hread]⟩)

/-- Nothing behind the XLEN gate decodes at XLEN = 32 (R77). -/
theorem decode_ne_ok_of_gated {p : Profile} {w : BitVec 32} (hx : p.xlen = .x32)
    (hop : opField w = 0x35 ∨ opField w = 0x36 ∨ opField w = 0x3B) (i : Instr) : decode p w ≠ .ok i := by
  obtain ⟨e, he⟩ := (xlenGate p).1 hx w hop
  simp [he]

/-- Settles O15: each load is the shared load with its extension, which is the claim's value of the number loaded. -/
theorem loadOutcomes : Obligations.LoadOutcomes := by
  intro rd rs1 imm s ea
  have hnarrow : ∀ n ≤ 4, 256 ^ n ≤ 2 ^ s.profile.xlen.bits := fun n hn =>
    calc 256 ^ n ≤ 256 ^ 4 := Nat.pow_le_pow_right (by decide) hn
      _ = 2 ^ 32 := by norm_num
      _ ≤ 2 ^ s.profile.xlen.bits := Nat.pow_le_pow_right (by decide) (xlen_bits_ge s.profile)
  refine ⟨⟨rfl, ?lb⟩, ⟨rfl, ?lbu⟩, ⟨rfl, ?lh⟩, ⟨rfl, ?lhu⟩, ⟨rfl, ?lw⟩, ⟨rfl, fun _ => ?lwu⟩, ⟨rfl, fun hx => ?ld⟩,
    fun hx => ⟨?reserved_lwu, ?reserved_ld⟩⟩
  case lb | lh | lw => exact loadOutcome_of_load rfl fun v hv => unsignedX_sextX hv
  case lbu | lhu | lwu => exact loadOutcome_of_load rfl fun v => unsignedX_zextLoaded (hnarrow _ (by decide))
  case ld => exact loadOutcome_of_load rfl fun v => unsignedX_zextLoaded (by rw [hx]; decide)
  case reserved_lwu => exact decode_ne_ok_of_gated hx (.inl (opField_encodeI ..)) _
  case reserved_ld => exact decode_ne_ok_of_gated hx (.inr (.inl (opField_encodeI ..))) _

/-! ### Stores -/

/-- An instruction that stores has each outcome of a store. -/
theorem storeOutcome_of_store {i : Instr} {w : Width} {rs2 rs1 : Reg} {imm : BitVec 16} {s : State}
    (hwf : s.memoryCanonical) (hexec : exec i s = store w rs2 rs1 imm s) :
    storeOutcome i w (s.readReg rs2) (effAddr s.profile (s.readReg rs1) imm) s := by
  unfold storeOutcome raises
  rw [hexec]
  refine ⟨fun hmis => ?misaligned, fun haligned hout => ?bus, fun hram => ?ram, fun d start hacc dev hd => ?device⟩
  case misaligned => exact store_takes (memWrite_check_error (busCheck_of_not_aligned hmis))
  case bus =>
    by_cases hin : insideRange s.profile (fun _ => True) (effAddr s.profile (s.readReg rs1) imm).toNat (widthBytes w)
    · obtain ⟨r, hr, -⟩ := (busCheck_ok_kind_iff _).mpr ⟨haligned, hin⟩
      have hk : r.kind = .rom := by_contra fun hk => hout ((busCheck_ok_kind_iff _).mp ⟨r, hr, hk⟩).2
      exact store_takes (memWrite_rom hr hk)
    · exact store_takes (memWrite_check_error (busCheck_of_outside haligned hin))
  case ram =>
    obtain ⟨r, hr, hk⟩ := ramAccess_iff.mp hram
    exact ⟨_, store_of_ok (memWrite_ram hr hk), rfl, rfl, wf_writeLE hwf .., fun k hk => read_writeLE_toNat hwf _ _ _ hk,
      fun a ha => read_writeBytes_outside s.mem (by rwa [leBytes_length])⟩
  case device =>
    obtain ⟨r, hr, hk, rfl⟩ := deviceAccess_iff.mp hacc
    refine ⟨fun dev' hwrite => ?answers, fun hwrite => ?refuses⟩
    case answers => exact ⟨_, store_of_ok (memWrite_device hr hk hd hwrite), rfl, rfl, rfl⟩
    case refuses => exact store_takes ((memWrite_device_error_iff hr hk).mpr ⟨rfl, by simp [hd, hwrite]⟩)

/-- Settles O16: each store is the shared store of its width. -/
theorem storeOutcomes : Obligations.StoreOutcomes := by
  intro rs2 rs1 imm s hwf ea
  exact ⟨⟨rfl, storeOutcome_of_store hwf rfl⟩, ⟨rfl, storeOutcome_of_store hwf rfl⟩, ⟨rfl, storeOutcome_of_store hwf rfl⟩,
    ⟨rfl, fun _ => storeOutcome_of_store hwf rfl⟩,
    fun hx => decode_ne_ok_of_gated hx (.inr (.inr (opField_encodeI ..))) _⟩

end Sys2Proof.Machine
end

section
/-! Branches and jumps (R123 to R135): the numbers that pc-relative targets and the link stand for, what a branch and a
jump do, and that pc-relative targets are 4-byte aligned (R124). -/

namespace Sys2Proof.Machine

/-! ### Targets as numbers -/

/-- trunc_ADDR_BITS of a number is any integer it equals up to multiples of 2^ADDR_BITS, wrapped (R10). -/
theorem truncAddr_eq_wrapped {p : Profile} (hp : p.addrBits ≤ 64) {n : Nat} {i : Int}
    (h : n ≡ i [ZMOD 2 ^ p.addrBits]) : (truncAddr p n).toNat = wrapped p.addrBits i := by
  rw [truncAddr_toNat hp, ← wrapped_congr h, wrapped]
  exact_mod_cast (Int.toNat_natCast _).symm

/-- trunc_ADDR_BITS keeps a number up to multiples of 2^ADDR_BITS (R10). -/
theorem truncAddr_modEq {p : Profile} (hp : p.addrBits ≤ 64) (n : Nat) :
    ((truncAddr p n).toNat : Int) ≡ n [ZMOD 2 ^ p.addrBits] :=
  truncAddr_eq_wrapped hp rfl ▸ wrapped_modEq _ _

/-- Two zero bits below an immediate multiply its signed value by 4 (R73). -/
theorem toInt_append_two_zeros {n : Nat} (imm : BitVec n) : (imm ++ 0#2).toInt = 4 * imm.toInt := by
  cases n with
  | zero => simp [BitVec.of_length_zero]
  | succ n => exact BitVec.toInt_append.trans (by simp)

/-- A branch or jump offset counts instructions: it is 4 times the signed immediate, up to multiples of 2^ADDR_BITS (R73,
where n is 16 for boff and 20 for joff). -/
theorem offset_modEq {p : Profile} (hp : p.addrBits ≤ 64) {n : Nat} (hn : n + 2 ≤ 64) (imm : BitVec n) :
    ((truncAddr p ((imm ++ 0#2).signExtend 64).toNat).toNat : Int) ≡ 4 * imm.toInt [ZMOD 2 ^ p.addrBits] := by
  have hext : ((imm ++ 0#2).signExtend 64).toInt = 4 * imm.toInt := by
    rw [BitVec.toInt_signExtend_of_le hn, toInt_append_two_zeros]
  have hsigned := toInt_eq_signedValue ((imm ++ 0#2).signExtend 64) ▸ signedValue_modEq _ _
  exact (truncAddr_modEq hp _).trans (hext ▸ hsigned.symm.of_dvd (pow_dvd_pow 2 hp))

section
variable {s : State} (hfit : addressesFit s.profile)
include hfit

theorem addrBits_le : s.profile.addrBits ≤ 64 := hfit.trans (xlen_bits_le _)

/-- The pc-relative target of an offset of k instructions (R74). -/
theorem pcRelative_toNat {off : Addr} {k : Int} (h : (off.toNat : Int) ≡ 4 * k [ZMOD 2 ^ s.profile.addrBits]) :
    (pcRelative s.profile s.pc off).toNat = s.pcPlus k :=
  truncAddr_eq_wrapped (addrBits_le hfit) (by push_cast; exact h.add_left _)

theorem pcRelative_boff (imm : BitVec 16) : (pcRelative s.profile s.pc (boff s.profile imm)).toNat = s.pcPlus imm.toInt :=
  pcRelative_toNat hfit (offset_modEq (addrBits_le hfit) (by decide) imm)

theorem pcRelative_joff (imm : BitVec 20) : (pcRelative s.profile s.pc (joff s.profile imm)).toNat = s.pcPlus imm.toInt :=
  pcRelative_toNat hfit (offset_modEq (addrBits_le hfit) (by decide) imm)

/-- pc + 4 is the next instruction (R20). -/
theorem nextPc_toNat : (nextPc s.profile s.pc).toNat = s.pcPlus 1 :=
  truncAddr_eq_wrapped (addrBits_le hfit) (by push_cast; rfl)

/-! ### What branches and jumps do -/

/-- A branch goes to its target when its condition holds and to the next instruction otherwise (R126). -/
theorem jumpsTo_of_branch {i : Instr} {b : Bool} {c : Prop} [Decidable c] {imm : BitVec 16}
    (hexec : exec i s = branch b imm s) (hb : b = true ↔ c) :
    jumpsTo i (s.pcPlus (if c then imm.toInt else 1)) s := by
  simp only [← hb]
  cases b
  case true => exact ⟨_, hexec, pcRelative_boff hfit imm, rfl⟩
  case false => exact ⟨_, hexec, nextPc_toNat hfit, rfl⟩

/-- The link value fits a register, so rd holds the address of the next instruction (R123). -/
theorem linksTo_of_link {i : Instr} {rd : Reg} {a : Addr} {t : Nat} (hexec : exec i s = link rd a s) (ha : a.toNat = t) :
    linksTo i rd t s := by
  have hlink : fitX s.profile (nextPc s.profile s.pc) = nextPc s.profile s.pc :=
    fitX_of_lt ((truncAddr_lt _ _).trans_le (Nat.pow_le_pow_right (by decide) hfit))
  refine ⟨_, hexec, ha, ?value, rfl, fun j hj => ?others⟩
  case value =>
    rw [State.uval, readReg_jumpTo, readReg_writeReg_self, hlink, nextPc, truncAddr_toNat (addrBits_le hfit)]
  case others => exact (regs_writeReg s rd _ j).trans (if_neg hj)

end

/-! ### The conditions of branches -/

section
variable (s : State) (rs1 rs2 : Reg)

theorem eqX_readReg : eqX s.profile (s.readReg rs1) (s.readReg rs2) = true ↔ s.uval rs1 = s.uval rs2 := by
  rw [eqX, decide_eq_true_iff, ← BitVec.toNat_inj]
  exact (congrArg₂ Eq (unsignedX_readReg s rs1) (unsignedX_readReg s rs2)).to_iff

theorem ltSigned_readReg : ltSigned s.profile (s.readReg rs1) (s.readReg rs2) = true ↔ s.sval rs1 < s.sval rs2 := by
  simp [ltSigned]

theorem ltUnsigned_readReg : ltUnsigned s.profile (s.readReg rs1) (s.readReg rs2) = true ↔ s.uval rs1 < s.uval rs2 := by
  simp [ltUnsigned]

end

/-! ### The obligations -/

/-- Settles O22: each is the shared branch on its comparison, and three of the comparisons are the negations of the others. -/
theorem branchOutcomes : Obligations.BranchOutcomes := by
  refine fun rs1 rs2 imm s hfit => ⟨⟨rfl, ?beq⟩, ⟨rfl, ?bne⟩, ⟨rfl, ?blt⟩, ⟨rfl, ?bge⟩, ⟨rfl, ?bltu⟩, ⟨rfl, ?bgeu⟩⟩
  case beq => exact jumpsTo_of_branch hfit rfl (eqX_readReg ..)
  case bne => exact jumpsTo_of_branch hfit rfl (by simp [← eqX_readReg])
  case blt => exact jumpsTo_of_branch hfit rfl (ltSigned_readReg ..)
  case bge => exact jumpsTo_of_branch hfit rfl (by simp [← not_lt, ← ltSigned_readReg])
  case bltu => exact jumpsTo_of_branch hfit rfl (ltUnsigned_readReg ..)
  case bgeu => exact jumpsTo_of_branch hfit rfl (by simp [← not_lt, ← ltUnsigned_readReg])

/-- Settles O23: JAL and JALR are the shared link, whose target is computed from the state before it; J and JR only jump. -/
theorem jumpOutcomes : Obligations.JumpOutcomes := by
  refine fun rd rs1 imm imm20 s hfit => ⟨⟨rfl, ?jal⟩, ⟨rfl, ?jalr⟩, ⟨rfl, ?j⟩, ⟨rfl, ?jr⟩⟩
  case jal => exact linksTo_of_link hfit rfl (pcRelative_joff hfit imm20)
  case jalr => exact linksTo_of_link hfit rfl (effectiveAddresses rs1 imm s hfit)
  case j => exact ⟨_, rfl, pcRelative_joff hfit imm20, rfl⟩
  case jr => exact ⟨_, rfl, effectiveAddresses rs1 imm s hfit, rfl⟩

/-- A whole number of instructions from an aligned pc is aligned: 4 divides 2^ADDR_BITS, so wrapping keeps it (R124). -/
theorem pcPlus_aligned {s : State} (hpc : s.pc.toNat % 4 = 0) (hbits : 2 ≤ s.profile.addrBits) (k : Int) :
    s.pcPlus k % 4 = 0 := by
  have hdvd : (4 : Int) ∣ 2 ^ s.profile.addrBits := pow_dvd_pow (2 : Int) hbits
  have hmod : (s.pcPlus k : Int) ≡ s.pc.toNat + 4 * k [ZMOD 4] := (wrapped_modEq _ _).of_dvd hdvd
  rw [Int.ModEq] at hmod
  omega

/-- An instruction of the class branch executes as the shared branch. -/
theorem exec_of_branch {i : Instr} (h : classOf i = .branch) (s : State) : ∃ b imm, exec i s = branch b imm s := by
  cases i
  case beq | bne | blt | bge | bltu | bgeu => exact ⟨_, _, rfl⟩
  all_goals cases h

/-- Settles O24: each of them goes a whole number of instructions from pc. -/
theorem relativeTargetsAligned : Obligations.RelativeTargetsAligned := by
  intro i s hpc hbits hfit h
  suffices hrel : ∃ t k, exec i s = .next t ∧ t.pc.toNat = s.pcPlus k by
    obtain ⟨t, k, hexec, ht⟩ := hrel
    exact ⟨t, hexec, ht ▸ pcPlus_aligned hpc hbits k⟩
  rcases h with hclass | ⟨rd, imm, rfl⟩ | ⟨imm, rfl⟩
  case inl =>
    obtain ⟨b, imm, hbranch⟩ := exec_of_branch hclass s
    obtain ⟨t, hexec, ht, -⟩ := jumpsTo_of_branch hfit hbranch Iff.rfl
    exact ⟨t, _, hexec, ht⟩
  case inr.inl => exact ⟨_, _, rfl, pcRelative_joff hfit imm⟩
  case inr.inr => exact ⟨_, _, rfl, pcRelative_joff hfit imm⟩

end Sys2Proof.Machine
end

section
/-! The system instructions (R137 to R143): their words and reserved fields, the control registers as numbers, and what
each instruction and the end of its step do. -/

namespace Sys2Proof.Machine

/-! ### Reserved operand fields and control register numbers (R76) -/

/-- A word of format N with a nonzero operand field is reserved (R72). -/
theorem decode_error_of_n {p : Profile} {w : BitVec 32} (hop : 0x01 ≤ (opField w).toNat ∧ (opField w).toNat ≤ 0x05)
    (hw : low24 w ≠ 0#24) : decode p w = .error .mustBeZero :=
  have hzero := requiresZero_n hop
  (zeroFieldCheck p w).mpr ⟨hzero.defined, mt hzero.fields.mp hw⟩

/-- No control register has a number above 6 (R25). -/
theorem controlRegOf_eq_none {n : BitVec 16} (h : 7 ≤ n.toNat) : controlRegOf n = none := by
  refine Option.eq_none_iff_forall_ne_some.mpr fun cr hcr => ?_
  rw [← number_of_controlRegOf hcr] at h
  revert h
  cases cr <;> decide

/-- No writable control register has a number other than 0, 2, 5 and 6 (R25). -/
theorem writableRegOf_eq_none {n : BitVec 16} (h0 : n ≠ 0#16) (h2 : n ≠ 2#16) (h5 : n ≠ 5#16) (h6 : n ≠ 6#16) :
    writableRegOf n = none := by
  refine Option.eq_none_iff_forall_ne_some.mpr fun cr hcr => ?_
  have hn := number_of_writableRegOf hcr
  cases cr
  case status => exact h0 hn.symm
  case epc => exact h2 hn.symm
  case scratch => exact h5 hn.symm
  case evec => exact h6 hn.symm

/-- MFC of a number that names no control register is reserved, by this check or an earlier one. -/
theorem decodeMfc_error {w : BitVec 32} (p : Profile) (h : controlRegOf (imm16Field w) = none) :
    ∃ e, decodeMfc p w = .error e := by
  simp only [decodeMfc, h]
  split_ifs <;> exact ⟨_, rfl⟩

/-- MTC of a number that names no writable control register is reserved, by this check or an earlier one. -/
theorem decodeMtc_error {w : BitVec 32} (p : Profile) (h : writableRegOf (imm16Field w) = none) :
    ∃ e, decodeMtc p w = .error e := by
  simp only [decodeMtc, h]
  split_ifs <;> exact ⟨_, rfl⟩

/-! ### Control registers as numbers (R25 to R32) -/

/-- Parts put together are a sum: the upper part counts in units of the lower part's range. -/
theorem toNat_append_eq_add {m n : Nat} (x : BitVec m) (y : BitVec n) : (x ++ y).toNat = x.toNat * 2 ^ n + y.toNat := by
  rw [BitVec.toNat_append, ← Nat.shiftLeft_add_eq_or_of_lt y.isLt, Nat.shiftLeft_eq]

/-- STATUS has IE, EXL and PIE at bits 0 to 2 and IM at 15:8 (R26). -/
theorem statusWord_toNat (st : Status) :
    (statusWord st).toNat = st.ie.toNat + 2 * st.exl.toNat + 4 * st.pie.toNat + 256 * st.im.toNat := by
  simp only [statusWord, toNat_append_eq_add, BitVec.toNat_ofBool, BitVec.toNat_ofNat]
  omega

/-- CAUSE has CODE at bits 4:0 and IP at 15:8 (R27). -/
theorem causeWord_toNat (ip : BitVec 8) (c : Cause) : (causeWord ip c).toNat = (causeNumber c).toNat + 256 * ip.toNat := by
  simp only [causeWord, toNat_append_eq_add, BitVec.toNat_ofNat]
  omega

/-- What MFC reads, as a number (R142). -/
theorem readControl_toNat (s : State) (cr : ControlReg) : (s.readControl cr).toNat = s.controlValue cr := by
  cases cr
  case status => exact statusWord_toNat s.status
  case cause => exact causeWord_toNat s.ip s.causeCode
  case cycle => exact fitX_toNat s.profile s.cycles
  case epc | badaddr | scratch | evec => rfl

/-- A number of 16 bits fits a register. -/
theorem lt_two_pow_width_of_lt {s : State} {v : Nat} (h : v < 2 ^ 16) : v < 2 ^ s.width :=
  h.trans_le (Nat.pow_le_pow_right (by decide) (by have := width_ge s; omega))

/-- What MFC reads fits a register (R142). -/
theorem controlValue_lt {s : State} (hfit : addressesFit s.profile) (hcontrol : s.controlFits) (cr : ControlReg) :
    s.controlValue cr < 2 ^ s.width := by
  obtain ⟨-, hepc, hevec, hbad, hscratch⟩ := hcontrol
  have haddr : 2 ^ s.profile.addrBits ≤ 2 ^ s.width := Nat.pow_le_pow_right (by decide) hfit
  cases cr
  case status =>
    have him := s.status.im.isLt
    have hie := s.status.ie.toNat_le
    have hexl := s.status.exl.toNat_le
    have hpie := s.status.pie.toNat_le
    exact lt_two_pow_width_of_lt (by rw [State.controlValue]; omega)
  case cause =>
    have hip := s.ip.isLt
    have hcode := (causeNumber s.causeCode).isLt
    exact lt_two_pow_width_of_lt (by rw [State.controlValue]; omega)
  case epc => exact hepc.trans_le haddr
  case badaddr => exact hbad
  case cycle => exact Nat.mod_lt _ (by positivity)
  case scratch => exact hscratch
  case evec => exact hevec.trans_le haddr

/-- trunc_ADDR_BITS of a word is the word modulo 2^ADDR_BITS, however many bits an address has (R10). -/
theorem truncAddr_word_toNat (p : Profile) (v : Word) : (truncAddr p v.toNat).toNat = v.toNat % 2 ^ p.addrBits := by
  rw [truncAddr, BitVec.toNat_ofNat, Nat.mod_eq_of_lt ((Nat.mod_le _ _).trans_lt v.isLt)]

/-- Clearing bits 1:0 rounds down to a multiple of 4 (R32). -/
theorem and_not_three_toNat (v : Word) : (v &&& ~~~3#64).toNat = v.toNat / 4 * 4 := by
  have hmod := and_not_three_mod_four v
  have hdiv : (v &&& ~~~3#64).toNat / 2 ^ 2 = v.toNat / 2 ^ 2 := by
    rw [BitVec.toNat_and, Nat.and_div_two_pow]
    exact Nat.and_two_pow_sub_one_of_lt_two_pow (n := 62) (by have := v.isLt; omega)
  omega

/-! ### The interrupt check at the end of a step -/

/-- The interrupt check takes the interrupt when its condition holds (R149, R150). -/
theorem interruptCheck_delivers {s : State} (h : interruptEnabled s.profile.hasVector s.status s.ip = true) :
    trapDelivered .interrupt s.pc 0 s s.interruptCheck := by
  rcases interruptCheck_cases s with ⟨hoff, -⟩ | ⟨-, hs⟩
  · cases hoff.symm.trans h
  · rw [hs]
    exact ⟨rfl, rfl, rfl, rfl, rfl, rfl⟩

/-- The interrupt check of the state an ERET leaves sees IE = PIE and EXL = 0 (R141, R149). -/
theorem interruptEnabled_statusOnReturn {hasVector : Bool} {st : Status} {ip : BitVec 8} (hv : hasVector = true)
    (hpie : st.pie = true) (hip : ip &&& st.im ≠ 0) : interruptEnabled hasVector (statusOnReturn st) ip = true := by
  simpa [interruptEnabled, statusOnReturn, hv, hpie] using hip

/-! ### The obligations -/

/-- Settles O29: MFC writes back what it reads, which fits a register. -/
theorem mfcOutcome : Obligations.MfcOutcome := by
  refine ⟨fun rd cr s hfit hcontrol => ?reads, fun p w hop hn => ?reserved⟩
  case reads =>
    exact wordCompletesWith_of_writeBack rfl rfl (readControl_toNat s cr) (controlValue_lt hfit hcontrol cr)
  case reserved =>
    rw [decode_of_op hop]
    exact decodeMfc_error p (controlRegOf_eq_none hn)

/-- Settles O30: MTC writes its one control register and advances, and keeps the run state, so a running CPU's step ends
with the interrupt check. -/
theorem mtcOutcome : Obligations.MtcOutcome := by
  refine ⟨fun cr rs1 s => ⟨rfl, _, rfl, ?pc, fun hrun n => ?endOfStep, ?written⟩,
    fun p w hop h0 h2 h5 h6 => ?reserved⟩
  case pc => simp
  case endOfStep => exact retire_running (by simpa using hrun) n
  case written =>
    cases cr
    case status => exact ⟨rfl, rfl⟩
    case epc => exact ⟨truncAddr_word_toNat .., rfl⟩
    case scratch => exact ⟨congrArg BitVec.toNat (fitX_fitX ..), rfl⟩
    case evec => exact ⟨(and_not_three_toNat _).trans (by rw [truncAddr_word_toNat, State.uval]), rfl⟩
  case reserved =>
    rw [decode_of_op hop]
    exact decodeMtc_error p (writableRegOf_eq_none h0 h2 h5 h6)

/-- Settles O25: NOP is the advance of pc, and check 2 reads all of w[23:0]. -/
theorem nopOutcome : Obligations.NopOutcome :=
  ⟨rfl, fun _ => ⟨_, rfl, rfl, rfl⟩, fun _ _ hop hw => ⟨_, decode_error_of_n (hop ▸ by decide) hw⟩⟩

/-- Settles O26: a halted CPU's step ends without an interrupt check; in a burst it idles to the target, and at the target
the frame ends. -/
theorem haltOutcome : Obligations.HaltOutcome := by
  refine ⟨rfl, fun s => ⟨_, rfl, rfl, rfl, retire_halted rfl⟩, fun s r hrun hphase => ?_⟩
  rcases step_cases s with ⟨hp, -⟩ | ⟨hp, -⟩ | ⟨-, -, hr, -⟩ | ⟨-, hlt, -, hstep⟩ | ⟨-, hle, hstep⟩
  · cases hp.symm.trans hphase
  · cases hp.symm.trans hphase
  · cases hr.symm.trans hrun
  · exact ⟨fun _ => hstep, fun hle => absurd hlt hle.not_gt⟩
  · exact ⟨fun hlt => absurd hlt hle.not_gt, fun _ => ⟨_, hstep, step_run_of_halted hrun hstep, rfl⟩⟩

/-- Settles O27: both raise their exception with info 0, and a raised exception is taken at pc. -/
theorem syscallBreakOutcomes : Obligations.SyscallBreakOutcomes :=
  ⟨rfl, rfl, rfl, rfl, fun s =>
    ⟨⟨_, rfl, raise_taken s .syscall 0 (by decide)⟩, ⟨_, rfl, raise_taken s .brk 0 (by decide)⟩⟩⟩

/-- Settles O28: the end of an ERET's step checks the returned-to state, whose status has IE = PIE and EXL = 0. -/
theorem eretOutcome : Obligations.EretOutcome := by
  refine ⟨rfl, fun s => ⟨_, rfl, rfl, rfl, rfl, fun hrun hv hpie hip n => ?_⟩⟩
  rw [retire_running (returnFromTrap_run s ▸ hrun)]
  exact interruptCheck_delivers (s := s.returnFromTrap.addCycles n) (interruptEnabled_statusOnReturn hv hpie hip)

end Sys2Proof.Machine
end

section
/-! The frame scheduler (R155, R161 to R164): Burst's loop iteration by iteration, what RunFrame answers, the same as a run
of single steps, and the boundary sequence. -/

namespace Sys2Proof.Machine

/-! ### Burst's loop -/

/-- Once cycles has reached the target, Burst's loop has ended (R161). -/
theorem burst_of_target_le {s : State} (h : s.frameTarget ≤ s.cycles.toNat) (k : Nat) : State.burst k s = .next s := by
  cases k with
  | zero => rfl
  | succ k => exact if_neg h.not_gt

/-- One iteration below the target is followed by the others (R161). -/
theorem burst_succ_of_lt {s t : State} (h : s.cycles.toNat < s.frameTarget) (ht : s.burstStep = .next t) (k : Nat) :
    State.burst (k + 1) s = State.burst k t := by
  rw [State.burst, if_pos h, ht]

/-- What k more iterations do is what they do to the machine that the first j left. -/
theorem burst_add {j : Nat} {s t : State} (h : State.burst j s = .next t) (k : Nat) :
    State.burst (j + k) s = State.burst k t := by
  induction j generalizing s with
  | zero =>
    cases h
    rw [Nat.zero_add]
  | succ j ih =>
    by_cases hlt : s.cycles.toNat < s.frameTarget
    · obtain ⟨u, hu, -⟩ := burstStep_scheduler s
      rw [burst_succ_of_lt hlt hu] at h
      rw [Nat.succ_add, burst_succ_of_lt hlt hu, ih h]
    · have hle := not_lt.mp hlt
      cases (burst_of_target_le hle (j + 1)).symm.trans h
      rw [burst_of_target_le hle, burst_of_target_le hle]

/-- The target of a frame is the same after a part of its burst (R161). -/
theorem frameTarget_of_sameScheduler {s t : State} {n : Counter} (h : sameScheduler s { t with cycles := n }) :
    t.frameTarget = s.frameTarget := by
  obtain ⟨hprofile, -, hframe, -⟩ := h
  exact congrArg₂ (fun (f : Counter) (p : Profile) => (f.toNat + 1) * p.cpf) hframe hprofile

/-! ### What RunFrame answers -/

@[simp] theorem beginFrame_frameTarget (s : State) : s.beginFrame.frameTarget = s.frameTarget := rfl
@[simp] theorem endFrame_phase (s : State) : s.endFrame.phase = .boundary := rfl

@[simp] theorem endFrame_cycles (s : State) : s.endFrame.cycles = s.cycles := by
  obtain ⟨-, -, -, -, -, -, -, -, -, hcycles, -⟩ := endFrame_fields s
  exact hcycles

@[simp] theorem endFrame_frame (s : State) : s.endFrame.frame = s.frame + 1 := by
  obtain ⟨-, -, -, -, -, -, -, -, -, -, hframe, -⟩ := endFrame_fields s
  exact hframe

/-- RunFrame whose target fits is its prologue, its burst and what follows (R162). -/
theorem runFrame_of_burst {k : Nat} {s u : State} (hp : s.phase = .boundary) (ht : s.frameTarget < 2 ^ 64)
    (hu : State.burst k s.beginFrame = .next u) : s.runFrame k = .next u.afterBurst := by
  simp only [State.runFrame, hp, if_pos ht, hu]

/-- RunFrame at a boundary is refused, or its burst of k iterations ends below the target and it has not returned, or the
burst ends at or past the target and it returns after the end of the frame (R155, R161, R162). -/
theorem runFrame_outcomes (k : Nat) {s : State} (hp : s.phase = .boundary) :
    (2 ^ 64 ≤ s.frameTarget ∧ s.runFrame k = .refused .counterOverflow) ∨
      (s.frameTarget < 2 ^ 64 ∧ ∃ u, State.burst k s.beginFrame = .next u ∧
        sameScheduler s.beginFrame { u with cycles := s.cycles } ∧
        (u.cycles.toNat < s.frameTarget ∧ s.runFrame k = .next u ∨
          s.frameTarget ≤ u.cycles.toNat ∧ s.runFrame k = .next u.endFrame)) := by
  obtain hrefused | ⟨hfits, u, hburst, hsame, hrun⟩ := runFrame_cases k hp
  · exact .inl hrefused
  · have htarget : u.frameTarget = s.beginFrame.frameTarget := frameTarget_of_sameScheduler hsame
    refine .inr ⟨hfits, u, hburst, hsame, ?_⟩
    rw [hrun, State.afterBurst, htarget, beginFrame_frameTarget]
    by_cases hlt : u.cycles.toNat < s.frameTarget
    · exact .inl ⟨hlt, by rw [if_pos hlt]⟩
    · exact .inr ⟨not_lt.mp hlt, by rw [if_neg hlt]⟩

/-! ### The progress of a burst -/

/-- A CPU step adds a cost of at least 1 and at most the largest (R145, R161). -/
theorem cpuStep_cost {s : State} (h : costsLegal s.profile) :
    ∃ t n, s.cpuStep = .next t ∧ t.cycles = s.cycles + BitVec.ofNat 64 n ∧ 1 ≤ n ∧ n ≤ maxCost s.profile := by
  have hfault : s.profile.faultCost ≤ maxCost s.profile := le_max_left _ _
  rcases cpuStep_cases s with ⟨c, -, hs⟩ | ⟨w, e, -, -, hs⟩ | ⟨w, i, t, -, -, -, heffect, hs⟩
  · exact ⟨_, _, hs, by simp [State.faultStep], h.1, hfault⟩
  · exact ⟨_, _, hs, by simp [State.faultStep], h.1, hfault⟩
  · obtain ⟨-, hcycles, -⟩ := effect_scheduler heffect
    exact ⟨_, _, hs, by rw [retire_cycles, hcycles], cost_bounds h i⟩

/-- Below a target that leaves room for the largest cost, one iteration of Burst's loop moves cycles on, by less than the
largest cost past the target (R161). -/
theorem burstStep_progress {s : State} (hcosts : costsLegal s.profile)
    (hroom : s.frameTarget + maxCost s.profile ≤ 2 ^ 64) (hlt : s.cycles.toNat < s.frameTarget) :
    ∃ t, s.burstStep = .next t ∧ s.cycles.toNat < t.cycles.toNat ∧
      t.cycles.toNat < s.frameTarget + maxCost s.profile := by
  cases hrun : s.run with
  | running =>
    obtain ⟨t, n, ht, hcycles, hn1, hn⟩ := cpuStep_cost hcosts
    have hsum : t.cycles.toNat = s.cycles.toNat + n := by
      rw [hcycles, BitVec.toNat_add, BitVec.toNat_ofNat, Nat.add_mod_mod, Nat.mod_eq_of_lt (by omega)]
    exact ⟨t, by rw [State.burstStep, hrun, ht], by omega, by omega⟩
  | halted r =>
    have hmax : 1 ≤ maxCost s.profile := hcosts.1.trans (le_max_left _ _)
    have hidle : s.idle.cycles.toNat = s.frameTarget := by
      rw [State.idle, BitVec.toNat_ofNat, Nat.mod_eq_of_lt (by omega)]
    exact ⟨s.idle, burstStep_of_halted hrun, by omega, by omega⟩

/-- As many iterations as cycles are left reach the target, with less than the largest cost of overrun (R161). -/
theorem burst_reaches_target {k : Nat} {s : State} (hcosts : costsLegal s.profile)
    (hroom : s.frameTarget + maxCost s.profile ≤ 2 ^ 64) (hk : s.frameTarget ≤ s.cycles.toNat + k)
    (hover : s.cycles.toNat < s.frameTarget + maxCost s.profile) :
    ∃ t, State.burst k s = .next t ∧ s.frameTarget ≤ t.cycles.toNat ∧
      t.cycles.toNat < s.frameTarget + maxCost s.profile := by
  induction k generalizing s with
  | zero => exact ⟨s, rfl, hk, hover⟩
  | succ k ih =>
    by_cases hlt : s.cycles.toNat < s.frameTarget
    · obtain ⟨t, ht, hmore, hover'⟩ := burstStep_progress hcosts hroom hlt
      obtain ⟨t', ht', hsame⟩ := burstStep_scheduler s
      cases ht.symm.trans ht'
      have htarget := frameTarget_of_sameScheduler hsame
      have hprofile : t.profile = s.profile := hsame.1
      rw [burst_succ_of_lt hlt ht, ← htarget, ← hprofile]
      exact ih (by rwa [hprofile]) (by rwa [htarget, hprofile]) (by omega) (by rwa [htarget, hprofile])
    · exact ⟨s, burst_of_target_le (not_lt.mp hlt) _, not_lt.mp hlt, hover⟩

/-- A burst watched for as many iterations as cycles are left ends at or past its target: with less than the largest cost
of overrun if it began below, and at once if it did not (R161). -/
theorem burst_overrun {k : Nat} {s u : State} (hcosts : costsLegal s.profile)
    (hroom : s.frameTarget + maxCost s.profile ≤ 2 ^ 64) (hk : s.frameTarget ≤ s.cycles.toNat + k)
    (hu : State.burst k s = .next u) :
    s.frameTarget ≤ u.cycles.toNat ∧
      (s.cycles.toNat < s.frameTarget → u.cycles.toNat ≤ s.frameTarget + maxCost s.profile - 1) ∧
      (s.frameTarget ≤ s.cycles.toNat → u.cycles = s.cycles) := by
  by_cases hlt : s.cycles.toNat < s.frameTarget
  · obtain ⟨v, hv, hle, hover⟩ := burst_reaches_target hcosts hroom hk (Nat.lt_add_right _ hlt)
    cases hu.symm.trans hv
    exact ⟨hle, fun _ => Nat.le_sub_one_of_lt hover, fun h => absurd hlt h.not_gt⟩
  · have hle : s.frameTarget ≤ s.cycles.toNat := not_lt.mp hlt
    cases (burst_of_target_le hle k).symm.trans hu
    exact ⟨hle, fun h => absurd h hlt, fun _ => rfl⟩

/-- The frame counter does not wrap while the target fits 64 bits (R155). -/
theorem frame_succ_toNat {s : State} (hcpf : 1 ≤ s.profile.cpf) (ht : s.frameTarget < 2 ^ 64) :
    (s.frame + 1).toNat = s.frame.toNat + 1 := by
  have hle : s.frame.toNat + 1 ≤ s.frameTarget := Nat.le_mul_of_pos_right _ hcpf
  exact BitVec.toNat_add_of_lt (y := 1#64) (hle.trans_lt ht)

/-- A RunFrame whose burst has reached the target answers the same however much longer it is watched (R161). -/
theorem runFrame_of_longer {j k : Nat} {s u : State} (hp : s.phase = .boundary) (hfits : s.frameTarget < 2 ^ 64)
    (hu : State.burst k s.beginFrame = .next u) (hend : u.frameTarget ≤ u.cycles.toNat) (hj : k ≤ j) :
    s.runFrame j = .next u.endFrame := by
  obtain ⟨d, rfl⟩ := Nat.exists_eq_add_of_le hj
  rw [runFrame_of_burst hp hfits ((burst_add hu d).trans (burst_of_target_le hend d)), State.afterBurst,
    if_neg hend.not_gt]

/-- Settles O43: a returned RunFrame's burst ended at its target, where more iterations change nothing; and where no cost
wraps the counter, each iteration below the target is progress. -/
theorem frameReachesTarget : Obligations.FrameReachesTarget := by
  refine ⟨fun s t k hp hrun => ?answers, fun s k hp hcpf hcosts hroom hk => ?returns⟩
  case answers =>
    obtain ⟨-, href⟩ | ⟨hfits, u, hburst, hsame, ⟨hlt, hu⟩ | ⟨hle, hu⟩⟩ := runFrame_outcomes k hp
    · cases href.symm.trans hrun
    · cases hu.symm.trans hrun
      obtain ⟨-, -, hframe, hphase, -⟩ := hsame
      exact ⟨fun hb => Phase.noConfusion (hphase.symm.trans hb), fun _ => ⟨hlt, hframe⟩⟩
    · cases hu.symm.trans hrun
      have hend : u.frameTarget ≤ u.cycles.toNat := (frameTarget_of_sameScheduler hsame).trans_le hle
      obtain ⟨-, -, hframe, -⟩ := hsame
      refine ⟨fun _ => ⟨?_, ?_, fun j hj => runFrame_of_longer hp hfits hburst hend hj⟩, nofun⟩
      · rwa [endFrame_cycles]
      · rw [endFrame_frame, show u.frame = s.frame from hframe]
  case returns =>
    have hmax : 1 ≤ maxCost s.profile := hcosts.1.trans (le_max_left _ _)
    obtain ⟨hover, -⟩ | ⟨hfits, u, hburst, ⟨-, -, hframe, -⟩, houtcome⟩ := runFrame_outcomes k hp
    · omega
    obtain ⟨hle, hoverrun, hkept⟩ := burst_overrun (s := s.beginFrame) hcosts hroom hk hburst
    obtain ⟨hlt, -⟩ | ⟨-, hu⟩ := houtcome
    · exact absurd hle hlt.not_ge
    · refine ⟨u.endFrame, hu, rfl, ?_, ?_⟩
      · rw [endFrame_frame, show u.frame = s.frame from hframe, frame_succ_toNat hcpf hfits]
      · rw [endFrame_cycles]
        exact ⟨hle, hoverrun, hkept⟩

/-! ### RunFrame as single steps -/

/-- More steps go on from where the first led. -/
theorem runSteps_add {m : Nat} {s t : State} (h : runSteps m s = .next t) (n : Nat) :
    runSteps (m + n) s = runSteps n t := by
  induction m generalizing s with
  | zero =>
    cases h
    rw [Nat.zero_add]
  | succ m ih =>
    rw [Nat.succ_add]
    cases hs : step s with
    | next u =>
      simp only [runSteps, hs] at h ⊢
      exact ih h
    | fault f => exact nomatch f
    | refused r => simp [runSteps, hs] at h

/-- Where the first step leads, the other steps go on. -/
theorem runSteps_succ_of_step {s t : State} (h : step s = .next t) (n : Nat) : runSteps (n + 1) s = runSteps n t := by
  simp only [runSteps, h]

/-- In a burst below its target a step is one iteration of Burst's loop (R161). -/
theorem step_of_lt {s : State} (hp : s.phase = .inBurst) (h : s.cycles.toNat < s.frameTarget) : step s = s.burstStep := by
  simp only [step, State.machineStep, hp, if_pos h]

/-- In a burst at or past its target a step is the end of the frame (R162). -/
theorem step_of_target_le {s : State} (hp : s.phase = .inBurst) (h : s.frameTarget ≤ s.cycles.toNat) :
    step s = .next s.endFrame := by
  simp only [step, State.machineStep, hp, if_neg h.not_gt]

/-- At a boundary a step is the start of a frame whose target fits (R155, R162). -/
theorem step_of_boundary {s : State} (hp : s.phase = .boundary) (h : s.frameTarget < 2 ^ 64) :
    step s = .next s.beginFrame := by
  simp only [step, State.machineStep, hp, if_pos h]

/-- At a boundary a step is refused when the target is too large (R155). -/
theorem step_of_overflow {s : State} (hp : s.phase = .boundary) (h : 2 ^ 64 ≤ s.frameTarget) :
    step s = .refused .counterOverflow := by
  simp only [step, State.machineStep, hp, if_neg h.not_gt]

/-- The first k iterations of Burst's loop are at most k steps (R161). -/
theorem burst_eq_runSteps (k : Nat) {s : State} (hp : s.phase = .inBurst) :
    ∃ m ≤ k, runSteps m s = State.burst k s := by
  induction k generalizing s with
  | zero => exact ⟨0, le_rfl, rfl⟩
  | succ k ih =>
    by_cases hlt : s.cycles.toNat < s.frameTarget
    · obtain ⟨t, ht, -, -, -, hphase, -⟩ := burstStep_scheduler s
      obtain ⟨m, hm, hsteps⟩ := ih (s := t) (hphase.trans hp)
      exact ⟨m + 1, by omega, by
        rw [runSteps_succ_of_step ((step_of_lt hp hlt).trans ht), burst_succ_of_lt hlt ht, hsteps]⟩
    · exact ⟨0, by omega, (burst_of_target_le (not_lt.mp hlt) _).symm⟩

/-- Settles O44: one step for the prologue, one per iteration of the burst, and one for the end of the frame. -/
theorem runFrameIsItsSteps : Obligations.RunFrameIsItsSteps := by
  intro s k hp
  obtain ⟨hover, href⟩ | ⟨hfits, u, hburst, hsame, houtcome⟩ := runFrame_outcomes k hp
  · exact ⟨1, by omega, by simp only [runSteps, step_of_overflow hp hover, href]⟩
  obtain ⟨m, hm, hsteps⟩ := burst_eq_runSteps k (s := s.beginFrame) rfl
  rw [hburst] at hsteps
  have hprologue := runSteps_succ_of_step (step_of_boundary hp hfits)
  obtain ⟨-, hu⟩ | ⟨hle, hu⟩ := houtcome
  · exact ⟨m + 1, by omega, by rw [hprologue, hsteps, hu]⟩
  · have hend : u.frameTarget ≤ u.cycles.toNat := (frameTarget_of_sameScheduler hsame).trans_le hle
    obtain ⟨-, -, -, hphase, -⟩ := hsame
    exact ⟨m + 1 + 1, by omega, by
      rw [hprologue, runSteps_add hsteps, runSteps_succ_of_step (step_of_target_le (s := u) hphase hend), hu, runSteps]⟩

/-! ### The steps that are no CPU step -/

/-- ApplyEligible leaves the requests whose cycle has not come, in order (R185). -/
theorem applyEligible_queue (s : State) :
    s.applyEligible.queue = s.queue.filter fun r => decide (s.cycles.toNat < r.applyAtCycle.toNat) := by
  simp only [State.applyEligible, patchEligible, ← decide_not, not_le]

/-- Settles O42: the start of a frame, and the boundary sequence field by field. -/
theorem schedulerSteps : Obligations.SchedulerSteps := by
  refine ⟨fun s hp => ⟨step_of_boundary hp, step_of_overflow hp⟩, fun s hp hle => ?_⟩
  obtain ⟨t, rep, rfl, heq, hstopped, hstatus, hrejected, hcaptured⟩ :=
    boundaryWith_eq s.tickFrame (Config.observe s.tickFrame.capture)
  obtain ⟨hprofile, hrun, hst, hcause, hepc, hbad, hscratch, hevec, hdevs, hcycles, hframe, -⟩ := endFrame_fields s
  have hend : s.endFrame = s.tickFrame.boundaryWith (Config.observe s.tickFrame.capture) := rfl
  rw [← hend] at heq hcaptured
  refine ⟨rep, (step_of_target_le hp hle).trans (congrArg _ heq), ?fields, ?queue, hstopped, hstatus, hrejected,
    fun hc => (hcaptured.trans (if_pos hc)).trans (congrArg (fun u : State => some u.capture) heq),
    fun hc => hcaptured.trans (if_neg (ne_true_of_eq_false hc))⟩
  case fields =>
    rw [heq] at hprofile hrun hst hcause hepc hbad hscratch hevec hdevs hcycles hframe
    exact ⟨hrun, hst, hcause, hepc, hbad, hscratch, hevec, hcycles, hprofile, hframe, hdevs⟩
  case queue => exact applyEligible_queue _

end Sys2Proof.Machine
end

section
/-! The Timer (R156 to R160, R163): its register map, its tick, its bytes, and that its counts follow the machine's. -/

namespace Sys2Proof.Machine

/-! ### The register map (R157) -/

/-- A value widened, as a number. -/
theorem eq_setWidth_iff {m n : Nat} (h : m ≤ n) {x : BitVec m} {v : BitVec n} :
    v = x.setWidth n ↔ v.toNat = x.toNat := by
  rw [← BitVec.toNat_inj, BitVec.toNat_setWidth_of_le h]

/-- The low 32 bits of a word, as a number. -/
theorem eq_lowWord_iff {x : Word} {v : BitVec 32} : v = x.setWidth 32 ↔ v.toNat = x.toNat % 2 ^ 32 := by
  rw [← BitVec.toNat_inj, BitVec.toNat_setWidth]

/-- The low half of a counter, as a number. -/
theorem eq_lowHalf_iff {c : Counter} {v : BitVec 32} : v = c.extractLsb' 0 32 ↔ v.toNat = c.toNat % 2 ^ 32 := by
  rw [← BitVec.toNat_inj, BitVec.extractLsb'_toNat, Nat.shiftRight_zero]

/-- The high half of a counter, as a number. -/
theorem eq_highHalf_iff {c : Counter} {v : BitVec 32} : v = c.extractLsb' 32 32 ↔ v.toNat = c.toNat / 2 ^ 32 := by
  have hc := c.isLt
  rw [← BitVec.toNat_inj, BitVec.extractLsb'_toNat, Nat.shiftRight_eq_div_pow, Nat.mod_eq_of_lt (by omega)]

/-- Settles O39: register by register, and through the device interface of loads and stores. -/
theorem timerRegisterMap : Obligations.TimerRegisterMap := by
  refine ⟨fun t off w v _ => ?read, fun t t' off w v _ => ?write, fun t off w x d => ?deviceRead,
    fun t off w x d => ?deviceWrite⟩
  case read =>
    by_cases hw : w = .b4
    · unfold Timer.read
      rw [if_pos hw]
      split
      case h_9 => exact iff_of_false nofun (by tauto)
      all_goals simp [hw, eq_comm (b := v), eq_lowHalf_iff, eq_highHalf_iff, eq_setWidth_iff]
    · simp [Timer.read, hw]
  case write =>
    by_cases hw : w = .b4
    · unfold Timer.write
      rw [if_pos hw]
      split
      case h_9 => exact iff_of_false nofun (by simp only [List.mem_cons, List.not_mem_nil]; tauto)
      all_goals simp [hw, eq_comm (b := t')]
    · simp [Timer.write, hw]
  case deviceRead =>
    simp only [DevState.read, Option.map_eq_some_iff, Prod.mk.injEq, eq_comm (b := x), eq_comm (b := d),
      eq_setWidth_iff (show 32 ≤ 64 by decide)]
  case deviceWrite =>
    simp only [DevState.write, Option.map_eq_some_iff, ← eq_lowWord_iff, exists_and_left, exists_eq_left,
      eq_comm (b := d)]

/-! ### The tick (R158) -/

/-- The first count after COUNT whose low 32 bits are COMPARE is one more than their difference away. -/
theorem add_compareDistance (compare : BitVec 32) (count : Counter) :
    (count.toNat + ((compare - count.setWidth 32 - 1).toNat + 1)) % 2 ^ 32 = compare.toNat := by
  bv_omega

/-- The compare condition holds exactly when one of the next n counts matches (R158). -/
theorem compareHit_iff (t : Timer) (n : Nat) :
    t.compareHit n = true ↔
      t.ctrl.getLsbD 0 = true ∧ ∃ k, 1 ≤ k ∧ k ≤ n ∧ (t.count.toNat + k) % 2 ^ 32 = t.compare.toNat := by
  have hmatch := add_compareDistance t.compare t.count
  have hd := (t.compare - t.count.setWidth 32 - 1).isLt
  simp only [Timer.compareHit, Timer.en, Bool.and_eq_true, Bool.or_eq_true, decide_eq_true_eq, and_assoc]
  generalize (t.compare - t.count.setWidth 32 - 1).toNat = d at hmatch hd
  refine and_congr_right fun _ => ⟨fun ⟨_, hn⟩ => ⟨d + 1, by omega, by omega, hmatch⟩, fun ⟨k, hk1, hk, hm⟩ => ?_⟩
  exact ⟨by omega, .inr (by omega)⟩

/-- Settles O40: the tick's fields, with the compare condition as a count that matches. -/
theorem timerTickRule : Obligations.TimerTickRule := by
  intro t n
  refine ⟨BitVec.toNat_add .., BitVec.toNat_add .., rfl, rfl, ?vbl, ?cmp, rfl⟩
  case vbl => by_cases h : t.compareHit n.toNat = true <;> simp [Timer.tick, h]
  case cmp =>
    rw [← compareHit_iff]
    by_cases h : t.compareHit n.toNat = true <;> simp [Timer.tick, h]

/-! ### The bytes (R160) -/

/-- A number of n bytes is below 256^n. -/
theorem leNatAt_lt (b : List Byte) (o n : Nat) : leNatAt b o n < 256 ^ n :=
  (leNat_lt _).trans_le (Nat.pow_le_pow_right (by decide) (List.length_take_le _ _))

/-- The bytes of a number that stands in a string are those of the string. -/
theorem leBytes_leNatAt {b : List Byte} {o n : Nat} (h : o + n ≤ b.length) :
    leBytes n (leNatAt b o n) = (b.drop o).take n := by
  have hlen : ((b.drop o).take n).length = n := by
    rw [List.length_take, List.length_drop]
    omega
  have hbytes := leBytes_leNat ((b.drop o).take n)
  rwa [hlen] at hbytes

/-- The fields of the 28 bytes: COUNT, COMPARE, CTRL, STAT, FRAMES (R160). -/
theorem leNatAt_serialize (t : Timer) :
    t.serialize.length = 28 ∧ leNatAt t.serialize 0 8 = t.count.toNat ∧ leNatAt t.serialize 8 4 = t.compare.toNat ∧
      leNatAt t.serialize 12 4 = t.ctrl.toNat ∧ leNatAt t.serialize 16 4 = t.stat.toNat ∧
      leNatAt t.serialize 20 8 = t.frames.toNat := by
  have hcount := t.count.isLt
  have hcompare := t.compare.isLt
  have hctrl := t.ctrl.isLt
  have hstat := t.stat.isLt
  have hframes := t.frames.isLt
  simp [Timer.serialize, leNatAt, List.drop_append, List.drop_of_length_le, List.take_of_length_le]
  omega

/-- A Timer's bytes stand for that Timer (R58, R160). -/
theorem deserialize_serialize (t : Timer) : Timer.deserialize t.serialize = some t := by
  obtain ⟨hlen, hcount, hcompare, hctrl, hstat, hframes⟩ := leNatAt_serialize t
  rw [Timer.deserialize, hlen, hcount, hcompare, hctrl, hstat, hframes, if_pos ⟨rfl, t.ctrl.isLt, t.stat.isLt⟩]
  simp

/-- The Timer that bytes stand for has those bytes (R160). -/
theorem serialize_of_deserialize {b : List Byte} {t : Timer} (h : Timer.deserialize b = some t) :
    b.length = 28 ∧ leNatAt b 12 4 < 8 ∧ leNatAt b 16 4 < 4 ∧ t.serialize = b := by
  rw [Timer.deserialize, Option.ite_none_right_eq_some, Option.some.injEq] at h
  obtain ⟨⟨hlen, hctrl, hstat⟩, rfl⟩ := h
  refine ⟨hlen, hctrl, hstat, ?_⟩
  have hfields : b.take (8 + 4 + 4 + 4 + 8) = b := List.take_of_length_le (by omega)
  simp only [Timer.serialize, BitVec.toNat_ofNat]
  rw [Nat.mod_eq_of_lt (b := 2 ^ 64) (leNatAt_lt b 0 8), Nat.mod_eq_of_lt (b := 2 ^ 32) (leNatAt_lt b 8 4),
    Nat.mod_eq_of_lt (b := 2 ^ 3) hctrl, Nat.mod_eq_of_lt (b := 2 ^ 2) hstat,
    Nat.mod_eq_of_lt (b := 2 ^ 64) (leNatAt_lt b 20 8), leBytes_leNatAt (by omega), leBytes_leNatAt (by omega),
    leBytes_leNatAt (by omega), leBytes_leNatAt (by omega), leBytes_leNatAt (by omega)]
  simpa only [List.take_add, List.drop_zero] using hfields

/-- Settles O41: the fields of the bytes, both round trips, and the device interface of snapshots. -/
theorem timerSerialization : Obligations.TimerSerialization := by
  refine ⟨leNatAt_serialize, fun b t => ⟨serialize_of_deserialize, ?_⟩, fun _ => rfl, fun decl b d hkind => ?_⟩
  · rintro ⟨-, -, -, rfl⟩
    exact deserialize_serialize t
  · simp only [DevState.deserialize, hkind, Option.map_eq_some_iff, eq_comm (b := d)]

/-! ### The counts of a machine's Timers (R156, R163) -/

/-- Every Timer of a list of devices has the given COUNT and FRAMES. -/
def timersAt (count frames : Counter) (devs : List DevState) : Prop :=
  ∀ t, DevState.timer t ∈ devs → t.frames = frames ∧ t.count = count

theorem timersInStep_boundary_iff {s : State} (hp : s.phase = .boundary) :
    s.timersInStep ↔ timersAt s.cycles s.frame s.devs := by
  simp only [State.timersInStep, hp]
  exact ⟨fun h t ht => h _ ht t rfl, fun h _ hd t ht => h t (ht ▸ hd)⟩

theorem timersInStep_inBurst_iff {s : State} (hp : s.phase = .inBurst) :
    s.timersInStep ↔ timersAt s.cStart s.frame s.devs := by
  simp only [State.timersInStep, hp]
  exact ⟨fun h t ht => h _ ht t rfl, fun h _ hd t ht => h t (ht ▸ hd)⟩

/-- A Timer that a device read leaves was there before (R157). -/
theorem read_eq_timer {st : DevState} {off : Nat} {w : Width} {v : Word} {t : Timer}
    (h : st.read off w = some (v, .timer t)) : st = .timer t := by
  cases st with
  | timer t' =>
    simp only [DevState.read, Option.map_eq_some_iff, Prod.mk.injEq] at h
    obtain ⟨_, _, _, h⟩ := h
    exact h
  | foreign => simp [DevState.read] at h

/-- No write changes COUNT or FRAMES (R157). -/
theorem timerWrite_counts {t t' : Timer} {off : Nat} {w : Width} {v : BitVec 32} (h : t.write off w v = some t') :
    t'.frames = t.frames ∧ t'.count = t.count := by
  unfold Timer.write at h
  split_ifs at h
  split at h <;> cases h <;> exact ⟨rfl, rfl⟩

/-- A Timer that a device write leaves has the counts of the Timer that was there before (R157). -/
theorem write_eq_timer {st : DevState} {off : Nat} {w : Width} {v : Word} {t : Timer}
    (h : st.write off w v = some (.timer t)) :
    ∃ t', st = .timer t' ∧ t.frames = t'.frames ∧ t.count = t'.count := by
  cases st with
  | timer t' =>
    simp only [DevState.write, Option.map_eq_some_iff, DevState.timer.injEq, exists_eq_right] at h
    exact ⟨t', rfl, timerWrite_counts h⟩
  | foreign => simp [DevState.write] at h

section
variable {count frames : Counter} {devs : List DevState}

/-- A device that goes to a state with the same counts. -/
theorem timersAt.set (h : timersAt count frames devs) {d : Nat} {st st' : DevState} (hd : devs[d]? = some st)
    (hst : ∀ t, st' = .timer t → ∃ t', st = .timer t' ∧ t.frames = t'.frames ∧ t.count = t'.count) :
    timersAt count frames (devs.set d st') := by
  intro t ht
  obtain hmem | heq := List.mem_or_eq_of_mem_set ht
  · exact h t hmem
  · obtain ⟨t', rfl, hframes, hcount⟩ := hst t heq.symm
    rw [hframes, hcount]
    exact h t' (List.mem_of_getElem? hd)

/-- A tick of every device moves every Timer's counts on (R158). -/
theorem timersAt.tick (h : timersAt count frames devs) (n : Counter) :
    timersAt (count + n) (frames + 1) (devs.map fun d => d.tick n) := by
  intro t ht
  obtain ⟨st, hmem, htick⟩ := List.mem_map.mp ht
  cases st with
  | timer t' =>
    obtain ⟨hframes, hcount⟩ := h t' hmem
    cases htick
    exact ⟨congrArg (· + 1) hframes, congrArg (· + n) hcount⟩
  | foreign => cases htick

/-- No instruction changes a Timer's counts (R39, R157). -/
theorem effect_timersAt {i : Instr} {s t : State} (he : Effect i s t) (h : timersAt count frames s.devs) :
    timersAt count frames t.devs := by
  cases he
  case loaded hr =>
    obtain ⟨r, -, ⟨-, -, rfl⟩ | ⟨d, st, st', -, hd, hread, rfl⟩⟩ := memRead_cases hr
    · exact h
    · exact h.set hd fun t ht => ⟨t, read_eq_timer (ht ▸ hread), rfl, rfl⟩
  case stored hw =>
    obtain ⟨r, -, ⟨-, rfl⟩ | ⟨d, st, st', -, hd, hwrite, rfl⟩⟩ := memWrite_cases hw
    · exact h
    · exact h.set hd fun t ht => write_eq_timer (ht ▸ hwrite)
  all_goals simpa using h

/-- No CPU step changes a Timer's counts (R39, R145). -/
theorem cpuStep_timersAt {s t : State} (ht : s.cpuStep = .next t) (h : timersAt count frames s.devs) :
    timersAt count frames t.devs := by
  rcases cpuStep_cases s with ⟨c, -, hs⟩ | ⟨w, e, -, -, hs⟩ | ⟨w, i, u, -, -, -, he, hs⟩ <;> cases hs.symm.trans ht
  · simpa [State.faultStep] using h
  · simpa [State.faultStep] using h
  · simpa using effect_timersAt he h

end

/-- Settles O45: the start of a frame is where COUNT stands through its burst, and the tick at its end is of the cycles
since. -/
theorem timersCountEveryCycle : Obligations.TimersCountEveryCycle := by
  refine ⟨fun s t h ht => ?step, ?reset⟩
  case reset =>
    rw [timersInStep_boundary_iff rfl]
    intro t ht
    cases List.mem_singleton.mp ht
    exact ⟨rfl, rfl⟩
  case step =>
    rcases step_cases s with ⟨hp, -, hs⟩ | ⟨-, -, hs⟩ | ⟨hp, -, -, hs⟩ | ⟨hp, -, -, hs⟩ | ⟨hp, -, hs⟩
    · cases hs.symm.trans ht
      exact (timersInStep_inBurst_iff rfl).mpr ((timersInStep_boundary_iff hp).mp h)
    · cases hs.symm.trans ht
    · rw [hs] at ht
      obtain ⟨u, hu, -, -, hframe, hphase, -, -, -, hstart, -⟩ := cpuStep_scheduler s
      cases hu.symm.trans ht
      rw [timersInStep_inBurst_iff hp] at h
      rw [timersInStep_inBurst_iff (s := t) (hphase.trans hp), show t.cStart = s.cStart from hstart,
        show t.frame = s.frame from hframe]
      exact cpuStep_timersAt ht h
    · cases hs.symm.trans ht
      exact (timersInStep_inBurst_iff (s := s.idle) hp).mpr ((timersInStep_inBurst_iff hp).mp h)
    · cases hs.symm.trans ht
      obtain ⟨-, -, -, -, -, -, -, -, hdevs, -⟩ := endFrame_fields s
      have htick := ((timersInStep_inBurst_iff hp).mp h).tick (s.cycles - s.cStart)
      rw [BitVec.add_comm, BitVec.sub_add_cancel] at htick
      rwa [timersInStep_boundary_iff (endFrame_phase s), endFrame_cycles, endFrame_frame, hdevs]

end Sys2Proof.Machine
end

section
/-! Traps and the CPU step (R145 to R151): trap entry, the interrupt check at the end of a step, and what a step fetches,
decodes and runs. -/

namespace Sys2Proof.Machine

/-! ### Trap entry (R150) -/

/-- A trap is not delivered without a vector, nor a synchronous exception at EXL = 1. -/
theorem trapIsFatal_iff {s : State} {c : Cause} :
    s.trapIsFatal c = true ↔ s.profile.hasVector = false ∨ (c ≠ .interrupt ∧ s.status.exl = true) := by
  simp [State.trapIsFatal]

/-- A trap is delivered where there is a vector, to an interrupt always and to a synchronous exception at EXL = 0. -/
theorem trapIsFatal_eq_false_iff {s : State} {c : Cause} :
    s.trapIsFatal c = false ↔ s.profile.hasVector = true ∧ (c = .interrupt ∨ s.status.exl = false) := by
  simp [State.trapIsFatal, or_iff_not_imp_left]

/-- Settles O31: trap entry's two cases, each with its condition. -/
theorem trapEntry : Obligations.TrapEntry := by
  refine fun s c epc info => ⟨fun h => ?delivered, fun h => ?fatal⟩
  case delivered =>
    rw [takeTrap_delivered (trapIsFatal_eq_false_iff.mpr h)]
    exact ⟨rfl, rfl, rfl, rfl, rfl, rfl⟩
  case fatal =>
    rw [takeTrap_fatal (trapIsFatal_iff.mpr h)]
    exact ⟨rfl, rfl⟩

/-! ### The interrupt check (R149) -/

/-- Some line is both high and masked in. -/
theorem and_ne_zero_iff {n : Nat} {x y : BitVec n} :
    x &&& y ≠ 0 ↔ ∃ k < n, x.getLsbD k = true ∧ y.getLsbD k = true := by
  constructor
  · intro h
    by_contra hnone
    refine h (BitVec.eq_of_getLsbD_eq fun k hk => ?_)
    have hline : ¬ (x.getLsbD k = true ∧ y.getLsbD k = true) := fun hboth => hnone ⟨k, hk, hboth⟩
    simpa using hline
  · rintro ⟨k, -, hx, hy⟩ hzero
    have hbit := congrArg (BitVec.getLsbD · k) hzero
    simp [hx, hy] at hbit

/-- The condition of the interrupt check, line by line. -/
theorem interruptEnabled_iff {hasVector : Bool} {st : Status} {ip : BitVec 8} :
    interruptEnabled hasVector st ip = true ↔
      hasVector = true ∧ st.ie = true ∧ st.exl = false ∧
        ∃ k < 8, ip.getLsbD k = true ∧ st.im.getLsbD k = true := by
  rw [← and_ne_zero_iff]
  simp [interruptEnabled, and_assoc]

/-- The interrupt check changes nothing when its condition fails. -/
theorem interruptCheck_of_not_enabled {s : State} (h : ¬ interruptEnabled s.profile.hasVector s.status s.ip = true) :
    s.interruptCheck = s := if_neg h

/-- Settles O32: the check by its condition, and the end of a step by the run state. -/
theorem interruptCheckRule : Obligations.InterruptCheckRule := fun _ =>
  ⟨fun h => interruptCheck_delivers (interruptEnabled_iff.mpr h),
    fun h => interruptCheck_of_not_enabled (mt interruptEnabled_iff.mp h),
    fun n hrun => retire_running hrun n, fun n _ hrun => retire_halted hrun n⟩

/-- At EXL = 1 the end of a step only adds its cost (R145, R149). -/
theorem retire_of_exl {s : State} (h : s.status.exl = true) (n : Nat) : s.retire n = s.addCycles n := by
  cases hrun : s.run with
  | running =>
    rw [retire_running hrun]
    refine interruptCheck_of_not_enabled fun henabled => ?_
    obtain ⟨-, -, hexl, -⟩ := interruptEnabled_iff.mp henabled
    exact Bool.noConfusion (h.symm.trans hexl)
  | halted r => exact retire_halted hrun n

/-- Settles O33: a synchronous exception leaves the CPU halted, or at EXL = 1. -/
theorem synchronousFirst : Obligations.SynchronousFirst := by
  refine fun s c info n _ => ⟨?_, by simp [State.ip]⟩
  cases hfatal : s.trapIsFatal c with
  | true =>
    rw [State.raise, takeTrap_fatal hfatal]
    exact retire_halted rfl n
  | false =>
    rw [State.raise, takeTrap_delivered hfatal]
    exact retire_of_exl rfl n

/-! ### Fetch (R49, R56) -/

/-- A word as the number its bytes stand for (R45). -/
theorem wordOfBytes_toNat (b0 b1 b2 b3 : Byte) :
    (wordOfBytes b0 b1 b2 b3).toNat = b0.toNat + 256 * b1.toNat + 65536 * b2.toNat + 16777216 * b3.toNat := by
  simp only [wordOfBytes, toNat_append_eq_add]
  omega

/-- Four bytes read as a little-endian number are the word at the address (R45). -/
theorem ofNat_readLE_four (s : State) (a : Nat) : BitVec.ofNat 32 (s.mem.readLE a 4) = s.wordAt a := by
  apply BitVec.eq_of_toNat_eq
  simp only [Memory.readLE, Memory.readBytes, leNat, State.wordAt, wordOfBytes_toNat, BitVec.toNat_ofNat, Nat.add_assoc,
    Nat.reduceAdd]
  have h0 := (s.mem.read a).isLt
  have h1 := (s.mem.read (a + 1)).isLt
  have h2 := (s.mem.read (a + 2)).isLt
  have h3 := (s.mem.read (a + 3)).isLt
  omega

section
variable {s : State}

theorem fetch_of_misaligned (hpc : s.pc.toNat % 4 ≠ 0) : s.fetch = .error .fetchMisaligned := if_pos hpc

theorem fetch_of_fetchable (hpc : s.pc.toNat % 4 = 0) (h : fetchable s.profile s.pc.toNat) :
    s.fetch = .ok (s.wordAt s.pc.toNat) := by
  obtain ⟨r, hfind, hk, hinside⟩ := h
  rw [fetch_of_findRange hpc hfind hinside hk, ofNat_readLE_four]

theorem fetch_of_not_fetchable (hpc : s.pc.toNat % 4 = 0) (h : ¬ fetchable s.profile s.pc.toNat) :
    s.fetch = .error .fetchBus := by
  cases hf : s.fetch with
  | error c =>
    obtain ⟨-, hmis⟩ | ⟨rfl, -⟩ := fetch_error hf
    · exact absurd hpc hmis
    · rfl
  | ok w =>
    obtain ⟨-, r, hfind, hinside, hk, -⟩ := fetch_ok hf
    exact absurd ⟨r, hfind, hk, hinside⟩ h

/-! ### The CPU step (R145) -/

/-- A CPU step is what the machine does next. -/
theorem step_eq_cpuStep (h : s.cpuIsNext) : step s = s.cpuStep := by
  obtain ⟨hphase, hrun, hlt⟩ := h
  rw [step_of_lt hphase hlt, State.burstStep, hrun]

/-- The step of a fetch that fails. -/
theorem cpuStep_of_fetch_error {c : Cause} (hf : s.fetch = .error c) : s.cpuStep = .next (s.faultStep c s.pc) := by
  simp only [State.cpuStep, hf]

/-- The step of a word that does not decode. -/
theorem cpuStep_of_decode_error {w : BitVec 32} {e : Reserved} (hf : s.fetch = .ok w)
    (hd : decode s.profile w = .error e) : s.cpuStep = .next (s.faultStep .reservedInstruction (w.setWidth 64)) := by
  simp only [State.cpuStep, hf, hd]

end

/-- Settles O35: the fetch gives the word at pc, and every instruction answers a next state. -/
theorem stepRunsDecoded : Obligations.StepRunsDecoded := by
  intro s i hnext hpc hfetch hdecode
  obtain ⟨t, ht, -⟩ := exec_effect i s
  rw [step_eq_cpuStep hnext, cpuStep_of_decode (fetch_of_fetchable hpc hfetch) hdecode ht, ht]
  rfl

/-- Settles O36: the fetch's failures in their order, then the decoder's. -/
theorem stepTrapsAtFetch : Obligations.StepTrapsAtFetch := by
  intro s hnext
  rw [step_eq_cpuStep hnext]
  exact ⟨fun hpc => cpuStep_of_fetch_error (fetch_of_misaligned hpc),
    fun hpc hfetch => cpuStep_of_fetch_error (fetch_of_not_fetchable hpc hfetch),
    fun hpc hfetch _ hdecode => by
      rw [BitVec.ofNat_toNat]
      exact cpuStep_of_decode_error (fetch_of_fetchable hpc hfetch) hdecode⟩

end Sys2Proof.Machine
end

section
/-! What stops a step, and what the host's calls answer (R155, R162, R165, R172, R174). -/

namespace Sys2Proof.Machine

/-- A step answers a next state, or refuses to start a frame whose target is too large (R155). -/
theorem step_next_or_overflow (s : State) :
    (∃ t, step s = .next t) ∨
      (s.phase = .boundary ∧ 2 ^ 64 ≤ s.frameTarget ∧ step s = .refused .counterOverflow) := by
  rcases step_cases s with ⟨-, -, hs⟩ | hrefused | ⟨-, -, -, hs⟩ | ⟨-, -, -, hs⟩ | ⟨-, -, hs⟩
  · exact .inl ⟨_, hs⟩
  · exact .inr hrefused
  · obtain ⟨t, ht, -⟩ := cpuStep_scheduler s
    exact .inl ⟨t, hs.trans ht⟩
  · exact .inl ⟨_, hs⟩
  · exact .inl ⟨_, hs⟩

/-! ### RunFrame as a host call -/

/-- RunFrame from s, in which the requests q arrived, has returned with the report rep and left t: the report tells a stop
requested before or meanwhile, the run status and the snapshot of a requested capture, and both flags are cleared (R162,
R172). -/
structure FrameReturned (s : State) (q : Requests) (rep : FrameReport) (t : State) : Prop where
  phase      : t.phase = .boundary
  report     : t.report = some rep
  stopped    : rep.stopped = (s.stopReq || q.stop)
  status     : rep.status = t.run
  captured   : rep.captured = if (s.captureReq || q.capture) = true then some t.capture else none
  stopReq    : t.stopReq = false
  captureReq : t.captureReq = false

/-- The end of a frame in whose burst the requests q had arrived returns it. -/
theorem frameReturned_endFrame {s u : State} {q : Requests} {n : Counter}
    (h : sameScheduler (s.arrive q).beginFrame { u with cycles := n }) : ∃ rep, FrameReturned s q rep u.endFrame := by
  obtain ⟨-, -, -, -, -, hstop, hcapture, -⟩ := h
  obtain ⟨rep, hreport, hstopped, hstatus, -, hcaptured⟩ := endFrame_report u
  obtain ⟨-, hrun, -⟩ := endFrame_fields u
  have hflag : u.captureReq = (s.captureReq || q.capture) := hcapture
  exact ⟨rep, rfl, hreport, hstopped.trans hstop, hstatus.trans hrun.symm, by rw [hcaptured, hflag], rfl, rfl⟩

/-- RunFrame as a host call at a boundary: refused, or not returned and in its burst, or returned with its report (R155,
R162, R172). -/
theorem runFrameCall_outcomes (k : Nat) {s : State} (q : Requests) (hp : s.phase = .boundary) :
    (2 ^ 64 ≤ s.frameTarget ∧ s.runFrameCall k q = (.refused .counterOverflow [], s)) ∨
      (∃ t, s.runFrameCall k q = (.running [], t) ∧ t.phase = .inBurst) ∨
      (∃ rep t, s.runFrameCall k q = (.returned [rep], t) ∧ FrameReturned s q rep t) := by
  unfold State.runFrameCall
  obtain ⟨hover, hrun⟩ | ⟨-, u, -, hsame, ⟨-, hrun⟩ | ⟨-, hrun⟩⟩ := runFrame_outcomes k (s := s.arrive q) hp
  · exact .inl ⟨hover, by rw [hrun]⟩
  · obtain ⟨-, -, -, hphase, -⟩ := hsame
    have hburst : u.phase = .inBurst := hphase
    exact .inr (.inl ⟨u, by simp only [hrun, hburst], hburst⟩)
  · obtain ⟨rep, hreturned⟩ := frameReturned_endFrame hsame
    exact .inr (.inr ⟨rep, u.endFrame, by simp only [hrun, endFrame_phase, hreturned.report, Option.toList_some],
      hreturned⟩)

/-- A RunFrame that returned one report left that report. -/
theorem frameReturned_of_runFrameCall {k : Nat} {s t : State} {q : Requests} {rep : FrameReport} (hp : s.phase = .boundary)
    (h : s.runFrameCall k q = (.returned [rep], t)) : FrameReturned s q rep t := by
  obtain ⟨-, hcall⟩ | ⟨u, hcall, -⟩ | ⟨rep', u, hcall, hreturned⟩ := runFrameCall_outcomes k q hp
  · cases hcall.symm.trans h
  · cases hcall.symm.trans h
  · cases hcall.symm.trans h
    exact hreturned

/-! ### RunUntilStop -/

/-- RunUntilStop goes on exactly after a report that is neither Stopped nor of a halted CPU (R165). -/
theorem stopsRun_iff {s : State} {rep : FrameReport} (h : s.report = some rep) : s.stopsRun = true ↔ endsRun rep := by
  simp [State.stopsRun, h, endsRun]

theorem hostCall_runUntilStop {s : State} (hp : s.phase = .boundary) (qs : List Requests) (k : Nat) :
    s.hostCall (.runUntilStop qs k) = s.runUntilStop k qs := by
  simp only [State.hostCall, hp]

/-- RunUntilStop answers what its first RunFrame does when that did not return (R165). -/
theorem runUntilStop_of_not_returned {k : Nat} {s t : State} {q : Requests} {reply : HostReply}
    (h : s.runFrameCall k q = (reply, t)) (hreply : ∀ reports, reply ≠ .returned reports) (qs : List Requests) :
    s.runUntilStop k (q :: qs) = (reply, t) := by
  rw [State.runUntilStop, h]
  split
  · rename_i heq
    cases heq
    exact absurd rfl (hreply _)
  · rename_i heq
    exact heq.symm

/-- RunUntilStop after a first RunFrame that returned: it ends with it, or goes on from the machine it left (R165). -/
theorem runUntilStop_of_returned {k : Nat} {s t : State} {q : Requests} {reports : List FrameReport}
    (h : s.runFrameCall k q = (.returned reports, t)) (qs : List Requests) :
    s.runUntilStop k (q :: qs) =
      if t.stopsRun then (.returned reports, t)
      else ((t.runUntilStop k qs).1.withEarlier reports, (t.runUntilStop k qs).2) := by
  rw [State.runUntilStop, h]

/-- Settles O52: the step, the calls out of phase, the flags, the views, RunFrame and RunUntilStop. -/
theorem stepAndHostCallOutcomes : Obligations.StepAndHostCallOutcomes := by
  refine ⟨step_next_or_overflow, fun s q qs k hp => ?outOfPhase, fun s => ⟨rfl, rfl⟩, fun s hp => ?views,
    fun s q k hp => ?runFrame, fun s q qs k hp => ?runUntilStop⟩
  case outOfPhase =>
    exact ⟨by simp only [State.hostCall, State.runFrameCall, State.runFrame, arrive_phase, hp],
      by simp only [State.hostCall, hp], by simp only [State.hostCall, hp]⟩
  case views => simp only [State.hostCall, hp, regionBytes_eq_view]
  case runFrame =>
    obtain hrefused | hrunning | ⟨rep, t, hcall, h⟩ := runFrameCall_outcomes k q hp
    · exact .inl hrefused
    · exact .inr (.inl hrunning)
    · exact .inr (.inr ⟨rep, t, hcall, h.phase, h.report, h.stopped, h.status, h.captured, h.stopReq, h.captureReq⟩)
  case runUntilStop =>
    simp only [hostCall_runUntilStop hp]
    refine ⟨rfl, fun r t hcall => runUntilStop_of_not_returned hcall nofun qs,
      fun t hcall => runUntilStop_of_not_returned hcall nofun qs, fun rep t hcall hends => ?ends,
      fun rep t hcall hgoes => ?goesOn⟩
    case ends =>
      have hreturned := frameReturned_of_runFrameCall hp hcall
      rw [runUntilStop_of_returned hcall, if_pos ((stopsRun_iff hreturned.report).mpr hends)]
    case goesOn =>
      have hreturned := frameReturned_of_runFrameCall hp hcall
      rw [runUntilStop_of_returned hcall, if_neg (mt (stopsRun_iff hreturned.report).mp hgoes),
        hostCall_runUntilStop hreturned.phase]

end Sys2Proof.Machine
end

section
/-! The blob of a snapshot (R177, R179): what each reader accepts, as the bytes that the matching writer gives, and from
these what Restore's checks accept. -/

namespace Sys2Proof.Machine

/-! ### Bytes and numbers -/

/-- Taking n bytes: the string begins with them. -/
theorem takeBytes_eq_some_iff {n : Nat} {b x r : List Byte} :
    takeBytes n b = some (x, r) ↔ x.length = n ∧ b = x ++ r := by
  rw [takeBytes_some]
  constructor
  · rintro ⟨hlen, rfl, rfl⟩
    exact ⟨List.length_take_of_le hlen, (List.take_append_drop n b).symm⟩
  · rintro ⟨rfl, rfl⟩
    simp

/-- Taking an n-byte number: the string begins with its little-endian bytes. -/
theorem takeNat_eq_some_iff {n v : Nat} {b r : List Byte} :
    takeNat n b = some (v, r) ↔ v < 256 ^ n ∧ b = leBytes n v ++ r := by
  rw [takeNat_some]
  constructor
  · rintro ⟨hlen, rfl, rfl⟩
    refine ⟨leNatAt_lt b 0 n, ?_⟩
    rw [leBytes_leNatAt (by omega), List.drop_zero, List.take_append_drop]
  · rintro ⟨hv, rfl⟩
    simp [leNatAt, Nat.mod_eq_of_lt hv]

theorem u64s_cons (v : Nat) (vs : List Nat) : u64s (v :: vs) = leBytes 8 v ++ u64s vs := rfl

/-- Taking k u64 fields: the string begins with their bytes. -/
theorem takeU64s_eq_some_iff {k : Nat} {b r : List Byte} {vs : List Nat} :
    takeU64s k b = some (vs, r) ↔ vs.length = k ∧ (∀ v ∈ vs, v < 2 ^ 64) ∧ b = u64s vs ++ r := by
  induction k generalizing b vs with
  | zero =>
    rw [takeU64s, List.length_eq_zero_iff]
    constructor
    · rintro ⟨⟩
      exact ⟨rfl, nofun, rfl⟩
    · rintro ⟨rfl, -, rfl⟩
      rfl
  | succ k ih =>
    constructor
    · intro h
      rw [takeU64s] at h
      split at h
      · cases h
      rename_i v b' hv
      split at h
      · cases h
      rename_i ws b'' hws
      cases h
      obtain ⟨hlt, rfl⟩ := takeNat_eq_some_iff.mp hv
      obtain ⟨rfl, hall, rfl⟩ := ih.mp hws
      exact ⟨rfl, List.forall_mem_cons.mpr ⟨hlt, hall⟩, by rw [u64s_cons, List.append_assoc]⟩
    · rintro ⟨hlen, hall, rfl⟩
      obtain _ | ⟨v, ws⟩ := vs
      · cases hlen
      obtain ⟨hlt, hall⟩ := List.forall_mem_cons.mp hall
      have hv : takeNat 8 (u64s (v :: ws) ++ r) = some (v, u64s ws ++ r) :=
        takeNat_eq_some_iff.mpr ⟨hlt, by rw [u64s_cons, List.append_assoc]⟩
      rw [takeU64s, hv]
      simp only [ih.mpr ⟨Nat.succ.inj hlen, hall, rfl⟩]

/-! ### Records -/

/-- A byte string after its u32 length. -/
def lengthPrefixed (bs : List Byte) : List Byte := leBytes 4 bs.length ++ bs

theorem deviceRecord_eq (d : DevState) : deviceRecord d = lengthPrefixed d.serialize := rfl

/-- The byte strings stand for the states of the declared devices, in order, and their lengths fit 32 bits (R177, R179
check 4). -/
inductive BytesStandFor : List DeviceDecl → List (List Byte) → List DevState → Prop
  | nil : BytesStandFor [] [] []
  | cons {d : DeviceDecl} {bs : List Byte} {st : DevState} {ds : List DeviceDecl} {strings : List (List Byte)}
      {sts : List DevState} (hlen : bs.length < 2 ^ 32) (hst : DevState.deserialize d bs = some st)
      (hrest : BytesStandFor ds strings sts) : BytesStandFor (d :: ds) (bs :: strings) (st :: sts)

/-- Taking device records: the string begins with the strings that stand for the states, each after its length. -/
theorem takeDevices_eq_some_iff {ds : List DeviceDecl} {b r : List Byte} {sts : List DevState} :
    takeDevices ds b = some (sts, r) ↔
      ∃ strings, BytesStandFor ds strings sts ∧ b = strings.flatMap lengthPrefixed ++ r := by
  induction ds generalizing b sts with
  | nil =>
    rw [takeDevices]
    constructor
    · rintro ⟨⟩
      exact ⟨[], .nil, rfl⟩
    · rintro ⟨_, ⟨⟩, rfl⟩
      rfl
  | cons d ds ih =>
    constructor
    · intro h
      rw [takeDevices] at h
      split at h
      · cases h
      rename_i n b1 hn
      split at h
      · cases h
      rename_i bs b2 hbs
      split at h
      · cases h
      rename_i st hst
      split at h
      · cases h
      rename_i rest b3 hrest
      cases h
      obtain ⟨hlt, rfl⟩ := takeNat_eq_some_iff.mp hn
      obtain ⟨rfl, rfl⟩ := takeBytes_eq_some_iff.mp hbs
      obtain ⟨strings, hstand, rfl⟩ := ih.mp hrest
      exact ⟨bs :: strings, .cons hlt hst hstand, by simp [lengthPrefixed]⟩
    · rintro ⟨_, @⟨⟩ | @⟨_, bs, st, _, strings, rest, hlen, hst, hstand⟩, rfl⟩
      have hn : takeNat 4 ((bs :: strings).flatMap lengthPrefixed ++ r) =
          some (bs.length, bs ++ (strings.flatMap lengthPrefixed ++ r)) :=
        takeNat_eq_some_iff.mpr ⟨hlen, by simp [lengthPrefixed]⟩
      rw [takeDevices, hn]
      simp only [takeBytes_eq_some_iff.mpr ⟨rfl, rfl⟩, hst, ih.mpr ⟨strings, hstand, rfl⟩]

/-- An image's entry holds the start and all bytes of a range, and both numbers fit their fields (R177, R179 check 5). -/
def entryFits (r : Range) (e : Nat × List Byte) : Prop :=
  e.1 = r.start ∧ e.2.length = r.length ∧ r.start < 2 ^ 64 ∧ r.length < 2 ^ 64

/-- Taking memory records: the string begins with the records of the image. -/
theorem takeImage_eq_some_iff {rs : List Range} {b r : List Byte} {image : List (Nat × List Byte)} :
    takeImage rs b = some (image, r) ↔ List.Forall₂ entryFits rs image ∧ b = image.flatMap memoryRecord ++ r := by
  induction rs generalizing b image with
  | nil =>
    rw [takeImage]
    constructor
    · rintro ⟨⟩
      exact ⟨.nil, rfl⟩
    · rintro ⟨⟨⟩, rfl⟩
      rfl
  | cons q rs ih =>
    constructor
    · intro h
      rw [takeImage] at h
      split at h
      · cases h
      rename_i start b1 hstart
      split at h
      · cases h
      rename_i len b2 hlen
      split at h
      swap
      · cases h
      rename_i hq
      obtain ⟨rfl, rfl⟩ := hq
      split at h
      · cases h
      rename_i bs b3 hbs
      split at h
      · cases h
      rename_i rest b4 hrest
      cases h
      obtain ⟨hs, rfl⟩ := takeNat_eq_some_iff.mp hstart
      obtain ⟨hl, rfl⟩ := takeNat_eq_some_iff.mp hlen
      obtain ⟨hcount, rfl⟩ := takeBytes_eq_some_iff.mp hbs
      obtain ⟨hfits, rfl⟩ := ih.mp hrest
      exact ⟨.cons ⟨rfl, hcount, hs, hl⟩ hfits, by simp [memoryRecord, hcount]⟩
    · rintro ⟨@⟨⟩ | @⟨_, ⟨_, bs⟩, _, rest, ⟨rfl, hcount, hs, hl⟩, hfits⟩, rfl⟩
      have hstart : takeNat 8 (((q.start, bs) :: rest).flatMap memoryRecord ++ r) =
          some (q.start, leBytes 8 q.length ++ (bs ++ (rest.flatMap memoryRecord ++ r))) :=
        takeNat_eq_some_iff.mpr ⟨hs, by simp [memoryRecord, hcount]⟩
      have hlen : takeNat 8 (leBytes 8 q.length ++ (bs ++ (rest.flatMap memoryRecord ++ r))) =
          some (q.length, bs ++ (rest.flatMap memoryRecord ++ r)) := takeNat_eq_some_iff.mpr ⟨hl, rfl⟩
      rw [takeImage, hstart]
      simp only [hlen, takeBytes_eq_some_iff.mpr ⟨hcount, rfl⟩, and_self, if_true, ih.mpr ⟨hfits, rfl⟩]

/-! ### The CPU fields -/

/-- A code names a cause exactly when it is the cause's number (R146). -/
theorem causeOfNumber_eq_some_iff {n : Nat} {c : Cause} : causeOfNumber n = some c ↔ n = (causeNumber c).toNat := by
  constructor
  · intro h
    have hn := (causeOfNumber_some n).mp ⟨c, h⟩
    interval_cases n <;> cases h <;> rfl
  · rintro rfl
    exact causeOfNumber_causeNumber c

/-- The fields of a run state stand for it (R177). -/
@[simp] theorem runOfFields_runFields (r : RunState) : runOfFields (runFields r) = some r := by
  obtain _ | _ | ⟨c, epc, info⟩ := r
  · rfl
  · rfl
  · simp [runFields, runOfFields]

/-- Fields of 64 bits stand for a run state exactly when they are its fields (R177). -/
theorem runOfFields_eq_some_iff {fs : List Nat} (hfs : ∀ v ∈ fs, v < 2 ^ 64) {r : RunState} :
    runOfFields fs = some r ↔ fs = runFields r := by
  constructor
  · intro h
    unfold runOfFields at h
    split at h
    · cases h
      rfl
    · cases h
      rfl
    · rename_i code epc info
      obtain ⟨c, hc, rfl⟩ := Option.map_eq_some_iff.mp h
      have hepc := hfs epc (by simp)
      have hinfo := hfs info (by simp)
      rw [runFields, causeOfNumber_eq_some_iff.mp hc, BitVec.toNat_ofNat, BitVec.toNat_ofNat, Nat.mod_eq_of_lt hepc,
        Nat.mod_eq_of_lt hinfo]
    · cases h
  · rintro rfl
    exact runOfFields_runFields r

/-- The fields of STATUS in a word, as numbers (R26). -/
theorem statusOfWord_ofNat_toNat {v : Nat} (hv : v < 2 ^ 16) :
    (statusWord (statusOfWord (BitVec.ofNat 64 v))).toNat = v % 8 + 256 * (v / 256) := by
  rw [statusWord_toNat]
  simp only [statusOfWord, BitVec.getLsbD_ofNat, BitVec.extractLsb'_toNat, BitVec.toNat_ofNat, Nat.reduceLT, decide_true,
    Bool.true_and, Nat.toNat_testBit, Nat.shiftRight_eq_div_pow]
  omega

/-- A STATUS field that passes check 3 is the word of the status read from it (R26, R179). -/
theorem statusWord_of_statusFieldOk {v : Nat} (h : statusFieldOk v = true) :
    (statusWord (statusOfWord (BitVec.ofNat 64 v))).toNat = v := by
  simp only [statusFieldOk, Bool.and_eq_true, decide_eq_true_eq] at h
  rw [statusOfWord_ofNat_toNat h.1]
  omega

/-- The word of a status passes check 3 (R26, R179). -/
theorem statusFieldOk_statusWord (st : Status) : statusFieldOk (statusWord st).toNat = true := by
  have hie := st.ie.toNat_le
  have hexl := st.exl.toNat_le
  have hpie := st.pie.toNat_le
  have him := st.im.isLt
  simp only [statusFieldOk, statusWord_toNat, Bool.and_eq_true, decide_eq_true_eq]
  omega

/-- The values of a snapshot fit their widths, and EVEC is aligned: what check 3 asks beyond the fields' shape (R179). -/
structure Snapshot.ValuesFit (p : Profile) (n : Snapshot) : Prop where
  regs    : ∀ v ∈ n.regs, v.toNat < 2 ^ p.xlen.bits
  pc      : n.pc.toNat < 2 ^ p.addrBits
  epc     : n.epc.toNat < 2 ^ p.addrBits
  evec    : n.evec.toNat < 2 ^ p.addrBits
  aligned : n.evec.toNat % 4 = 0
  badaddr : n.badaddr.toNat < 2 ^ p.xlen.bits
  scratch : n.scratch.toNat < 2 ^ p.xlen.bits

/-- A number of 64 bits is a word's. -/
theorem exists_word {v : Nat} (h : v < 2 ^ 64) : ∃ w : BitVec 64, v = w.toNat :=
  ⟨BitVec.ofNat 64 v, (Nat.mod_eq_of_lt h).symm⟩

/-- Numbers of 64 bits are those of words. -/
theorem exists_words {vs : List Nat} (h : ∀ v ∈ vs, v < 2 ^ 64) : ∃ ws : List (BitVec 64), vs = ws.map BitVec.toNat :=
  ⟨vs.map (BitVec.ofNat 64), by
    rw [List.map_map]
    exact ((List.map_congr_left fun v hv => Nat.mod_eq_of_lt (h v hv)).trans (List.map_id vs)).symm⟩

/-- Words are numbers of 64 bits. -/
theorem map_toNat_lt (ws : List (BitVec 64)) : ∀ v ∈ ws.map BitVec.toNat, v < 2 ^ 64 :=
  List.forall_mem_map.mpr fun w _ => w.isLt

theorem map_ofNat_map_toNat (ws : List (BitVec 64)) : (ws.map BitVec.toNat).map (BitVec.ofNat 64) = ws := by
  rw [List.map_map]
  exact (List.map_congr_left fun w _ => by simp).trans (List.map_id ws)

/-- The snapshot that fields of 64 bits stand for: its fields are these, its values fit, and its header is the profile's
(R177, R179 check 3). -/
theorem snapshotOfFields_eq_some_iff {p : Profile} {cycles frame : Nat} {regs cpu : List Nat} {devs : List DevState}
    {image : List (Nat × List Byte)} {n : Snapshot} (hcycles : cycles < 2 ^ 64) (hframe : frame < 2 ^ 64)
    (hregs : ∀ v ∈ regs, v < 2 ^ 64) (hcpu : ∀ v ∈ cpu, v < 2 ^ 64) :
    snapshotOfFields p cycles frame regs cpu devs image = some n ↔
      (n.version = p.snapshotVersion ∧ n.profileId = p.profileId ∧ n.ValuesFit p) ∧
      cycles = n.cycles.toNat ∧ frame = n.frame.toNat ∧ regs = n.regs.map BitVec.toNat ∧ cpu = cpuFields n ∧
      devs = n.devs ∧ image = n.image := by
  obtain ⟨cycles, rfl⟩ := exists_word hcycles
  obtain ⟨frame, rfl⟩ := exists_word hframe
  obtain ⟨regs, rfl⟩ := exists_words hregs
  constructor
  · intro h
    unfold snapshotOfFields at h
    split at h
    swap
    · cases h
    rename_i pc st code epc bad scr evec run
    split at h
    swap
    · cases h
    rename_i hchecks
    split at h
    swap
    · cases h
    rename_i c r hcode hrun
    simp only [List.forall_mem_cons] at hcpu
    obtain ⟨hpc, -, -, hepc, hbad, hscr, hevec, hfields⟩ := hcpu
    obtain ⟨pc, rfl⟩ := exists_word hpc
    obtain ⟨epc, rfl⟩ := exists_word hepc
    obtain ⟨bad, rfl⟩ := exists_word hbad
    obtain ⟨scr, rfl⟩ := exists_word hscr
    obtain ⟨evec, rfl⟩ := exists_word hevec
    rw [map_ofNat_map_toNat] at h
    simp only [BitVec.ofNat_toNat, BitVec.setWidth_eq] at h
    cases h
    obtain ⟨hr, hpc, hepc, hevec, haligned, hbad, hscr, hst⟩ := hchecks
    refine ⟨⟨rfl, rfl, by simpa using hr, hpc, hepc, hevec, haligned, hbad, hscr⟩, rfl, rfl, rfl, ?_, rfl, rfl⟩
    rw [cpuFields, statusWord_of_statusFieldOk hst, ← causeOfNumber_eq_some_iff.mp hcode,
      ← (runOfFields_eq_some_iff hfields).mp hrun]
    rfl
  · rintro ⟨⟨hversion, hid, hfit⟩, hc, hf, hr, rfl, rfl, rfl⟩
    obtain rfl := BitVec.eq_of_toNat_eq hc
    obtain rfl := BitVec.eq_of_toNat_eq hf
    have hregsOk : (n.regs.map BitVec.toNat).all (fun v => decide (v < 2 ^ p.xlen.bits)) = true := by
      simpa using hfit.regs
    have hcons : cpuFields n = n.pc.toNat :: (statusWord n.status).toNat :: (causeNumber n.causeCode).toNat ::
        n.epc.toNat :: n.badaddr.toNat :: n.scratch.toNat :: n.evec.toNat :: runFields n.run := rfl
    simp only [hr, hcons, snapshotOfFields]
    rw [if_pos ⟨hregsOk, hfit.pc, hfit.epc, hfit.evec, hfit.aligned, hfit.badaddr, hfit.scratch,
      statusFieldOk_statusWord n.status⟩, causeOfNumber_causeNumber, runOfFields_runFields]
    simp only [map_ofNat_map_toNat, BitVec.ofNat_toNat, BitVec.setWidth_eq, statusOfWord_statusWord, ← hversion, ← hid]

theorem runFields_length (r : RunState) : (runFields r).length = 4 := by
  obtain _ | _ | _ := r <;> rfl

theorem cpuFields_length (n : Snapshot) : (cpuFields n).length = 11 := by
  rw [cpuFields, List.length_append, runFields_length]
  rfl

theorem causeNumber_toNat_lt (c : Cause) : (causeNumber c).toNat < 2 ^ 64 := (causeNumber c).isLt.trans (by decide)

/-- Every field of the run state fits its u64. -/
theorem runFields_lt (r : RunState) : ∀ v ∈ runFields r, v < 2 ^ 64 := by
  obtain _ | _ | ⟨c, epc, info⟩ := r
  · decide
  · decide
  · simp only [runFields, List.forall_mem_cons]
    exact ⟨by decide, causeNumber_toNat_lt c, epc.isLt, info.isLt, nofun⟩

/-- Every CPU field fits its u64. -/
theorem cpuFields_lt (n : Snapshot) : ∀ v ∈ cpuFields n, v < 2 ^ 64 := by
  simp only [cpuFields, List.forall_mem_append, List.forall_mem_cons]
  exact ⟨⟨n.pc.isLt, BitVec.isLt _, causeNumber_toNat_lt _, n.epc.isLt, n.badaddr.isLt, n.scratch.isLt, n.evec.isLt,
    nofun⟩, runFields_lt n.run⟩

/-! ### The body and the blob -/

/-- What parseBody reads, part by part (R179). -/
theorem parseBody_some {p : Profile} {b : List Byte} {n : Snapshot} :
    parseBody p b = some n ↔
      ∃ cycles frame b1 regs b2 cpu b3 devs b4 image, takeU64s 2 b = some ([cycles, frame], b1) ∧
        takeU64s p.nregs b1 = some (regs, b2) ∧ takeU64s 11 b2 = some (cpu, b3) ∧
        takeDevices p.devices b3 = some (devs, b4) ∧ takeImage (memRanges p) b4 = some (image, []) ∧
        snapshotOfFields p cycles frame regs cpu devs image = some n := by
  constructor
  · intro h
    unfold parseBody at h
    split at h
    swap
    · cases h
    rename_i hcounters
    split at h
    · cases h
    rename_i hregs
    split at h
    · cases h
    rename_i hcpu
    split at h
    · cases h
    rename_i hdevs
    split at h
    swap
    · cases h
    rename_i himage
    exact ⟨_, _, _, _, _, _, _, _, _, _, hcounters, hregs, hcpu, hdevs, himage, h⟩
  · rintro ⟨cycles, frame, b1, regs, b2, cpu, b3, devs, b4, image, hcounters, hregs, hcpu, hdevs, himage, h⟩
    simp only [parseBody, hcounters, hregs, hcpu, hdevs, himage, h]

/-- A snapshot of a machine of the profile, as Restore's checks see it: its header, the number and the size of its values,
and its memory records are the profile's (R179). -/
structure Snapshot.Fits (p : Profile) (n : Snapshot) : Prop where
  version   : n.version = p.snapshotVersion
  profileId : n.profileId = p.profileId
  values    : n.ValuesFit p
  regCount  : n.regs.length = p.nregs
  image     : List.Forall₂ entryFits (memRanges p) n.image

/-- A blob after its first 8 bytes, with the given strings in its device records (R177). -/
def Snapshot.bodyWith (n : Snapshot) (strings : List (List Byte)) : List Byte :=
  u64s [n.cycles.toNat, n.frame.toNat] ++ (u64s (n.regs.map BitVec.toNat) ++ (u64s (cpuFields n) ++
    (strings.flatMap lengthPrefixed ++ (n.image.flatMap memoryRecord ++ []))))

/-- A blob with the given strings in its device records (R177). -/
def Snapshot.blobWith (n : Snapshot) (strings : List (List Byte)) : List Byte :=
  leBytes 4 n.version.toNat ++ (leBytes 4 n.profileId.toNat ++ n.bodyWith strings)

/-- A snapshot's blob has what each device serializes to in its device records (R177). -/
theorem toBlob_eq_blobWith (n : Snapshot) : n.toBlob = n.blobWith (n.devs.map DevState.serialize) := by
  simp [Snapshot.toBlob, Snapshot.blobWith, Snapshot.bodyWith, List.flatMap_map, ← deviceRecord_eq, u64s]

/-- The body of a blob is accepted exactly when it is that of a snapshot that fits the profile, with strings that stand for
its devices (R179). -/
theorem parseBody_eq_some_iff {p : Profile} {b : List Byte} {n : Snapshot} :
    parseBody p b = some n ↔ n.Fits p ∧ ∃ strings, BytesStandFor p.devices strings n.devs ∧ b = n.bodyWith strings := by
  rw [parseBody_some]
  constructor
  · rintro ⟨cycles, frame, b1, regs, b2, cpu, b3, devs, b4, image, hcounters, hregs, hcpu, hdevs, himage, h⟩
    obtain ⟨-, hlt, rfl⟩ := takeU64s_eq_some_iff.mp hcounters
    obtain ⟨hcount, hregsLt, rfl⟩ := takeU64s_eq_some_iff.mp hregs
    obtain ⟨-, hcpuLt, rfl⟩ := takeU64s_eq_some_iff.mp hcpu
    obtain ⟨strings, hstand, rfl⟩ := takeDevices_eq_some_iff.mp hdevs
    obtain ⟨hfits, rfl⟩ := takeImage_eq_some_iff.mp himage
    obtain ⟨⟨hversion, hid, hvalues⟩, rfl, rfl, rfl, rfl, rfl, rfl⟩ :=
      (snapshotOfFields_eq_some_iff (hlt _ (by simp)) (hlt _ (by simp)) hregsLt hcpuLt).mp h
    exact ⟨⟨hversion, hid, hvalues, by simpa using hcount, hfits⟩, strings, hstand, rfl⟩
  · rintro ⟨hfits, strings, hstand, rfl⟩
    exact ⟨_, _, _, _, _, _, _, _, _, _,
      takeU64s_eq_some_iff.mpr ⟨rfl, map_toNat_lt [n.cycles, n.frame], rfl⟩,
      takeU64s_eq_some_iff.mpr ⟨by simpa using hfits.regCount, map_toNat_lt n.regs, rfl⟩,
      takeU64s_eq_some_iff.mpr ⟨cpuFields_length n, cpuFields_lt n, rfl⟩,
      takeDevices_eq_some_iff.mpr ⟨strings, hstand, rfl⟩,
      takeImage_eq_some_iff.mpr ⟨hfits.image, rfl⟩,
      (snapshotOfFields_eq_some_iff n.cycles.isLt n.frame.isLt (map_toNat_lt n.regs) (cpuFields_lt n)).mpr
        ⟨⟨hfits.version, hfits.profileId, hfits.values⟩, rfl, rfl, rfl, rfl, rfl, rfl⟩⟩

/-- A blob that is long enough and has the profile's header is read from its body (R179). -/
theorem parseBlob_of_header {p : Profile} {b : List Byte} (hlen : 24 ≤ b.length)
    (hversion : leNatAt b 0 4 = p.snapshotVersion.toNat) (hid : leNatAt b 4 4 = p.profileId.toNat) :
    parseBlob p b = (parseBody p (b.drop 8)).elim (.error .malformed) .ok := by
  refine (if_neg hlen.not_gt).trans ((if_neg (not_or.mpr ⟨not_not.mpr hversion, not_not.mpr hid⟩)).trans ?_)
  cases parseBody p (b.drop 8) <;> rfl

/-- Only a blob that is long enough and has the profile's header is accepted (R179). -/
theorem header_of_parseBlob {p : Profile} {b : List Byte} {n : Snapshot} (h : parseBlob p b = .ok n) :
    24 ≤ b.length ∧ leNatAt b 0 4 = p.snapshotVersion.toNat ∧ leNatAt b 4 4 = p.profileId.toNat := by
  rw [parseBlob] at h
  split at h
  · cases h
  rename_i hlen
  split at h
  · cases h
  rename_i hheader
  obtain ⟨hversion, hid⟩ := not_or.mp hheader
  exact ⟨not_lt.mp hlen, not_not.mp hversion, not_not.mp hid⟩

theorem leNatAt_header (n : Snapshot) (strings : List (List Byte)) :
    leNatAt (n.blobWith strings) 0 4 = n.version.toNat ∧ leNatAt (n.blobWith strings) 4 4 = n.profileId.toNat := by
  have hversion := n.version.isLt
  have hid := n.profileId.isLt
  simp [Snapshot.blobWith, leNatAt, List.drop_append]
  omega

theorem drop_eight_blobWith (n : Snapshot) (strings : List (List Byte)) :
    (n.blobWith strings).drop 8 = n.bodyWith strings := by
  simp [Snapshot.blobWith, List.drop_append, List.drop_of_length_le]

theorem blobWith_length (n : Snapshot) (strings : List (List Byte)) : 24 ≤ (n.blobWith strings).length := by
  simp [Snapshot.blobWith, Snapshot.bodyWith, u64s]
  omega

/-- A string of at least 8 bytes is its two u32 fields and the rest. -/
theorem eq_header_append {b : List Byte} (h : 8 ≤ b.length) :
    b = leBytes 4 (leNatAt b 0 4) ++ (leBytes 4 (leNatAt b 4 4) ++ b.drop 8) := by
  rw [leBytes_leNatAt (by omega), leBytes_leNatAt (by omega), List.drop_zero, ← List.drop_drop (i := 4) (j := 4),
    List.take_append_drop, List.take_append_drop]

/-- Restore's checks pass exactly on the blobs of snapshots that fit the profile, with strings that stand for the devices
(R179). -/
theorem parseBlob_eq_ok_iff {p : Profile} {b : List Byte} {n : Snapshot} :
    parseBlob p b = .ok n ↔ n.Fits p ∧ ∃ strings, BytesStandFor p.devices strings n.devs ∧ b = n.blobWith strings := by
  constructor
  · intro h
    obtain ⟨hlen, hversion, hid⟩ := header_of_parseBlob h
    rw [parseBlob_of_header hlen hversion hid] at h
    cases hbody : parseBody p (b.drop 8) with
    | none => simp [hbody] at h
    | some m =>
      simp only [hbody, Option.elim_some, Except.ok.injEq] at h
      obtain ⟨hfits, strings, hstand, hdrop⟩ := parseBody_eq_some_iff.mp (h ▸ hbody)
      refine ⟨hfits, strings, hstand, ?_⟩
      rw [Snapshot.blobWith, ← hdrop, hfits.version, hfits.profileId, ← hversion, ← hid]
      exact eq_header_append (by omega)
  · rintro ⟨hfits, strings, hstand, rfl⟩
    obtain ⟨hversion, hid⟩ := leNatAt_header n strings
    rw [parseBlob_of_header (blobWith_length n strings) (hversion.trans (by rw [hfits.version]))
      (hid.trans (by rw [hfits.profileId])), drop_eight_blobWith,
      parseBody_eq_some_iff.mpr ⟨hfits, strings, hstand, rfl⟩]
    rfl

end Sys2Proof.Machine
end

section
/-! Snapshots of machines: what Capture gives fits the profile, Restore installs it whole, and each undoes the other (R176,
R177, R180, R181). -/

namespace Sys2Proof.Machine

/-! ### The memory ranges (R177) -/

theorem foldr_insertRange_perm (rs : List Range) : (rs.foldr insertRange []).Perm rs := by
  induction rs with
  | nil => rfl
  | cons r rs ih => exact (insertRange_perm r _).trans (ih.cons r)

theorem foldr_insertRange_sorted (rs : List Range) : (rs.foldr insertRange []).Pairwise fun a b => a.start ≤ b.start := by
  induction rs with
  | nil => exact .nil
  | cons r rs ih => exact insertRange_sorted r ih

/-- The memory ranges are the profile's RAM and ROM ranges. -/
theorem memRanges_perm (p : Profile) :
    (memRanges p).Perm (p.ranges.filter fun r => decide (r.kind = .ram ∨ r.kind = .rom)) := by
  simp only [Bool.decide_or]
  exact foldr_insertRange_perm _

theorem mem_memRanges {p : Profile} {r : Range} : r ∈ memRanges p ↔ r ∈ p.ranges ∧ (r.kind = .ram ∨ r.kind = .rom) := by
  rw [(memRanges_perm p).mem_iff, List.mem_filter, decide_eq_true_eq]

theorem noOverlap_iff_pairwise (rs : List Range) : noOverlap rs = true ↔ rs.Pairwise fun r q => rangesApart r q = true := by
  induction rs with
  | nil => simp [noOverlap]
  | cons r rs ih => rw [noOverlap, Bool.and_eq_true, List.all_eq_true, ih, List.pairwise_cons]

theorem rangesApart_symm {r q : Range} (h : rangesApart r q = true) : rangesApart q r = true := by
  rwa [rangesApart, Bool.or_comm]

/-- No two memory ranges of a valid profile overlap (R8). -/
theorem ProfileValid.memRanges_apart {p : Profile} (h : ProfileValid p) :
    (memRanges p).Pairwise fun r q => rangesApart r q = true :=
  ((memRanges_perm p).pairwise_iff fun hrq => rangesApart_symm hrq).mpr
    (((noOverlap_iff_pairwise _).mp h.noOverlap).sublist List.filter_sublist)

/-! ### The memory of an image (R180) -/

/-- Two spans of bytes, each as its start and its length, share no address. -/
def spansApart (x y : Nat × Nat) : Prop := x.1 + x.2 ≤ y.1 ∨ y.1 + y.2 ≤ x.1

/-- The span of an image's entry. -/
def entrySpan (e : Nat × List Byte) : Nat × Nat := (e.1, e.2.length)

/-- The entries of an image cover its ranges, one by one. -/
theorem map_entrySpan {rs : List Range} {image : List (Nat × List Byte)} (h : List.Forall₂ entryFits rs image) :
    image.map entrySpan = rs.map fun r => (r.start, r.length) := by
  induction h with
  | nil => rfl
  | cons hfits _ ih =>
    obtain ⟨hstart, hlength, -⟩ := hfits
    rw [List.map_cons, List.map_cons, ih, entrySpan, hstart, hlength]

/-- The entries of an image of a valid profile share no address. -/
theorem ProfileValid.entries_apart {p : Profile} (h : ProfileValid p) {image : List (Nat × List Byte)}
    (hfits : List.Forall₂ entryFits (memRanges p) image) :
    image.Pairwise fun e f => spansApart (entrySpan e) (entrySpan f) := by
  rw [← List.pairwise_map (R := spansApart), map_entrySpan hfits, List.pairwise_map]
  exact h.memRanges_apart.imp fun hrq => by simpa [rangesApart, spansApart] using hrq

/-- The span of an image's entry is that of a memory range. -/
theorem exists_range_of_entry {rs : List Range} {image : List (Nat × List Byte)} (h : List.Forall₂ entryFits rs image)
    {e : Nat × List Byte} (he : e ∈ image) : ∃ r ∈ rs, r.start = e.1 ∧ r.length = e.2.length := by
  have hspan := List.mem_map_of_mem (f := entrySpan) he
  rw [map_entrySpan h, List.mem_map] at hspan
  obtain ⟨r, hr, heq⟩ := hspan
  exact ⟨r, hr, congrArg Prod.fst heq, congrArg Prod.snd heq⟩

/-- Write one entry of an image into memory. -/
def writeEntry (m : Memory) (e : Nat × List Byte) : Memory := m.writeBytes e.1 e.2

theorem memOfImage_eq_foldl (image : List (Nat × List Byte)) : memOfImage image = image.foldl writeEntry [] := rfl

theorem wf_memOfImage (image : List (Nat × List Byte)) : (memOfImage image).wf :=
  List.foldlRecOn image writeEntry wf_nil fun _ hm e _ => wf_writeBytes hm e.1 e.2

/-- The memory of an image lists only addresses of its entries. -/
theorem mem_memOfImage {image : List (Nat × List Byte)} {c : Host.Cell} (hc : c ∈ memOfImage image) :
    ∃ e ∈ image, e.1 ≤ c.1 ∧ c.1 < e.1 + e.2.length := by
  revert c
  rw [memOfImage_eq_foldl]
  refine List.foldlRecOn image writeEntry
    (motive := fun m => ∀ {c : Host.Cell}, c ∈ m → ∃ e ∈ image, e.1 ≤ c.1 ∧ c.1 < e.1 + e.2.length)
    (fun hc => absurd hc List.not_mem_nil) fun m hm e he c hc => ?_
  exact (mem_writeBytes hc).elim hm fun hspan => ⟨e, he, hspan⟩

/-- Writing entries apart from a span leaves the bytes of the span. -/
theorem readBytes_foldl_writeEntry {image : List (Nat × List Byte)} {a n : Nat}
    (h : ∀ e ∈ image, spansApart (a, n) (entrySpan e)) (m : Memory) :
    (image.foldl writeEntry m).readBytes a n = m.readBytes a n :=
  List.foldlRecOn image writeEntry (motive := fun m' => m'.readBytes a n = m.readBytes a n) rfl fun m' hm' e he => by
    rw [← hm']
    refine readBytes_congr a n fun i hi => read_writeBytes_outside m' ?_
    have hapart : a + n ≤ e.1 ∨ e.1 + e.2.length ≤ a := h e he
    omega

/-- The memory of an image whose entries are apart holds the bytes of each. -/
theorem readBytes_memOfImage {image : List (Nat × List Byte)}
    (h : image.Pairwise fun e f => spansApart (entrySpan e) (entrySpan f)) {e : Nat × List Byte} (he : e ∈ image) :
    (memOfImage image).readBytes e.1 e.2.length = e.2 := by
  obtain ⟨before, after, rfl⟩ := List.append_of_mem he
  obtain ⟨-, hafter, -⟩ := List.pairwise_append.mp h
  rw [memOfImage_eq_foldl, List.foldl_append, List.foldl_cons,
    readBytes_foldl_writeEntry (List.pairwise_cons.mp hafter).1]
  exact readBytes_writeBytes (wf_memOfImage before) e.1 e.2

/-- An address that memory does not list reads as unlisted (R54). -/
theorem read_of_not_listed {m : Memory} {a : Nat} (h : ∀ c ∈ m, c.1 ≠ a) : m.read a = Memory.unlisted := by
  induction m with
  | nil => rfl
  | cons c m ih =>
    obtain ⟨hc, hm⟩ := List.forall_mem_cons.mp h
    rw [read_cons, if_neg hc.symm, ih hm]

theorem read_of_readBytes_eq {m m' : Memory} {a n b : Nat} (h : m.readBytes a n = m'.readBytes a n) (hstart : a ≤ b)
    (hend : b < a + n) : m.read b = m'.read b := by
  have hm := readBytes_getD m a n (b - a) (by omega)
  rw [h, readBytes_getD m' a n (b - a) (by omega), Nat.add_sub_cancel' hstart] at hm
  exact hm.symm

/-! ### Capture -/

/-- The image that Capture takes has the profile's ranges. -/
theorem entryFits_rangeImage {p : Profile} (h : ProfileValid p) (hlen : ∀ r ∈ p.ranges, r.length < 2 ^ 64) (m : Memory) :
    List.Forall₂ entryFits (memRanges p) ((memRanges p).map (rangeImage m)) := by
  rw [List.forall₂_map_right_iff, List.forall₂_same]
  intro r hr
  obtain ⟨hmem, -⟩ := mem_memRanges.mp hr
  have hinside := h.inside r hmem
  have hpos := ((legalValues_iff p).mp h.legalValues).2.1 r hmem
  have haddr : 2 ^ p.addrBits ≤ 2 ^ 64 := Nat.pow_le_pow_right (by decide) (h.addrBitsLe.trans (xlen_bits_le p))
  exact ⟨rfl, readBytes_length m r.start r.length, by omega, hlen r hmem⟩

/-- What a legal machine's Capture gives fits its profile (R176, R179). -/
theorem State.Inv.capture_fits {s : State} (h : s.Inv) (hlen : ∀ r ∈ s.profile.ranges, r.length < 2 ^ 64) :
    s.capture.Fits s.profile := by
  obtain ⟨hpc, hepc, hevec, hbad, hscratch⟩ := h.controlFits
  refine ⟨rfl, rfl, ⟨fun v hv => ?_, hpc, hepc, hevec, h.vectorAligned, hbad, hscratch⟩, ?_,
    entryFits_rangeImage h.profileValid hlen s.mem⟩
  · obtain ⟨i, hi, rfl⟩ := List.mem_iff_getElem.mp (List.mem_of_mem_take hv)
    exact (h.registersFit ⟨i, by simpa using hi⟩).1
  · simp [State.capture, h.profileValid.nregs.2]

theorem deserialize_timer {d : DeviceDecl} (h : d.kind = .timer) (bs : List Byte) :
    DevState.deserialize d bs = (Timer.deserialize bs).map .timer := by
  simp only [DevState.deserialize, h]

theorem deserialize_opaque {d : DeviceDecl} (h : d.kind ≠ .timer) (bs : List Byte) :
    DevState.deserialize d bs = ((Config.handler d.handler).deserialize bs).map (.foreign d.handler) := by
  cases hk : d.kind <;> simp_all [DevState.deserialize]

theorem fits_timer_iff {d : DeviceDecl} (h : d.kind = .timer) {st : DevState} :
    DevState.fits d st = true ↔ ∃ t, st = .timer t := by
  cases st <;> simp [DevState.fits, h]

theorem fits_opaque_iff {d : DeviceDecl} (h : d.kind ≠ .timer) {st : DevState} :
    DevState.fits d st = true ↔ ∃ bs, st = .foreign d.handler bs ∧ (Config.handler d.handler).legal bs = true := by
  cases st <;> cases hk : d.kind <;> simp_all [DevState.fits]

/-- A state that a declared device can be in is the one its bytes stand for (R58, R160). -/
theorem deserialize_of_fits {d : DeviceDecl} {st : DevState} (h : DevState.fits d st = true) :
    DevState.deserialize d st.serialize = some st := by
  by_cases hk : d.kind = .timer
  · obtain ⟨t, rfl⟩ := (fits_timer_iff hk).mp h
    rw [deserialize_timer hk, DevState.serialize, deserialize_serialize, Option.map_some]
  · obtain ⟨bs, rfl, hlegal⟩ := (fits_opaque_iff hk).mp h
    rw [deserialize_opaque hk, DevState.serialize, (Config.handler d.handler).deserialize_serialize bs hlegal,
      Option.map_some]

/-- The state that bytes stand for is one the declared device can be in (R58). -/
theorem fits_of_deserialize {d : DeviceDecl} {st : DevState} {bs : List Byte} (h : DevState.deserialize d bs = some st) :
    DevState.fits d st = true := by
  by_cases hk : d.kind = .timer
  · rw [deserialize_timer hk] at h
    obtain ⟨t, -, rfl⟩ := Option.map_eq_some_iff.mp h
    exact (fits_timer_iff hk).mpr ⟨t, rfl⟩
  · rw [deserialize_opaque hk] at h
    obtain ⟨bs', hbs, rfl⟩ := Option.map_eq_some_iff.mp h
    exact (fits_opaque_iff hk).mpr ⟨bs', rfl, (Config.handler d.handler).deserialize_legal _ _ hbs⟩

/-- The bytes of device states stand for them (R58). -/
theorem bytesStandFor_serialize {ds : List DeviceDecl} {sts : List DevState}
    (h : List.Forall₂ (fun d st => DevState.fits d st = true) ds sts) (hlen : ∀ st ∈ sts, st.serialize.length < 2 ^ 32) :
    BytesStandFor ds (sts.map DevState.serialize) sts := by
  induction h with
  | nil => exact .nil
  | cons hfits _ ih =>
    obtain ⟨hst, hrest⟩ := List.forall_mem_cons.mp hlen
    exact .cons hst (deserialize_of_fits hfits) (ih hrest)

/-- Device states that bytes stand for are ones the devices can be in (R58). -/
theorem BytesStandFor.fits {ds : List DeviceDecl} {strings : List (List Byte)} {sts : List DevState}
    (h : BytesStandFor ds strings sts) : List.Forall₂ (fun d st => DevState.fits d st = true) ds sts := by
  induction h with
  | nil => exact .nil
  | cons _ hst _ ih => exact .cons (fits_of_deserialize hst) ih

/-- The bytes that stand for Timers are those that the Timers serialize to (R160). -/
theorem BytesStandFor.eq_serialize {ds : List DeviceDecl} {strings : List (List Byte)} {sts : List DevState}
    (h : BytesStandFor ds strings sts) (htimers : ∀ d ∈ ds, d.kind = .timer) : strings = sts.map DevState.serialize := by
  induction h with
  | nil => rfl
  | cons _ hst _ ih =>
    obtain ⟨hd, hds⟩ := List.forall_mem_cons.mp htimers
    rw [deserialize_timer hd] at hst
    obtain ⟨t, ht, rfl⟩ := Option.map_eq_some_iff.mp hst
    obtain ⟨-, -, -, hbytes⟩ := serialize_of_deserialize ht
    rw [List.map_cons, ← ih hds, DevState.serialize, hbytes]

/-- The checks of Restore pass on a legal machine's own Capture and read it back (R181). -/
theorem State.Inv.parseBlob_capture {s : State} (h : s.Inv) (hdevs : ∀ d ∈ s.devs, d.serialize.length < 2 ^ 32)
    (hlen : ∀ r ∈ s.profile.ranges, r.length < 2 ^ 64) : parseBlob s.profile s.capture.toBlob = .ok s.capture :=
  parseBlob_eq_ok_iff.mpr
    ⟨h.capture_fits hlen, _, bytesStandFor_serialize h.devicesFit hdevs, toBlob_eq_blobWith s.capture⟩

/-! ### Restore -/

/-- Restore succeeds at a boundary on a blob that passes the checks, and installs what it holds (R175, R179, R180). -/
theorem restore_eq_ok_iff {s t : State} {b : List Byte} :
    s.restore b = .ok t ↔ s.phase = .boundary ∧ ∃ n, parseBlob s.profile b = .ok n ∧ t = s.install n := by
  unfold State.restore
  cases hp : s.phase with
  | inBurst => simp
  | boundary => cases hb : parseBlob s.profile b <;> simp [eq_comm]

theorem regsOfList_getElem (rs : List Word) (i : Fin 16) : (regsOfList rs)[i] = rs.getD i.val 0 := by
  simp [regsOfList]

/-- The registers of a list are its values, when it has no more than 16. -/
theorem take_regsOfList {rs : List Word} (h : rs.length ≤ 16) : (regsOfList rs).toList.take rs.length = rs := by
  refine List.ext_getElem (by simpa using h) fun i hi hi' => ?_
  simp [regsOfList, hi']

/-- Installing the registers that Capture takes gives them back; the places the profile does not have hold 0. -/
theorem State.Inv.regsOfList_capture {s : State} (h : s.Inv) : regsOfList s.capture.regs = s.regs := by
  refine Vector.ext fun i hi => ?_
  have hzero := (h.registersFit ⟨i, hi⟩).2
  by_cases hn : i < s.profile.nregs
  · simp [regsOfList, State.capture, hn, hi]
  · simpa [regsOfList, State.capture, hn] using (hzero (not_lt.mp hn)).symm

/-- Installing the image that Capture takes gives memory back (R54). -/
theorem State.Inv.memOfImage_capture {s : State} (h : s.Inv) (hlen : ∀ r ∈ s.profile.ranges, r.length < 2 ^ 64) :
    memOfImage s.capture.image = s.mem := by
  have hvalid := h.profileValid
  have hfits := (h.capture_fits hlen).image
  refine memory_ext (wf_memOfImage _) h.memoryCanonical fun a => ?_
  by_cases ha : inMemory s.profile a
  · obtain ⟨r, hr, hk, hstart, hend⟩ := ha
    have hentry : rangeImage s.mem r ∈ s.capture.image := List.mem_map_of_mem (mem_memRanges.mpr ⟨hr, hk⟩)
    have hbytes := readBytes_memOfImage (hvalid.entries_apart hfits) hentry
    simp only [rangeImage, readBytes_length] at hbytes
    exact read_of_readBytes_eq hbytes hstart hend
  · have hlisted : ∀ c ∈ s.mem, c.1 ≠ a := by
      rintro c hc rfl
      exact ha (h.memoryMapped c hc)
    rw [read_of_not_listed hlisted]
    refine read_of_not_listed ?_
    rintro c hc rfl
    obtain ⟨e, he, hstart, hend⟩ := mem_memOfImage hc
    obtain ⟨r, hr, hrstart, hrlength⟩ := exists_range_of_entry hfits he
    obtain ⟨hmem, hk⟩ := mem_memRanges.mp hr
    exact ha ⟨r, hmem, hk, by omega, by omega⟩

/-- A machine at a boundary with an empty queue, installed in one of the same profile, is that machine with the flags
cleared; the report is the model's own and stays (R180, log 4). -/
theorem State.Inv.install_capture {s m : State} (h : s.Inv) (hphase : s.phase = .boundary) (hqueue : s.queue = [])
    (hlen : ∀ r ∈ s.profile.ranges, r.length < 2 ^ 64) (hprofile : m.profile = s.profile) :
    m.install s.capture = { s with stopReq := false, captureReq := false, cStart := 0, report := m.report } := by
  rw [State.install, h.regsOfList_capture, h.memOfImage_capture hlen, hprofile, ← hphase, ← hqueue]
  rfl

/-- Capture after installing a snapshot that fits gives that snapshot (R176, R180). -/
theorem capture_install {s : State} {n : Snapshot} (hvalid : ProfileValid s.profile) (h : n.Fits s.profile) :
    (s.install n).capture = n := by
  have himage : (memRanges s.profile).map (rangeImage (memOfImage n.image)) = n.image := by
    have hspans : (memRanges s.profile).map (rangeImage (memOfImage n.image)) =
        (n.image.map entrySpan).map fun x => (x.1, (memOfImage n.image).readBytes x.1 x.2) := by
      rw [map_entrySpan h.image, List.map_map]
      rfl
    rw [hspans, List.map_map]
    refine (List.map_congr_left fun e he => ?_).trans (List.map_id n.image)
    exact congrArg (Prod.mk e.1) (readBytes_memOfImage (hvalid.entries_apart h.image) he)
  have hregs : (regsOfList n.regs).toList.take s.profile.nregs = n.regs := by
    rw [← h.regCount]
    exact take_regsOfList (h.regCount.trans_le hvalid.nregs.2)
  simp only [State.capture, State.install, himage, hregs, ← h.version, ← h.profileId]

/-- Installing a snapshot that fits keeps the machine legal (R180). -/
theorem State.Inv.install {s : State} (h : s.Inv) {n : Snapshot} (hfits : n.Fits s.profile)
    (hdevs : List.Forall₂ (fun d st => DevState.fits d st = true) s.profile.devices n.devs) : (s.install n).Inv where
  profileLegal    := h.profileLegal
  registersFit    := fun i => by
    change (regsOfList n.regs)[i].toNat < 2 ^ s.profile.xlen.bits ∧ (s.profile.nregs ≤ i.val → (regsOfList n.regs)[i] = 0)
    rw [regsOfList_getElem, ← hfits.regCount]
    by_cases hi : i.val < n.regs.length
    · rw [List.getD_eq_getElem _ _ hi]
      exact ⟨hfits.values.regs _ (List.getElem_mem hi), fun hle => absurd hi hle.not_gt⟩
    · rw [List.getD_eq_default _ _ (not_lt.mp hi)]
      exact ⟨Nat.two_pow_pos _, fun _ => rfl⟩
  controlFits     := ⟨hfits.values.pc, hfits.values.epc, hfits.values.evec, hfits.values.badaddr, hfits.values.scratch⟩
  vectorAligned   := hfits.values.aligned
  memoryCanonical := wf_memOfImage n.image
  memoryMapped    := fun c hc => by
    obtain ⟨e, he, hstart, hend⟩ := mem_memOfImage hc
    obtain ⟨r, hr, hrstart, hrlength⟩ := exists_range_of_entry hfits.image he
    obtain ⟨hmem, hk⟩ := mem_memRanges.mp hr
    exact ⟨r, hmem, hk, by omega, by omega⟩
  devicesFit      := hdevs
  queueValid      := nofun
  frameBounded    := nofun

/-- What Restore answers of a legal machine is legal (R179, R180). -/
theorem State.Inv.restore {s t : State} (h : s.Inv) {b : List Byte} (ht : s.restore b = .ok t) : t.Inv := by
  obtain ⟨-, n, hn, rfl⟩ := restore_eq_ok_iff.mp ht
  obtain ⟨hfits, strings, hstand, -⟩ := parseBlob_eq_ok_iff.mp hn
  exact h.install hfits hstand.fits

/-- Settles O55: the checks read the machine's own Capture back, and installing it gives the machine. -/
theorem restoreOfCapture : Obligations.RestoreOfCapture := by
  intro s h hphase hqueue hdevs hlen
  refine ⟨_, restore_eq_ok_iff.mpr ⟨hphase, _, h.parseBlob_capture hdevs hlen, rfl⟩,
    h.install_capture hphase hqueue hlen rfl, ?_⟩
  rw [h.install_capture hphase hqueue hlen rfl, State.hostCapture, hphase]
  rfl

/-- Settles O56: an accepted blob is that of the snapshot installed, and a Timer's record is what it serializes to. -/
theorem captureOfRestore : Obligations.CaptureOfRestore := by
  intro s t b h htimers ht
  obtain ⟨-, n, hn, rfl⟩ := restore_eq_ok_iff.mp ht
  obtain ⟨hfits, strings, hstand, rfl⟩ := parseBlob_eq_ok_iff.mp hn
  rw [hstand.eq_serialize htimers, ← toBlob_eq_blobWith]
  exact congrArg (fun m : Snapshot => Except.ok m.toBlob) (capture_install h.profileValid hfits)

end Sys2Proof.Machine
end

section
/-! When a snapshot operation fails, and that a failure changes nothing (R175, R178, R179). -/

namespace Sys2Proof.Machine

/-! ### Check 3, field by field -/

/-- Check 3 on a blob's fields is what the fields must pass to make a snapshot (R179). -/
theorem cpuFieldsPass_iff {p : Profile} {b : List Byte} {cycles frame : Nat} {devs : List DevState}
    {image : List (Nat × List Byte)} :
    (∃ n, snapshotOfFields p cycles frame ((List.range p.nregs).map (blobField b))
        ((List.range 11).map fun j => blobField b (p.nregs + j)) devs image = some n) ↔ CpuFieldsPass p b := by
  rw [snapshotOfFields_some]
  simp only [List.forall_mem_map, List.mem_range, statusFieldOk, Bool.and_eq_true, decide_eq_true_eq, Nat.add_zero]
  constructor
  · rintro ⟨⟨hregs, hpc, hepc, hevec, haligned, hbad, hscratch, hstatus⟩, hcode, hkind, hnofatal, hfatal⟩
    exact ⟨hregs, hpc, hstatus, hcode, hepc, hbad, hscratch, ⟨hevec, haligned⟩, hkind, hnofatal, hfatal⟩
  · rintro ⟨hregs, hpc, hstatus, hcode, hepc, hbad, hscratch, ⟨hevec, haligned⟩, hkind, hnofatal, hfatal⟩
    exact ⟨⟨hregs, hpc, hepc, hevec, haligned, hbad, hscratch, hstatus⟩, hcode, hkind, hnofatal, hfatal⟩

/-! ### Checks 4 to 6 -/

/-- What follows a blob's registers and CPU fields: one record per device, one per memory range, no byte more (R179). -/
def recordsPass (p : Profile) (b : List Byte) : Prop :=
  ∃ devs mems : List (List Byte), b = devs.flatten ++ mems.flatten ∧
    List.Forall₂ deviceRecordPasses p.devices devs ∧ List.Forall₂ memoryRecordPasses (memRanges p) mems

theorem recordsPass_iff {p : Profile} {b : List Byte} :
    recordsPass p b ↔ ∃ devs b' image, takeDevices p.devices b = some (devs, b') ∧
      takeImage (memRanges p) b' = some (image, []) := by
  constructor
  · rintro ⟨devs, mems, hb, hdevs, hmems⟩
    obtain ⟨sts, hsts⟩ := takeDevices_some.mpr ⟨devs, hb, hdevs⟩
    obtain ⟨image, himage⟩ := takeImage_some.mpr ⟨mems, (List.append_nil _).symm, hmems⟩
    exact ⟨sts, _, image, hsts, himage⟩
  · rintro ⟨sts, b', image, hsts, himage⟩
    obtain ⟨devs, rfl, hdevs⟩ := takeDevices_some.mp ⟨sts, hsts⟩
    obtain ⟨mems, rfl, hmems⟩ := takeImage_some.mp ⟨image, himage⟩
    exact ⟨devs, mems, by rw [List.append_nil], hdevs, hmems⟩

/-- Checks 3 to 6 by their parts: enough bytes for the fields, the fields, and the records after them. -/
theorem passesChecks_iff {p : Profile} {b : List Byte} :
    passesChecks p b ↔ 24 + 8 * (p.nregs + 11) ≤ b.length ∧ CpuFieldsPass p b ∧
      recordsPass p (b.drop (24 + 8 * (p.nregs + 11))) := by
  constructor
  · rintro ⟨head, devs, mems, rfl, hlen, hfields, hdevs, hmems⟩
    refine ⟨?_, hfields, devs, mems, ?_, hdevs, hmems⟩
    · rw [List.append_assoc, List.length_append]
      omega
    · rw [List.append_assoc, List.drop_left' hlen]
  · rintro ⟨hlen, hfields, devs, mems, hb, hdevs, hmems⟩
    refine ⟨b.take (24 + 8 * (p.nregs + 11)), devs, mems, ?_, List.length_take_of_le hlen, hfields, hdevs, hmems⟩
    rw [List.append_assoc, ← hb, List.take_append_drop]

/-- A run of u64 fields of a blob, from its field k on (R177). -/
theorem takeU64s_blobField {b : List Byte} {n k : Nat} {r : List Byte} {vs : List Nat} (h : 24 + 8 * k ≤ b.length) :
    takeU64s n (b.drop (24 + 8 * k)) = some (vs, r) ↔ 24 + 8 * (k + n) ≤ b.length ∧
      vs = (List.range n).map (fun j => blobField b (k + j)) ∧ r = b.drop (24 + 8 * (k + n)) := by
  rw [takeU64s_some]
  simp only [leNatAt_drop, List.drop_drop, List.length_drop, blobField, Nat.mul_add, Nat.add_assoc]
  have : 8 * n ≤ b.length - (24 + 8 * k) ↔ 24 + (8 * k + 8 * n) ≤ b.length := by omega
  rw [this]

/-- The body of a long enough blob is read exactly when the blob passes checks 3 to 6 (R179). -/
theorem parseBody_some_iff_passesChecks {p : Profile} {b : List Byte} (hlen : 24 ≤ b.length) :
    (∃ n, parseBody p (b.drop 8) = some n) ↔ passesChecks p b := by
  have hcounters : takeU64s 2 (b.drop 8) = some ([leNatAt b 8 8, leNatAt b 16 8], b.drop (24 + 8 * 0)) :=
    takeU64s_some.mpr ⟨by rw [List.length_drop]; omega, by simp [List.range_succ, leNatAt_drop], by rw [List.drop_drop]⟩
  rw [passesChecks_iff, recordsPass_iff]
  simp only [parseBody_some]
  constructor
  · rintro ⟨n, cycles, frame, b1, regs, b2, cpu, b3, devs, b4, image, h, hregs, hcpu, hdevs, himage, hn⟩
    cases hcounters.symm.trans h
    obtain ⟨hlen1, rfl, rfl⟩ := (takeU64s_blobField (by omega)).mp hregs
    obtain ⟨hlen2, rfl, rfl⟩ := (takeU64s_blobField hlen1).mp hcpu
    simp only [Nat.zero_add] at hlen2 hdevs hn
    exact ⟨hlen2, cpuFieldsPass_iff.mp ⟨n, hn⟩, devs, b4, image, hdevs, himage⟩
  · rintro ⟨hlen2, hfields, devs, b4, image, hdevs, himage⟩
    obtain ⟨n, hn⟩ := cpuFieldsPass_iff.mpr hfields
    exact ⟨n, _, _, _, _, _, _, _, devs, b4, image, hcounters,
      (takeU64s_blobField (by omega)).mpr ⟨by omega, by simp only [Nat.zero_add], by simp only [Nat.zero_add]⟩,
      (takeU64s_blobField (by omega)).mpr ⟨hlen2, rfl, rfl⟩, hdevs, himage, hn⟩

/-! ### The outcomes of Restore -/

theorem restore_of_boundary {s : State} (hp : s.phase = .boundary) (b : List Byte) :
    s.restore b = (parseBlob s.profile b).map s.install := by
  rw [State.restore, hp]
  cases parseBlob s.profile b <;> rfl

theorem parseBlob_of_short (p : Profile) {b : List Byte} (h : b.length < 24) : parseBlob p b = .error .malformed :=
  if_pos h

theorem parseBlob_of_other_header {p : Profile} {b : List Byte} (hlen : 24 ≤ b.length)
    (h : leNatAt b 0 4 ≠ p.snapshotVersion.toNat ∨ leNatAt b 4 4 ≠ p.profileId.toNat) :
    parseBlob p b = .error .versionMismatch :=
  (if_neg hlen.not_gt).trans (if_pos h)

/-- Settles O58: R179's checks in their order; the host call hands an error on and keeps the machine. -/
theorem snapshotErrors : Obligations.SnapshotErrors := by
  refine ⟨fun s b hp => ⟨by rw [State.hostCapture, hp], by rw [State.restore, hp]⟩, fun s b hp => ?boundary,
    fun p => ⟨memRanges_perm p, foldr_insertRange_sorted _⟩, fun s b e he => by rw [State.hostCall, he],
    fun s e he => by rw [State.hostCall, he]⟩
  case boundary =>
    rw [restore_of_boundary hp]
    refine ⟨fun h => by rw [parseBlob_of_short _ h]; rfl, fun hlen h => by rw [parseBlob_of_other_header hlen h]; rfl,
      fun hlen hversion hid => ?_⟩
    rw [parseBlob_of_header hlen hversion hid, ← parseBody_some_iff_passesChecks hlen]
    cases parseBody s.profile (b.drop 8) with
    | some n => exact ⟨fun _ => ⟨_, rfl⟩, fun h => absurd ⟨n, rfl⟩ h⟩
    | none => exact ⟨fun ⟨_, h⟩ => (nomatch h), fun _ => rfl⟩

end Sys2Proof.Machine
end

section
/-! Every host call keeps the machine legal and keeps the profile (R172, R179, R180). -/

namespace Sys2Proof.Machine

/-- The machine t is legal and has the profile of s. -/
def legalFrom (s t : State) : Prop := t.Inv ∧ t.profile = s.profile

/-- A run of steps keeps the machine legal and keeps the profile. -/
theorem legalFrom_runSteps {s t : State} (h : s.Inv) {n : Nat} (ht : runSteps n s = .next t) : legalFrom s t := by
  induction n generalizing s with
  | zero =>
    cases ht
    exact ⟨h, rfl⟩
  | succ n ih =>
    cases hs : step s with
    | next u =>
      rw [runSteps_succ_of_step hs] at ht
      obtain ⟨hinv, hprofile⟩ := ih (h.step hs) ht
      exact ⟨hinv, hprofile.trans (step_profile hs)⟩
    | fault f => exact nomatch f
    | refused r => simp [runSteps, hs] at ht

namespace State.Inv
variable {s : State} (h : s.Inv)
include h

theorem legalFrom_self : legalFrom s s := ⟨h, rfl⟩

theorem arrive (q : Requests) : (s.arrive q).Inv := { h with }

/-- RunFrame is a run of steps (R161, R162). -/
theorem runFrame {t : State} {k : Nat} (ht : s.runFrame k = .next t) : legalFrom s t := by
  cases hp : s.phase with
  | inBurst => simp [State.runFrame, hp] at ht
  | boundary =>
    obtain ⟨n, -, hn⟩ := runFrameIsItsSteps s k hp
    exact legalFrom_runSteps h (hn.trans ht)

theorem runFrameCall (k : Nat) (q : Requests) : legalFrom s (s.runFrameCall k q).2 := by
  unfold State.runFrameCall
  cases hs : (s.arrive q).runFrame k with
  | refused => exact h.legalFrom_self
  | fault f => exact nomatch f
  | next t =>
    have ht : legalFrom s t := (h.arrive q).runFrame hs
    cases hp : t.phase <;> simpa [hp] using ht

theorem runUntilStop (k : Nat) (qs : List Requests) : legalFrom s (s.runUntilStop k qs).2 := by
  induction qs generalizing s with
  | nil => exact h.legalFrom_self
  | cons q qs ih =>
    have hcall := h.runFrameCall k q
    rw [State.runUntilStop]
    split
    · rename_i heq
      rw [heq] at hcall
      obtain ⟨hinv, hprofile⟩ := hcall
      split
      · exact ⟨hinv, hprofile⟩
      · obtain ⟨hrest, hrestProfile⟩ := ih hinv
        exact ⟨hrest, hrestProfile.trans hprofile⟩
    · rename_i heq
      rwa [heq] at hcall

theorem hostCall (c : HostCall) : legalFrom s (s.hostCall c).2 := by
  cases c with
  | runFrame q k => exact h.runFrameCall k q
  | runUntilStop qs k =>
    rw [State.hostCall]
    split
    · exact h.legalFrom_self
    · exact h.runUntilStop k qs
  | requestStop => exact ⟨{ h with }, rfl⟩
  | requestCapture => exact ⟨{ h with }, rfl⟩
  | capture =>
    rw [State.hostCall]
    split <;> exact h.legalFrom_self
  | restore b =>
    rw [State.hostCall]
    split
    · rename_i t ht
      obtain ⟨-, n, -, rfl⟩ := restore_eq_ok_iff.mp ht
      exact ⟨h.restore ht, rfl⟩
    · exact h.legalFrom_self
  | outputViews =>
    rw [State.hostCall]
    split <;> exact h.legalFrom_self

end State.Inv

/-- Settles O49: RunFrame is a run of steps, and Restore installs only snapshots that fit the profile. -/
theorem invKeptByHostCalls : Obligations.InvKeptByHostCalls := fun _ c h => h.hostCall c

end Sys2Proof.Machine
end

section
/-! Determinism from a snapshot (R182): what a restored machine keeps of its own, the request flags and the report, no step
of a burst reads, and what the end of a frame makes of them stands in these fields alone. -/

namespace Sys2Proof.Machine

/-- The machine s with the request flags and the report of m: what a snapshot does not hold, and no instruction reads
(R176, R38, log 4). -/
def State.withHostOf (s m : State) : State :=
  { s with stopReq := m.stopReq, captureReq := m.captureReq, report := m.report }

/-- Two outcomes of a run: machines that differ only in the request flags and the report, or stops for the same reason. -/
inductive Agree : Result → Result → Prop
  | next (s m : State) : Agree (.next s) (.next (s.withHostOf m))
  | fault (f : Fault) : Agree (.fault f) (.fault f)
  | refused (r : Refusal) : Agree (.refused r) (.refused r)

/-- The flags and the report are no part of a snapshot (R176). -/
theorem Agree.sameEnd {x y : Result} (h : Agree x y) : sameEnd x y := by
  cases h with
  | next s m => exact ⟨rfl, rfl⟩
  | fault f => rfl
  | refused r => rfl

section
variable {s t : State} (m : State)

@[simp] theorem withHostOf_profile : (s.withHostOf m).profile = s.profile := rfl
@[simp] theorem withHostOf_mem : (s.withHostOf m).mem = s.mem := rfl
@[simp] theorem withHostOf_devs : (s.withHostOf m).devs = s.devs := rfl
@[simp] theorem withHostOf_run : (s.withHostOf m).run = s.run := rfl
@[simp] theorem withHostOf_phase : (s.withHostOf m).phase = s.phase := rfl
@[simp] theorem withHostOf_cycles : (s.withHostOf m).cycles = s.cycles := rfl
@[simp] theorem withHostOf_frameTarget : (s.withHostOf m).frameTarget = s.frameTarget := rfl

/-! ### Traps and the bus -/

theorem takeTrap_withHostOf (c : Cause) (epc : Addr) (info : Word) :
    (s.withHostOf m).takeTrap c epc info = (s.takeTrap c epc info).withHostOf m := by
  cases hf : s.trapIsFatal c with
  | true => rw [takeTrap_fatal hf, takeTrap_fatal (s := s.withHostOf m) hf]; rfl
  | false => rw [takeTrap_delivered hf, takeTrap_delivered (s := s.withHostOf m) hf]; rfl

theorem raise_withHostOf (c : Cause) (info : Word) : (s.withHostOf m).raise c info = (s.raise c info).withHostOf m :=
  takeTrap_withHostOf m c s.pc info

theorem interruptCheck_withHostOf : (s.withHostOf m).interruptCheck = s.interruptCheck.withHostOf m := by
  rw [State.interruptCheck, State.interruptCheck, apply_ite (State.withHostOf · m), ← takeTrap_withHostOf]
  rfl

theorem retire_withHostOf (n : Nat) : (s.withHostOf m).retire n = (s.retire n).withHostOf m := by
  cases hr : s.run with
  | running => rw [retire_running hr, retire_running (s := s.withHostOf m) hr, ← interruptCheck_withHostOf]; rfl
  | halted r => rw [retire_halted hr, retire_halted (s := s.withHostOf m) hr]; rfl

theorem memRead_withHostOf (a : Addr) (w : Width) :
    (s.withHostOf m).memRead a w = (s.memRead a w).map fun r => (r.1, r.2.withHostOf m) := by
  simp only [State.memRead, withHostOf_profile, withHostOf_mem, withHostOf_devs]
  obtain e | ⟨start, length, _ | _ | d⟩ := busCheck s.profile a w
  · rfl
  · rfl
  · rfl
  · dsimp only
    cases s.devs[d]?.bind fun st => st.read (a.toNat - start) w <;> rfl

theorem memWrite_withHostOf (a : Addr) (w : Width) (v : Word) :
    (s.withHostOf m).memWrite a w v = (s.memWrite a w v).map (State.withHostOf · m) := by
  simp only [State.memWrite, withHostOf_profile, withHostOf_mem, withHostOf_devs]
  obtain e | ⟨start, length, _ | _ | d⟩ := busCheck s.profile a w
  · rfl
  · rfl
  · rfl
  · dsimp only
    cases s.devs[d]?.bind fun st => st.write (a.toNat - start) w v <;> rfl

/-! ### Instructions -/

theorem load_withHostOf {w : Width} {ext : Word → Word} {rd rs1 : Reg} {imm : BitVec 16}
    (h : load w ext rd rs1 imm s = .next t) : load w ext rd rs1 imm (s.withHostOf m) = .next (t.withHostOf m) := by
  have hread := memRead_withHostOf (s := s) m (effAddr s.profile (s.readReg rs1) imm) w
  rcases hr : s.memRead (effAddr s.profile (s.readReg rs1) imm) w with e | ⟨v, u⟩
  · cases (load_of_error hr).symm.trans h
    rw [hr] at hread
    exact (load_of_error (s := s.withHostOf m) hread).trans (congrArg _ (raise_withHostOf m _ _))
  · cases (load_of_ok hr).symm.trans h
    rw [hr] at hread
    exact load_of_ok (s := s.withHostOf m) hread

theorem store_withHostOf {w : Width} {rs2 rs1 : Reg} {imm : BitVec 16}
    (h : store w rs2 rs1 imm s = .next t) : store w rs2 rs1 imm (s.withHostOf m) = .next (t.withHostOf m) := by
  have hwrite := memWrite_withHostOf (s := s) m (effAddr s.profile (s.readReg rs1) imm) w (s.readReg rs2)
  rcases hw : s.memWrite (effAddr s.profile (s.readReg rs1) imm) w (s.readReg rs2) with e | u
  · cases (store_of_error hw).symm.trans h
    rw [hw] at hwrite
    exact (store_of_error (s := s.withHostOf m) hwrite).trans (congrArg _ (raise_withHostOf m _ _))
  · cases (store_of_ok hw).symm.trans h
    rw [hw] at hwrite
    exact store_of_ok (s := s.withHostOf m) hwrite

theorem branch_withHostOf {b : Bool} {imm : BitVec 16} (h : branch b imm s = .next t) :
    branch b imm (s.withHostOf m) = .next (t.withHostOf m) := by
  cases b <;> cases h <;> rfl

/-- An instruction reads neither the flags nor the report, and leaves them. -/
theorem exec_withHostOf {i : Instr} (h : exec i s = .next t) : exec i (s.withHostOf m) = .next (t.withHostOf m) := by
  cases i
  case lb | lbu | lh | lhu | lw | lwu | ld => exact load_withHostOf m h
  case sb | sh | sw | sd => exact store_withHostOf m h
  case beq | bne | blt | bge | bltu | bgeu => exact branch_withHostOf m h
  case syscall | brk =>
    cases h
    exact congrArg _ (raise_withHostOf m _ _)
  case mtc cr rs1 => cases cr <;> cases h <;> rfl
  all_goals
    cases h
    rfl

/-! ### Bursts -/

theorem cpuStep_withHostOf (h : s.cpuStep = .next t) : (s.withHostOf m).cpuStep = .next (t.withHostOf m) := by
  have hfault : ∀ c info, (s.withHostOf m).faultStep c info = (s.faultStep c info).withHostOf m := fun c info => by
    rw [State.faultStep, raise_withHostOf, retire_withHostOf]
    rfl
  rcases cpuStep_cases s with ⟨c, hf, hs⟩ | ⟨w, e, hf, hd, hs⟩ | ⟨w, i, u, hf, hd, hu, -, hs⟩ <;> cases hs.symm.trans h
  · exact (cpuStep_of_fetch_error (s := s.withHostOf m) hf).trans (congrArg _ (hfault _ _))
  · exact (cpuStep_of_decode_error (s := s.withHostOf m) hf hd).trans (congrArg _ (hfault _ _))
  · exact (cpuStep_of_decode (s := s.withHostOf m) hf hd (exec_withHostOf m hu)).trans (congrArg _ (retire_withHostOf m _))

theorem burstStep_withHostOf (h : s.burstStep = .next t) : (s.withHostOf m).burstStep = .next (t.withHostOf m) := by
  simp only [State.burstStep, withHostOf_run] at h ⊢
  cases hr : s.run with
  | running =>
    rw [hr] at h
    exact cpuStep_withHostOf m h
  | halted r =>
    rw [hr] at h
    cases h
    rfl

theorem burst_withHostOf {k : Nat} (h : State.burst k s = .next t) :
    State.burst k (s.withHostOf m) = .next (t.withHostOf m) := by
  induction k generalizing s with
  | zero =>
    cases h
    rfl
  | succ k ih =>
    by_cases hlt : s.cycles.toNat < s.frameTarget
    · obtain ⟨u, hu, -⟩ := burstStep_scheduler s
      rw [burst_succ_of_lt hlt hu] at h
      rw [burst_succ_of_lt (s := s.withHostOf m) hlt (burstStep_withHostOf m hu)]
      exact ih h
    · have hle := not_lt.mp hlt
      cases (burst_of_target_le hle (k + 1)).symm.trans h
      exact burst_of_target_le (s := t.withHostOf m) hle (k + 1)

/-! ### Frames -/

theorem applyPatch_withHostOf (r : PatchRequest) : (s.withHostOf m).applyPatch r = (s.applyPatch r).withHostOf m := by
  obtain ⟨target, value, cycle⟩ := r
  cases target with
  | memory a => rfl
  | register i =>
    rw [applyPatch_register, applyPatch_register, apply_ite (State.withHostOf · m)]
    rfl

theorem applyEligible_withHostOf : (s.withHostOf m).applyEligible = s.applyEligible.withHostOf m := by
  have hfold := List.foldl_hom (l := s.queue.filter (patchEligible s.cycles)) (init := s) (State.withHostOf · m)
    fun t r => applyPatch_withHostOf m r
  exact congrArg (fun t : State => { t with queue := s.queue.filter fun r => !patchEligible s.cycles r }) hfold

theorem boundaryWith_withHostOf (rs : List PatchRequest) :
    (s.withHostOf m).boundaryWith rs = (s.boundaryWith rs).withHostOf ((s.withHostOf m).boundaryWith rs) := by
  have hpatched : ((s.withHostOf m).accept rs).applyEligible = (s.accept rs).applyEligible.withHostOf m :=
    applyEligible_withHostOf (s := s.accept rs) m
  simp only [State.boundaryWith, hpatched]
  rfl

/-- The end of a frame sets the flags and the report by the old flags, and nothing else by them (R162). -/
theorem endFrame_withHostOf : (s.withHostOf m).endFrame = s.endFrame.withHostOf (s.withHostOf m).endFrame :=
  boundaryWith_withHostOf (s := s.tickFrame) m (Config.observe s.tickFrame.capture)

omit m in
/-- RunFrame whose target does not fit is refused (R155). -/
theorem runFrame_of_overflow (hp : s.phase = .boundary) (h : 2 ^ 64 ≤ s.frameTarget) (k : Nat) :
    s.runFrame k = .refused .counterOverflow := by
  simp only [State.runFrame, hp, if_neg h.not_gt]

/-- RunFrame's outcome depends on the flags and the report only in these fields. -/
theorem agree_runFrame (k : Nat) : Agree (s.runFrame k) ((s.withHostOf m).runFrame k) := by
  cases hp : s.phase with
  | inBurst =>
    simp only [State.runFrame, withHostOf_phase, hp]
    exact .refused _
  | boundary =>
    obtain ⟨hover, hrun⟩ | ⟨hfits, u, hburst, -, hrun⟩ := runFrame_cases k hp
    · rw [hrun, runFrame_of_overflow (s := s.withHostOf m) hp hover k]
      exact .refused _
    · have hburst' : State.burst k (s.withHostOf m).beginFrame = .next (u.withHostOf m) := burst_withHostOf m hburst
      rw [hrun, runFrame_of_burst (s := s.withHostOf m) hp hfits hburst', State.afterBurst, State.afterBurst,
        withHostOf_cycles, withHostOf_frameTarget]
      split
      · exact .next u m
      · rw [endFrame_withHostOf]
        exact .next _ _

end

/-- Runs of frames from machines that differ only in the flags and the report agree. -/
theorem agree_runFrames (k n : Nat) (s m : State) : Agree (runFrames k n s) (runFrames k n (s.withHostOf m)) := by
  induction n generalizing s m with
  | zero => exact .next s m
  | succ n ih =>
    have hframe := agree_runFrame (s := s) m k
    rw [runFrames, runFrames]
    generalize s.runFrame k = x, (s.withHostOf m).runFrame k = y at hframe
    cases hframe with
    | next u m' =>
      simp only [withHostOf_phase]
      cases u.phase with
      | boundary => exact ih u m'
      | inBurst => exact .next u m'
    | fault f => exact .fault f
    | refused r => exact .refused r

/-- RunFrame's prologue sets c_start, so a run of frames does not depend on its value before (R162, log 1). -/
theorem runFrames_cStart (k n : Nat) (s : State) : runFrames k (n + 1) { s with cStart := 0 } = runFrames k (n + 1) s := rfl

/-- Settles O57: the restored machine is s with c_start 0 and with flags and a report of its own, which no frame reads into
the state of the snapshot. -/
theorem runsAfterRestoreAgree : Obligations.RunsAfterRestoreAgree := by
  intro s m t n k h hphase hqueue hdevs hlen hprofile ht
  obtain ⟨-, c, hc, rfl⟩ := restore_eq_ok_iff.mp ht
  rw [hprofile, h.parseBlob_capture hdevs hlen] at hc
  cases hc
  have hrestored : m.install s.capture = ({ s with cStart := 0 } : State).withHostOf (m.install s.capture) :=
    h.install_capture hphase hqueue hlen hprofile
  rw [hrestored]
  cases n with
  | zero => exact ⟨rfl, rfl⟩
  | succ n =>
    rw [← runFrames_cStart]
    exact (agree_runFrames k (n + 1) _ _).sameEnd

end Sys2Proof.Machine
end

section
/-! Patches (R183 to R185): which requests are accepted, and what the eligible ones change. -/

namespace Sys2Proof.Machine

/-! ### Validation (R184) -/

/-- The machine with requests queued differs only in its queue. -/
theorem accept_frame (s : State) (rs : List PatchRequest) : { s.accept rs with queue := s.queue } = s := rfl

/-- Settles O59: patchValid's cases, and the rejected requests of the boundary's report. -/
theorem patchValidation : Obligations.PatchValidation := by
  refine ⟨fun p ⟨target, value, cycle⟩ => ?valid, fun s rs => ⟨rfl, accept_frame s rs, ?report⟩⟩
  case valid =>
    cases target with
    | memory a => simp [patchValid, Option.map_eq_some_iff, and_assoc]
    | register i =>
      simp only [patchValid, Bool.or_eq_true, Bool.and_eq_true, decide_eq_true_eq]
      rfl
  case report =>
    obtain ⟨t, rep, -, heq, -, -, hrejected, -⟩ := boundaryWith_eq s rs
    exact ⟨rep, by rw [heq], hrejected⟩

/-! ### Application (R185) -/

/-- A register that a profile of at most 16 has is its own number in 4 bits. -/
theorem ofNat_four_toNat {i : Nat} (h : i < 16) : (BitVec.ofNat 4 i).toNat = i := Nat.mod_eq_of_lt h

section
variable {p : Profile} (hn : p.nregs ≤ 16) {s : State}

/-- A patch changes no byte but its target. -/
theorem applyPatch_read_ne {r : PatchRequest} {a : Nat} (h : r.target ≠ .memory a) :
    (s.applyPatch r).mem.read a = s.mem.read a := by
  obtain ⟨target, value, cycle⟩ := r
  cases target with
  | memory b => exact read_write_ne s.mem _ fun heq => h (congrArg PatchTarget.memory heq.symm)
  | register i =>
    rw [applyPatch_register]
    split <;> rfl

/-- A patch changes pc only if that is its target. -/
theorem applyPatch_pc_ne {r : PatchRequest} (h : r.target ≠ .register pcIndex) : (s.applyPatch r).pc = s.pc := by
  obtain ⟨target, value, cycle⟩ := r
  cases target with
  | memory a => rfl
  | register i =>
    have hi : i ≠ pcIndex := fun heq => h (congrArg PatchTarget.register heq)
    rw [applyPatch_register, if_neg hi, writeReg_pc]

include hn

/-- An accepted patch changes no register but its target. -/
theorem applyPatch_regs_ne {r : PatchRequest} (hv : patchValid p r = true) {q : Reg} (h : r.target ≠ .register q.toNat) :
    (s.applyPatch r).regs[q.toNat] = s.regs[q.toNat] := by
  obtain ⟨target, value, cycle⟩ := r
  cases target with
  | memory a => rfl
  | register i =>
    obtain ⟨hi, -⟩ | ⟨rfl, -⟩ := register_of_patchValid hv
    · have hne : (BitVec.ofNat 4 i).toNat ≠ q.toNat := by
        rw [ofNat_four_toNat (hi.trans_le hn)]
        exact fun heq => h (congrArg PatchTarget.register heq)
      rw [applyPatch_register, if_neg (by rw [pcIndex]; omega)]
      exact Vector.getElem_set_ne (BitVec.isLt _) q.isLt hne
    · rfl

end

@[simp] theorem applyPatch_profile (s : State) (r : PatchRequest) : (s.applyPatch r).profile = s.profile :=
  (congrArg State.profile (applyPatch_frame s r) :)

/-- What a target holds: the byte at an address, pc, or the value of a register (R183). -/
def State.targetValue (s : State) : PatchTarget → Nat
  | .memory a   => (s.mem.read a).toNat
  | .register i => if i = pcIndex then s.pc.toNat else (s.readReg (BitVec.ofNat 4 i)).toNat

/-- An accepted patch puts its value into its target (R185). -/
theorem targetValue_applyPatch {s : State} {r : PatchRequest} (hmem : s.mem.wf) (hn : s.profile.nregs ≤ 16)
    (haddr : addressesFit s.profile) (hv : patchValid s.profile r = true) :
    (s.applyPatch r).targetValue r.target = r.value := by
  have hxlen : 2 ^ s.profile.xlen.bits ≤ 2 ^ 64 := Nat.pow_le_pow_right (by decide) (xlen_bits_le _)
  obtain ⟨target, value, cycle⟩ := r
  cases target with
  | memory a =>
    simp only [patchValid, Bool.and_eq_true, decide_eq_true_eq] at hv
    obtain ⟨-, hvalue⟩ := hv
    rw [applyPatch_memory, State.targetValue, read_write _ hmem, if_pos rfl, BitVec.toNat_ofNat]
    exact Nat.mod_eq_of_lt (Nat.lt_succ_of_le hvalue)
  | register i =>
    rw [applyPatch_register, State.targetValue]
    obtain ⟨hi, hvalue⟩ | ⟨hi, hvalue⟩ := register_of_patchValid hv
    · have hpc : i ≠ pcIndex := by rw [pcIndex]; omega
      rw [if_neg hpc, if_neg hpc, readReg_writeReg_self, fitX_toNat, BitVec.toNat_ofNat,
        Nat.mod_eq_of_lt (hvalue.trans_le hxlen), Nat.mod_eq_of_lt hvalue]
    · have hword : value < 2 ^ 64 := hvalue.trans_le ((Nat.pow_le_pow_right (by decide) haddr).trans hxlen)
      rw [if_pos hi, if_pos hi, jumpTo_pc, BitVec.toNat_ofNat, Nat.mod_eq_of_lt hword]

/-- An accepted patch leaves what the target of another one holds, unless both have the same target. -/
theorem targetValue_applyPatch_ne {p : Profile} (hn : p.nregs ≤ 16) {s : State} {q r : PatchRequest}
    (hq : patchValid p q = true) (hr : patchValid p r = true) (h : q.target ≠ r.target) :
    (s.applyPatch q).targetValue r.target = s.targetValue r.target := by
  obtain ⟨target, value, cycle⟩ := r
  cases target with
  | memory a => exact congrArg BitVec.toNat (applyPatch_read_ne h)
  | register i =>
    rw [State.targetValue, State.targetValue]
    obtain ⟨hi, -⟩ | ⟨rfl, -⟩ := register_of_patchValid hr
    · have hpc : i ≠ pcIndex := by rw [pcIndex]; omega
      have hregs := applyPatch_regs_ne hn hq (q := BitVec.ofNat 4 i) (s := s)
        (by rwa [ofNat_four_toNat (hi.trans_le hn)])
      rw [if_neg hpc, if_neg hpc, State.readReg, State.readReg, applyPatch_profile, hregs]
    · rw [if_pos rfl, if_pos rfl, applyPatch_pc_ne h]

/-- An eligible request that no eligible request of the same target follows has its value in its target (R185). -/
theorem targetValue_applyEligible {s : State} {before after : List PatchRequest} {r : PatchRequest} (hmem : s.mem.wf)
    (hn : s.profile.nregs ≤ 16) (haddr : addressesFit s.profile) (hqueue : s.queueValid)
    (hsplit : s.queue = before ++ r :: after) (hr : patchEligible s.cycles r = true)
    (hafter : ∀ q ∈ after, patchEligible s.cycles q = true → q.target ≠ r.target) :
    s.applyEligible.targetValue r.target = r.value := by
  have hvalid : patchValid s.profile r = true := hqueue r (by simp [hsplit])
  obtain ⟨u, hu⟩ : ∃ u, u = (before.filter (patchEligible s.cycles)).foldl State.applyPatch s := ⟨_, rfl⟩
  have hearlier : u.profile = s.profile ∧ u.mem.wf := hu ▸
    foldl_applyPatch_induct (P := fun t => t.profile = s.profile ∧ t.mem.wf) _ s ⟨rfl, hmem⟩
      fun t q _ ⟨hprofile, hwf⟩ => ⟨(applyPatch_profile t q).trans hprofile, applyPatch_wf hwf q⟩
  obtain ⟨hprofile, hwf⟩ := hearlier
  have hlater : ((after.filter (patchEligible s.cycles)).foldl State.applyPatch (u.applyPatch r)).targetValue r.target =
      (u.applyPatch r).targetValue r.target :=
    foldl_applyPatch_induct (P := fun t => t.targetValue r.target = (u.applyPatch r).targetValue r.target) _ _ rfl
      fun t q hq ht => by
        obtain ⟨hmemq, helig⟩ := List.mem_filter.mp hq
        exact (targetValue_applyPatch_ne hn (hqueue q (by simp [hsplit, hmemq])) hvalid (hafter q hmemq helig)).trans ht
  have hall : s.applyEligible.targetValue r.target =
      ((after.filter (patchEligible s.cycles)).foldl State.applyPatch (u.applyPatch r)).targetValue r.target := by
    rw [hu, ← List.foldl_cons, ← List.foldl_append, ← List.filter_cons_of_pos hr, ← List.filter_append, ← hsplit]
    rfl
  rw [hall, hlater]
  exact targetValue_applyPatch hwf (hprofile ▸ hn) (hprofile ▸ haddr) (hprofile ▸ hvalid)

/-- Settles O60: the patches one by one, each keeping all but its target. -/
theorem patchApplication : Obligations.PatchApplication := by
  intro s hmem hn haddr hqueue t eligible
  have hofQueue : ∀ {P : PatchRequest → Prop}, (∀ q ∈ s.queue, eligible q → P q) →
      ∀ q ∈ s.queue.filter (patchEligible s.cycles), P q := fun h q hq => by
    obtain ⟨hmem, helig⟩ := List.mem_filter.mp hq
    exact h q hmem (of_decide_eq_true helig)
  refine ⟨rfl, applyEligible_frame s, ?last, fun a ha => ?byte, fun r hr => ?register, fun hpc => ?pc⟩
  case last =>
    intro before after r hsplit helig hafter
    have hr : patchValid s.profile r = true := hqueue r (by simp [hsplit])
    have hvalue : t.targetValue r.target = r.value :=
      targetValue_applyEligible hmem hn haddr hqueue hsplit (decide_eq_true helig)
        fun q hq hcycle => hafter q hq (of_decide_eq_true hcycle)
    obtain ⟨target, value, cycle⟩ := r
    cases target with
    | memory a => exact hvalue
    | register i => exact (apply_ite (· = value) _ _ _).mp hvalue
  case byte =>
    exact foldl_applyPatch_induct (P := fun u => u.mem.read a = s.mem.read a) _ s rfl fun u q hq hu =>
      (applyPatch_read_ne (hofQueue ha q hq)).trans hu
  case register =>
    exact foldl_applyPatch_induct (P := fun u => u.regs[r.toNat] = s.regs[r.toNat]) _ s rfl fun u q hq hu =>
      (applyPatch_regs_ne hn (hqueue q (List.mem_filter.mp hq).1) (hofQueue hr q hq)).trans hu
  case pc =>
    exact foldl_applyPatch_induct (P := fun u => u.pc = s.pc) _ s rfl fun u q hq hu =>
      (applyPatch_pc_ne (hofQueue hpc q hq)).trans hu

end Sys2Proof.Machine
end
